-- ==== Sys2Proof/Word.lean ====
section
/-! DEFINITION. The machine's widths: the byte of the buffer memory, the 32-bit register word, the 6-bit
character index, and the byte offset inside the register window. -/

namespace Sys2Proof

/-- One byte of the buffer memory, one pixel, one stored character code (00_scope.md R8, 20_memory.md R50). -/
abbrev Byte := BitVec 8

/-- One register or command word: "Every register is 32 bits wide" (00_scope.md R10, 30_encoding.md R70). -/
abbrev Word := BitVec 32

/-- A 6-bit character index of the encoder, 0 to 63 (00_scope.md R11, 42_b64encoder.md R130). -/
abbrev Index := BitVec 6

/-- A byte offset inside the register window of 16 word registers, 0x00 to 0x3F (10_state.md R23).
DESIGN CHOICE, safe: an access outside the window is not expressible (log 7). -/
abbrev RegOffset := BitVec 6

end Sys2Proof
end

