-- ==== Sys2Proof/Syntax.lean ====
section
/-! DEFINITION. The instructions: one constructor for each row of spec/opcode_table.json (30_encoding.md R72). -/

namespace Sys2Proof

/-- A command of the block, as a host write to CMD issues it. Its operands are the configuration registers, and
IMM8 for EBYTE (30_encoding.md R70, R71). -/
inductive Instr where
  | nop                 -- NOP, 43_control.md R170
  | srst                -- SRST, 43_control.md R171
  | pack                -- PACK, 41_bitpacker.md R105
  | ascan               -- ASCAN, 41_bitpacker.md R107
  | einit               -- EINIT, 42_b64encoder.md R142
  | ebyte (imm : Byte)  -- EBYTE #imm, 42_b64encoder.md R143
  | eflush              -- EFLUSH, 42_b64encoder.md R144
  | encode              -- ENCODE, 42_b64encoder.md R145
deriving DecidableEq, Repr

/-- The multi-step commands, whose effect the engine completes in micro-steps (30_encoding.md R72, last column). -/
def Instr.multiStep (i : Instr) : Bool :=
  match i with
  | .nop => false
  | .srst => false
  | .pack => true
  | .ascan => true
  | .einit => false
  | .ebyte _ => false
  | .eflush => false
  | .encode => true

end Sys2Proof
end

