-- ==== Sys2Proof/WellFormed.lean ====
section
/-! DEFINITION. What is well-formed before any bits: a line of the assembler (30_encoding.md R75), and an
instruction as syntax. The fields of a command word are checked by the decoder (Decode.lean), the addresses of a
host program by Safety.lean. -/

namespace Sys2Proof

/-- One line of assembler source: a mnemonic and, where one is written, its numeric operand
(`EBYTE #imm`, 30_encoding.md R75). -/
structure AsmLine where
  mnemonic : String
  operand : Option Nat
deriving DecidableEq, Repr

/-- Why an assembler refuses a line (30_encoding.md R75). -/
inductive AsmError where
  /-- The mnemonic is none of the eight (lower case included: "its mnemonic, upper case"). -/
  | unknownMnemonic
  /-- "refuses an EBYTE immediate outside 0 to 255". -/
  | immediateOutOfRange
  /-- EBYTE "takes one operand", and none is written. -/
  | missingOperand
  /-- "refuses an operand on any other mnemonic". -/
  | unexpectedOperand
  /-- What stands after the mnemonic is not `#` and a number in decimal or `0x` hexadecimal. -/
  | malformedOperand
deriving DecidableEq, Repr

/-- The instruction of a mnemonic that takes no operand. -/
def plainMnemonic (m : String) : Option Instr :=
  if m = "NOP" then some .nop
  else if m = "SRST" then some .srst
  else if m = "PACK" then some .pack
  else if m = "ASCAN" then some .ascan
  else if m = "EINIT" then some .einit
  else if m = "EFLUSH" then some .eflush
  else if m = "ENCODE" then some .encode
  else none

/-- The assembler of 30_encoding.md R75, up to the instruction; `encode` (Decode.lean) gives its word. -/
def assemble (l : AsmLine) : Except AsmError Instr :=
  if l.mnemonic = "EBYTE" then
    match l.operand with
    | none => .error .missingOperand
    | some n => if n ≤ 255 then .ok (.ebyte (BitVec.ofNat 8 n)) else .error .immediateOutOfRange
  else
    match plainMnemonic l.mnemonic with
    | none => .error .unknownMnemonic
    | some i => if l.operand = none then .ok i else .error .unexpectedOperand

/-- A line the assembler accepts. -/
abbrev AsmLine.WellFormed (l : AsmLine) : Prop := (assemble l).toOption.isSome = true

/-- An instruction is well-formed when its immediate is a number 0 to 255 (30_encoding.md R71, R75). The type
`Byte` of EBYTE's operand already says so: no ill-formed instruction can be written, and the checks that refuse
stand one level out, on the assembler line above and on the command word (`decode`). -/
abbrev Instr.WellFormed (i : Instr) : Prop :=
  match i with
  | .nop => True
  | .srst => True
  | .pack => True
  | .ascan => True
  | .einit => True
  | .ebyte imm => imm.toNat ≤ 255
  | .eflush => True
  | .encode => True

end Sys2Proof
end

