-- ==== Sys2Proof/Decode.lean ====
section
/-! DEFINITION. The decoder and the encoder of the 32-bit command word (30_encoding.md R70 to R74), and the opcode
map of R72 as a table of match and mask. -/

namespace Sys2Proof

/-- Why a word is reserved: the three grounds of 30_encoding.md R73, and a transfer that is no whole word. -/
inductive Reserved where
  /-- "its OPC is not one of the eight codes". -/
  | unknownOpcode
  /-- "its RSVD field w[31:16] is not 0". -/
  | reservedField
  /-- "its IMM8 field w[15:8] is not 0 and OPC is not 0x21". -/
  | immediateField
  /-- The bytes are not the four lanes of one word (10_state.md R41: only 32-bit accesses are taken). -/
  | notOneWord
deriving DecidableEq, Repr

/-- OPC, bits 7:0 (30_encoding.md R70). -/
def opcField (w : Word) : Byte := w.extractLsb' 0 8

/-- IMM8, bits 15:8 (30_encoding.md R70). -/
def imm8Field (w : Word) : Byte := w.extractLsb' 8 8

/-- RSVD, bits 31:16 (30_encoding.md R70). -/
def rsvdField (w : Word) : BitVec 16 := w.extractLsb' 16 16

/-- The command of an operation code that takes no immediate (30_encoding.md R72). -/
def plainOpcode (opc : Byte) : Option Instr :=
  if opc = 0x00#8 then some .nop
  else if opc = 0x01#8 then some .srst
  else if opc = 0x10#8 then some .pack
  else if opc = 0x11#8 then some .ascan
  else if opc = 0x20#8 then some .einit
  else if opc = 0x22#8 then some .eflush
  else if opc = 0x23#8 then some .encode
  else none

/-- The decoder, total on all 2^32 words: one of the eight commands, or reserved (30_encoding.md R72 to R74). -/
def decode (w : Word) : Except Reserved Instr :=
  if rsvdField w ≠ 0 then .error .reservedField
  else if opcField w = 0x21#8 then .ok (.ebyte (imm8Field w))
  else
    match plainOpcode (opcField w) with
    | none => .error .unknownOpcode
    | some i => if imm8Field w = 0 then .ok i else .error .immediateField

/-- A word from its four byte lanes: "byte lane i carries bits [8i+7:8i]" (20_memory.md R55). -/
def wordOfLanes (b0 b1 b2 b3 : Byte) : Word := b3 ++ b2 ++ b1 ++ b0

/-- Decoding what a platform with byte lanes puts on the port; anything but one whole word is rejected. -/
def decodeLanes (lanes : List Byte) : Except Reserved Instr :=
  match lanes with
  | [b0, b1, b2, b3] => decode (wordOfLanes b0 b1 b2 b3)
  | _ => .error .notOneWord

/-- The encoder: the word an instruction assembles to (30_encoding.md R72, R75). -/
def encode (i : Instr) : Word :=
  match i with
  | .nop => 0x00000000#32
  | .srst => 0x00000001#32
  | .pack => 0x00000010#32
  | .ascan => 0x00000011#32
  | .einit => 0x00000020#32
  | .ebyte imm => 0x00000021#32 ||| (imm.setWidth 32 <<< 8)
  | .eflush => 0x00000022#32
  | .encode => 0x00000023#32

/-- The value of a digit in a base up to 16. -/
def digitValue (radix : Nat) (c : Char) : Option Nat :=
  let n := c.toNat
  let v := if 0x30 ≤ n ∧ n ≤ 0x39 then n - 0x30
    else if 0x41 ≤ n ∧ n ≤ 0x46 then n - 0x41 + 10
    else if 0x61 ≤ n ∧ n ≤ 0x66 then n - 0x61 + 10
    else 16
  if v < radix then some v else none

/-- The number the digits stand for, the most significant first. -/
def digitsValue (radix acc : Nat) (digits : List Char) : Option Nat :=
  match digits with
  | [] => some acc
  | c :: rest =>
    match digitValue radix c with
    | some v => digitsValue radix (acc * radix + v) rest
    | none => none

/-- "a number 0 to 255 in decimal or `0x` hexadecimal" (30_encoding.md R75); its range is `assemble`'s check. -/
def parseNumber (text : List Char) : Option Nat :=
  match text with
  | [] => none
  | ['0', 'x'] => none
  | '0' :: 'x' :: digits => digitsValue 16 0 digits
  | digits => digitsValue 10 0 digits

/-- A command as written, `EBYTE #imm` or a mnemonic alone, to its instruction (30_encoding.md R75). -/
def assembleText (text : List Char) : Except AsmError Instr :=
  let mnemonic := String.ofList (text.takeWhile (· ≠ ' '))
  match (text.dropWhile (· ≠ ' ')).dropWhile (· = ' ') with
  | [] => assemble ⟨mnemonic, none⟩
  | '#' :: digits =>
    match parseNumber digits with
    | some n => assemble ⟨mnemonic, some n⟩
    | none => .error .malformedOperand
  | _ => .error .malformedOperand

/-- One row of the opcode map (30_encoding.md R72): a word w selects it when `(w & mask) == match`. -/
structure OpcodeRow where
  mnemonic : String
  matchBits : Word
  mask : Word
deriving DecidableEq, Repr

/-- "A word w selects a command when `(w & mask) == match`" (30_encoding.md R72). -/
abbrev OpcodeRow.Selects (r : OpcodeRow) (w : Word) : Prop := w &&& r.mask = r.matchBits

/-- The row of each instruction. -/
def Instr.row (i : Instr) : OpcodeRow :=
  match i with
  | .nop => ⟨"NOP", 0x00000000, 0xFFFFFFFF⟩
  | .srst => ⟨"SRST", 0x00000001, 0xFFFFFFFF⟩
  | .pack => ⟨"PACK", 0x00000010, 0xFFFFFFFF⟩
  | .ascan => ⟨"ASCAN", 0x00000011, 0xFFFFFFFF⟩
  | .einit => ⟨"EINIT", 0x00000020, 0xFFFFFFFF⟩
  | .ebyte _ => ⟨"EBYTE", 0x00000021, 0xFFFF00FF⟩
  | .eflush => ⟨"EFLUSH", 0x00000022, 0xFFFFFFFF⟩
  | .encode => ⟨"ENCODE", 0x00000023, 0xFFFFFFFF⟩

/-- The whole map, in the table's order: "The table is the whole opcode space" (30_encoding.md R72). -/
def opcodeRows : List OpcodeRow :=
  [Instr.row .nop, Instr.row .srst, Instr.row .pack, Instr.row .ascan, Instr.row .einit,
   Instr.row (.ebyte 0), Instr.row .eflush, Instr.row .encode]

/-- The instruction read from a word given as a number whose low `nbits` bits count: the word is written whole to
CMD, so nothing is laid out in bytes (30_encoding.md R70, 20_memory.md R55). A number that is no 32-bit word is no
command. -/
def decodeTableWord (nbits w : Nat) : Option Instr :=
  let v := w % 2 ^ nbits
  if v < 2 ^ 32 then (decode (BitVec.ofNat 32 v)).toOption else none

end Sys2Proof
end

