-- ==== Sys2Proof/Config.lean ====
section
/-! DEFINITION. What the spec leaves to the implementation: the size of the buffer memory (an OPEN parameter) and
what its bytes hold before anything has written them (free values). -/

namespace Sys2Proof

/-- The legal values of the OPEN parameter MEM_BYTES: `1 ≤ MEM_BYTES ≤ 2^32 − 1` (00_scope.md R9). -/
abbrev Config.MemBytesOk (n : Nat) : Prop := 1 ≤ n ∧ n ≤ 2 ^ 32 - 1

/-- MEM_BYTES of the machine `State.reset`. DESIGN CHOICE, unsafe for a claim about `State.reset` alone: the
parameter is OPEN, and 0x1000 is the value of the spec's own test vectors (95_test_vectors.md, conventions). Every
other size is a value of `State.memBytes` (log 2). -/
def Config.memBytes : Nat := 0x1000

/-- What the byte at an address holds after power-on, before the host or the engine has written it. A free
value: "A model must not give an unwritten byte a value" (20_memory.md R60, 93_implementation_defined.md U2, the
treatment `any value`). DESIGN CHOICE among the two treatments the spec allows, safe (log 1). -/
opaque Config.powerOnByte : Nat → Byte

end Sys2Proof
end

