-- ==== Sys2Proof/Machine/Codec.lean ====
section
/-! DEFINITION. The pure functions of the two codecs: threshold, traversal, packing and unpacking
(41_bitpacker.md R100 to R104, R111, R112), the alpha policy (R109), the alphabet and the encoder's step, tail,
whole encoding, length and inverse (42_b64encoder.md R130 to R140, R147). They read no machine state. -/

namespace Sys2Proof.Machine

/-- A plane: the pixel at (x, y) (00_scope.md, glossary). -/
abbrev Plane := Nat → Nat → Byte

/-- THRESHOLD, fixed at 127 (00_scope.md R7). -/
def thresholdValue : Nat := 127

/-- `T(p) = 1 if p ≥ 127, else 0`, unsigned (41_bitpacker.md R100). -/
def threshold (p : Byte) : Bool := decide (thresholdValue ≤ p.toNat)

/-- Eight bits into a byte, bit i from lane i: the loop `acc <- acc | (bit << i)` for i in 0 .. 7
(41_bitpacker.md R103, R106). -/
def packBits (lane : Nat → Bool) : Byte :=
  (List.range 8).foldl (fun acc i => acc ||| (BitVec.ofBool (lane i)).setWidth 8 <<< i) 0#8

/-- V(W, H): the coordinates in the order they are visited, tiles row-major, rows of a tile downwards, each row
right to left (41_bitpacker.md R101). -/
def visitOrder (w h : Nat) : List (Nat × Nat) :=
  (List.range (h / 8)).flatMap fun ty =>
    (List.range (w / 8)).flatMap fun tx =>
      (List.range 8).flatMap fun r =>
        (List.range 8).map fun i => (8 * tx + 7 - i, 8 * ty + r)

/-- Pack(P): "Bit (i mod 8) of byte (i div 8) is T(P(v_i))", W·H/8 bytes (41_bitpacker.md R102, R112). -/
def packPlane (p : Plane) (w h : Nat) : List Byte :=
  (List.range (w * h / 8)).map fun k =>
    packBits fun j =>
      match (visitOrder w h)[8 * k + j]? with
      | some (x, y) => threshold (p x y)
      | none => false

/-- The closed form of Pack(P)[k] (41_bitpacker.md R103). -/
def packedByte (p : Plane) (w k : Nat) : Byte :=
  let tw := w / 8
  let t := k / 8
  let r := k % 8
  let sx := 8 * (t % tw)
  let sy := 8 * (t / tw)
  packBits fun i => threshold (p (sx + 7 - i) (sy + r))

/-- Unpack(B)(x, y) (41_bitpacker.md R111). -/
def unpack (bytes : List Byte) (w x y : Nat) : Bool :=
  let k := (y / 8 * (w / 8) + x / 8) * 8 + y % 8
  (bytes.getD k 0).getLsbD (7 - x % 8)

/-- The alpha-presence test: some pixel is not fully opaque, 0xFF (41_bitpacker.md R107). -/
def alphaPresent (p : Plane) (w h : Nat) : Bool :=
  (List.range h).any fun y => (List.range w).any fun x => decide (p x y ≠ 0xFF#8)

/-- The alphabet as stored: the character code of an index (42_b64encoder.md R130). -/
def charCode (c : Index) : Byte :=
  let n := c.toNat
  if n < 26 then BitVec.ofNat 8 (0x41 + n)
  else if n < 52 then BitVec.ofNat 8 (0x61 + (n - 26))
  else if n < 62 then BitVec.ofNat 8 (0x30 + (n - 52))
  else if n = 62 then 0x2B#8
  else 0x2F#8

/-- nmod6 of a byte consumed at phase p: `2·(p + 1)` (42_b64encoder.md R133). -/
def nmod6 (p : Fin 3) : Nat := 2 * (p.val + 1)

/-- The next phase, `(p + 1) mod 3` (42_b64encoder.md R134). -/
def nextPhase (p : Fin 3) : Fin 3 := p + 1

/-- The mask `(1 << n) − 1` of the low nmod6 bits of a byte (42_b64encoder.md R134). -/
def lowMask (p : Fin 3) : Byte := (1#8 <<< nmod6 p) - 1#8

/-- The one character every byte emits: the high part of the byte, shifted right by 2, joined by OR with the
previous leftover, unshifted (42_b64encoder.md R134, R135). -/
def headIndex (p : Fin 3) (lo : Index) (b : Byte) : Index :=
  ((b &&& ~~~lowMask p) >>> 2).setWidth 6 ||| lo

/-- The low nmod6 bits of the byte (42_b64encoder.md R134). -/
def lowPart (p : Fin 3) (b : Byte) : Index := (b &&& lowMask p).setWidth 6

/-- EncStep(p, lo, b): the indices out, the new PHASE and the new LEFTOVER (42_b64encoder.md R134). -/
def encStep (p : Fin 3) (lo : Index) (b : Byte) : List Index × Fin 3 × Index :=
  if p = 2 then ([headIndex p lo b, lowPart p b], nextPhase p, 0)
  else ([headIndex p lo b], nextPhase p, lowPart p b)

/-- EncTail(p, lo) = [lo] if p ≠ 0, else [] (42_b64encoder.md R137). -/
def encTail (p : Fin 3) (lo : Index) : List Index := if p ≠ 0 then [lo] else []

/-- The rest of an encoding from PHASE p and LEFTOVER lo on, tail included (42_b64encoder.md R138). -/
def encFrom (p : Fin 3) (lo : Index) (bytes : List Byte) : List Index :=
  match bytes with
  | [] => encTail p lo
  | b :: rest =>
    let r := encStep p lo b
    r.1 ++ encFrom r.2.1 r.2.2 rest

/-- Enc(B), the whole encoding of a byte sequence (42_b64encoder.md R138). -/
def enc (bytes : List Byte) : List Index := encFrom 0 0 bytes

/-- `f(N) = N + (N div 3) + (1 if N mod 3 ≠ 0 else 0)` (42_b64encoder.md R140). -/
def encLength (n : Nat) : Nat := n + n / 3 + (if n % 3 ≠ 0 then 1 else 0)

/-- Dec, the inverse, defined on sequences of m indices with m mod 4 ≠ 1 (42_b64encoder.md R147). -/
def dec (chars : List Index) : Option (List Byte) :=
  match chars with
  | [] => some []
  | [_] => none
  | [c0, c1] => some [(c0.setWidth 8 <<< 2) ||| c1.setWidth 8]
  | [c0, c1, c2] =>
    some [(c0.setWidth 8 <<< 2) ||| (c1 &&& 3#6).setWidth 8, ((c1 >>> 2).setWidth 8 <<< 4) ||| c2.setWidth 8]
  | c0 :: c1 :: c2 :: c3 :: rest =>
    (dec rest).map fun tail =>
      ((c0.setWidth 8 <<< 2) ||| (c1 &&& 3#6).setWidth 8)
        :: (((c1 >>> 2).setWidth 8 <<< 4) ||| (c2 &&& 15#6).setWidth 8)
        :: (((c2 >>> 4).setWidth 8 <<< 6) ||| c3.setWidth 8)
        :: tail

/-- The alpha stream of an image whose alpha plane is p: its encoded packed plane when some pixel is not fully
opaque, and no stream at all otherwise (41_bitpacker.md R109). The host produces it from ASCAN, PACK and ENCODE. -/
def alphaStream (p : Plane) (w h : Nat) : Option (List Index) :=
  if alphaPresent p w h then some (enc (packPlane p w h)) else none

end Sys2Proof.Machine
end

