-- ==== Sys2Proof/Machine/State.lean ====
section
/-! DEFINITION. The state of the block, plain data: every register and every piece of internal engine state of
10_state.md, the buffer memory, and the model's own record of the host (what it still has to do, who moves next,
what it last read). With it the ways a step can stop, and the state after reset. -/

namespace Sys2Proof.Machine

/-- OP names the multi-step command in progress (10_state.md R35). -/
inductive Op where
  | idle
  | pack
  | ascan
  | encode
deriving DecidableEq, Repr

/-- The five error causes (60_exceptions.md R181). -/
inductive Err where
  /-- ERR_CMD, STATUS bit 3: the word is reserved. -/
  | cmd
  /-- ERR_DIM, STATUS bit 4: WIDTH or HEIGHT is not a multiple of 8. -/
  | dim
  /-- ERR_RANGE, STATUS bit 5: a region does not fit in the buffer memory. -/
  | range
  /-- ERR_OVERLAP, STATUS bit 6: source and destination regions overlap. -/
  | overlap
  /-- ERR_BUSY, STATUS bit 7: a host write the busy block ignored. -/
  | busy
deriving DecidableEq, Repr

/-- The registers of the map (10_state.md R23), by name. -/
inductive Reg where
  | id
  | cmd
  | status
  | src
  | dst
  | width
  | height
  | length
  | pkCount
  | encCount
  | encState
deriving DecidableEq, Repr

/-- The size of a register-port access: only whole 32-bit words are taken (10_state.md R41). -/
inductive AccessSize where
  | byte
  | half
  | word
deriving DecidableEq, Repr

/-- One action of the host (30_encoding.md R76), one step each. `CMD x` is a word write of the word of x at offset
0x04. -/
inductive HostAction where
  /-- `WREG`: a register-port write of a value at a byte offset of the window. -/
  | regWrite (size : AccessSize) (off : RegOffset) (v : Word)
  /-- `RREG`: a register-port read at a byte offset of the window. -/
  | regRead (size : AccessSize) (off : RegOffset)
  /-- One byte of `WMEM`: a memory-port write (20_memory.md R59). -/
  | memWrite (addr : Nat) (b : Byte)
  /-- One byte of `RMEM`: a memory-port read (20_memory.md R59). -/
  | memRead (addr : Nat)
  /-- `WAIT`: read STATUS, and stay until the value read has BUSY = 0 (30_encoding.md R77); one poll a step. -/
  | wait
deriving DecidableEq, Repr

/-- What a host read returned: a register word or a buffer byte. -/
inductive HostReply where
  | word (v : Word)
  | byte (b : Byte)
deriving DecidableEq, Repr

/-- Who moves next in the one total order of steps (20_memory.md R61). -/
inductive Turn where
  /-- The host takes its next action. -/
  | host
  /-- The engine takes its enabled micro-step, if it has one (10_state.md R35). -/
  | engine
  /-- The reset input is asserted (70_reset_and_hazards.md R200). -/
  | hardReset
deriving DecidableEq, Repr

/-- The machine. The first group is the block's own state (10_state.md R23 to R39); BUSY, ENC_STATE and the
constant ID are views of it. `memBytes`, `program`, `schedule` and `hostRead` are the model's own fields: the OPEN
parameter MEM_BYTES (log 2), the host (log 3), the order of steps (log 3), the last value a host read returned
(log 9). -/
structure State where
  /-- OP, 10_state.md R35; STATUS.BUSY is `op ≠ idle`. -/
  op : Op
  /-- STATUS.DONE, 10_state.md R26. -/
  done : Bool
  /-- STATUS.ALPHA_PRESENT, 10_state.md R26. -/
  alphaPresent : Bool
  /-- STATUS.ERR_CMD, 10_state.md R26. -/
  errCmd : Bool
  /-- STATUS.ERR_DIM, 10_state.md R26. -/
  errDim : Bool
  /-- STATUS.ERR_RANGE, 10_state.md R26. -/
  errRange : Bool
  /-- STATUS.ERR_OVERLAP, 10_state.md R26. -/
  errOverlap : Bool
  /-- STATUS.ERR_BUSY, 10_state.md R26. -/
  errBusy : Bool
  /-- SRC, 10_state.md R27. -/
  src : Word
  /-- DST, 10_state.md R28. -/
  dst : Word
  /-- WIDTH[15:0], 10_state.md R29. -/
  width : BitVec 16
  /-- HEIGHT[15:0], 10_state.md R30. -/
  height : BitVec 16
  /-- LENGTH, 10_state.md R31. -/
  length : Word
  /-- PK_COUNT, 10_state.md R32. -/
  pkCount : Word
  /-- ENC_COUNT, 10_state.md R33. -/
  encCount : Word
  /-- TSX, 10_state.md R36. -/
  tsx : Nat
  /-- TSY, 10_state.md R36. -/
  tsy : Nat
  /-- TR, 10_state.md R36. -/
  tr : Nat
  /-- AJ, 10_state.md R37. -/
  aj : Nat
  /-- PHASE, 10_state.md R38; "the value 3 never occurs" (R34). -/
  phase : Fin 3
  /-- LEFTOVER, 10_state.md R38. -/
  leftover : Index
  /-- EK, 10_state.md R38. -/
  ek : Word
  /-- The buffer memory (10_state.md R39): the bytes that something has written, by address. -/
  mem : List Host.Cell
  /-- MEM_BYTES, 00_scope.md R9; no step writes it. -/
  memBytes : Nat
  /-- What the host still has to do, in its program order. -/
  program : List HostAction
  /-- The turns still fixed; once it is used up the engine moves whenever it can. -/
  schedule : List Turn
  /-- What the last host read returned. -/
  hostRead : Option HostReply
deriving DecidableEq, Repr

/-- Why the machine stops with a fault. -/
inductive Fault where
  /-- Raised by an engine micro-step that would access an address outside the buffer memory, which the spec says
  does not exist (20_memory.md R50). The acceptance checks of R57 place every region in range, so no reachable state
  raises it. Safe: the model stops where the hardware's behaviour is not given (log 11). -/
  | engineOutOfRange
deriving DecidableEq, Repr

/-- Why the machine refuses a step. -/
inductive Refusal where
  /-- Raised by `exec` for an instruction that has no meaning yet. No instruction of this model is left so. Safe. -/
  | notModelled (mnemonic : String)
  /-- Raised by a host memory-port access at an address ≥ MEM_BYTES, "outside the block" (20_memory.md R59;
  93_implementation_defined.md U9, treatment `refuse`). Safe: what the platform does is not modelled (log 6). -/
  | hostOutsideBlock
deriving DecidableEq, Repr

/-- The block with a buffer memory of n bytes, right after power-on reset: 10_state.md R40. No byte of the buffer
memory is listed, because nothing has written one. The host has nothing to do and no turn is fixed (log 3). -/
def State.powerOn (n : Nat) : State :=
  { op := .idle, done := false, alphaPresent := false, errCmd := false, errDim := false, errRange := false,
    errOverlap := false, errBusy := false, src := 0, dst := 0, width := 0, height := 0, length := 0, pkCount := 0,
    encCount := 0, tsx := 0, tsy := 0, tr := 0, aj := 0, phase := 0, leftover := 0, ek := 0, mem := [],
    memBytes := n, program := [], schedule := [], hostRead := none }

/-- The machine right after reset (10_state.md R40, 70_reset_and_hazards.md R200), with the model's MEM_BYTES
(DESIGN CHOICE, log 2). -/
def State.reset : State := State.powerOn Config.memBytes

end Sys2Proof.Machine
end

