-- ==== Sys2Proof/Machine/Ops.lean ====
section
/-! DEFINITION. The named operations: the buffer memory and its canonical form, the region checks, and the one
shared way an error is reported (60_exceptions.md R182), which stands here where other machines take an exception. -/

namespace Sys2Proof.Machine

/-- What a step answers. -/
abbrev Result := Host.Outcome State Fault Refusal

/-- The written byte at an address, if something has written one. -/
def Memory.lookup (m : List Host.Cell) (a : Nat) : Option Byte :=
  match m with
  | [] => none
  | (k, v) :: rest => if k = a then some v else Memory.lookup rest a

/-- Writing one byte: the address keeps its place in rising order. -/
def Memory.insert (m : List Host.Cell) (a : Nat) (b : Byte) : List Host.Cell :=
  match m with
  | [] => [(a, b)]
  | (k, v) :: rest =>
    if a < k then (a, b) :: (k, v) :: rest
    else if a = k then (a, b) :: rest
    else (k, v) :: Memory.insert rest a b

/-- The canonical form: addresses strictly rising and below MEM_BYTES. An unlisted address is one that nothing has
written, which no entry can say, so no entry is redundant (log 1). -/
abbrev Memory.wf (n : Nat) (m : List Host.Cell) : Prop :=
  (m.map Prod.fst).Pairwise (· < ·) ∧ ∀ a ∈ m.map Prod.fst, a < n

/-- MemRead(a, 1): the byte last written at a, or, where nothing has written one, what the byte holds since
power-on, a free value (00_scope.md R13, 20_memory.md R60, R61; log 1). -/
def State.memRead (s : State) (a : Nat) : Byte :=
  (Memory.lookup s.mem a).getD (Config.powerOnByte a)

/-- MemWrite(a, 1, v) (00_scope.md R13). -/
def State.memWrite (s : State) (a : Nat) (v : Byte) : State :=
  { s with mem := Memory.insert s.mem a v }

/-- `InRange(base, n)` holds iff `base + n ≤ MEM_BYTES`, on unbounded integers (20_memory.md R57). -/
abbrev State.InRange (s : State) (base n : Nat) : Prop := base + n ≤ s.memBytes

/-- `Overlap((a, n), (b, m))` (20_memory.md R58). -/
abbrev Overlap (a n b m : Nat) : Prop := 0 < n ∧ 0 < m ∧ a < b + m ∧ b < a + n

/-- STATUS.BUSY = 1 exactly when OP ≠ IDLE (10_state.md R35). -/
def State.busy (s : State) : Bool := decide (s.op ≠ .idle)

/-- STATUS.ERR_X <- 1 for the cause X (60_exceptions.md R181). -/
def State.setErr (s : State) (e : Err) : State :=
  match e with
  | .cmd => { s with errCmd := true }
  | .dim => { s with errDim := true }
  | .range => { s with errRange := true }
  | .overlap => { s with errOverlap := true }
  | .busy => { s with errBusy := true }

/-- STATUS.DONE <- d. -/
def State.setDone (s : State) (d : Bool) : State := { s with done := d }

/-- `raise ERR_X()` at command acceptance: "STATUS.ERR_X <- 1; STATUS.DONE <- 1; end the command: no other state is
written by it" (60_exceptions.md R182). The block has no trap to take and none to return from (R180, R184). -/
def State.raise (s : State) (e : Err) : State := (s.setErr e).setDone true

/-- Command dispatch for a decoded command other than SRST (43_control.md R172): while busy the write is ignored
and sets ERR_BUSY, with DONE left alone; else DONE <- 0 and the command's acceptance runs. -/
def State.dispatch (s : State) (accept : State → State) : State :=
  if s.busy then s.setErr .busy else accept (s.setDone false)

/-- The dispatch of a single-step command, which ends with DONE <- 1 within the write (43_control.md R172). -/
def State.dispatchSingle (s : State) (accept : State → State) : State :=
  s.dispatch fun u => (accept u).setDone true

/-- The end of a multi-step command: OP <- IDLE; DONE <- 1 (41_bitpacker.md R106, R108; 42_b64encoder.md R146). -/
def State.complete (s : State) : State := { s with op := .idle, done := true }

/-- Hardware reset of a powered block: every register and every piece of internal state takes the value of
10_state.md R40; the buffer memory is not written (70_reset_and_hazards.md R200, R201; log 10). The host, its turns
and what it has read are no state of the block. -/
def State.hardReset (s : State) : State :=
  { State.powerOn s.memBytes with
    mem := s.mem, program := s.program, schedule := s.schedule, hostRead := s.hostRead }

end Sys2Proof.Machine
end

