-- ==== Sys2Proof/Machine/Operands.lean ====
section
/-! DEFINITION. The operands of the commands: the configuration registers as numbers, the plane and the byte
sequence they name in the buffer memory, the addresses written, and the acceptance checks over them
(41_bitpacker.md R110, 42_b64encoder.md R143 to R145). -/

namespace Sys2Proof.Machine

/-- W = WIDTH[15:0] (10_state.md R29). -/
def State.planeW (s : State) : Nat := s.width.toNat

/-- H = HEIGHT[15:0] (10_state.md R30). -/
def State.planeH (s : State) : Nat := s.height.toNat

/-- NB = W·H/8, the length of the packed sequence (41_bitpacker.md R105, R112). -/
def State.packedLen (s : State) : Nat := s.planeW * s.planeH / 8

/-- The address of pixel (x, y): `base + y·W + x` with base SRC (20_memory.md R52). -/
def State.pixelAddr (s : State) (x y : Nat) : Nat := s.src.toNat + y * s.planeW + x

/-- The plane at SRC (20_memory.md R52). -/
def State.plane (s : State) : Plane := fun x y => s.memRead (s.pixelAddr x y)

/-- The address of the k-th packed byte: `DST + k` (20_memory.md R53). -/
def State.packedAddr (s : State) (k : Nat) : Nat := s.dst.toNat + k

/-- L = LENGTH (10_state.md R31). -/
def State.inputLen (s : State) : Nat := s.length.toNat

/-- The address of the k-th input byte of ENCODE: `SRC + k` (42_b64encoder.md R145). -/
def State.inputAddr (s : State) (k : Nat) : Nat := s.src.toNat + k

/-- The input bytes of ENCODE, `[MemRead(SRC + k, 1) for k in 0 .. L−1]` (42_b64encoder.md R145). -/
def State.inputBytes (s : State) : List Byte := (List.range s.inputLen).map fun k => s.memRead (s.inputAddr k)

/-- The address of the next character: `DST + ENC_COUNT`, on unbounded integers (42_b64encoder.md R131). -/
def State.charAddr (s : State) : Nat := s.dst.toNat + s.encCount.toNat

/-- PlaneCheck(withDst): the first check that fails, if one does, in the order of 41_bitpacker.md R110. -/
def State.planeCheck (s : State) (withDst : Bool) : Option Err :=
  let n := s.planeW * s.planeH
  if s.planeW % 8 ≠ 0 ∨ s.planeH % 8 ≠ 0 then some .dim
  else if ¬s.InRange s.src.toNat n then some .range
  else if withDst ∧ ¬s.InRange s.dst.toNat (n / 8) then some .range
  else if withDst ∧ Overlap s.src.toNat n s.dst.toNat (n / 8) then some .overlap
  else none

/-- The acceptance checks of ENCODE, in the order of 42_b64encoder.md R145. -/
def State.encodeCheck (s : State) : Option Err :=
  let n := s.inputLen
  let nc := encLength n
  if ¬s.InRange s.src.toNat n then some .range
  else if ¬s.InRange s.dst.toNat nc then some .range
  else if Overlap s.src.toNat n s.dst.toNat nc then some .overlap
  else none

/-- nout of EBYTE: 2 if PHASE = 2 else 1 (42_b64encoder.md R143). -/
def State.ebyteOut (s : State) : Nat := if s.phase = 2 then 2 else 1

/-- nout of EFLUSH: 0 if PHASE = 0 else 1 (42_b64encoder.md R144). -/
def State.eflushOut (s : State) : Nat := if s.phase = 0 then 0 else 1

end Sys2Proof.Machine
end

