-- ==== Sys2Proof/Machine/BitPacker.lean ====
section
/-! DEFINITION. The Bit-Packer family: PACK and ASCAN, their acceptance (41_bitpacker.md R105, R107) and their
micro-steps (R106, R108). -/

namespace Sys2Proof.Machine

/-- An accepted PACK: PK_COUNT <- 0; TSX, TSY, TR <- 0; OP <- PACK (41_bitpacker.md R105). DONE <- 0 is the
dispatch's. -/
def State.startPack (s : State) : State := { s with pkCount := 0, tsx := 0, tsy := 0, tr := 0, op := .pack }

/-- An accepted ASCAN: ALPHA_PRESENT <- 0; AJ <- 0; OP <- ASCAN (41_bitpacker.md R107). -/
def State.startAscan (s : State) : State := { s with alphaPresent := false, aj := 0, op := .ascan }

/-- PACK (41_bitpacker.md R105): PlaneCheck with the destination, then the start of the command. -/
def execPack (s : State) : Result :=
  .next (s.dispatch fun u =>
    match u.planeCheck true with
    | some e => u.raise e
    | none => u.startPack)

/-- ASCAN (41_bitpacker.md R107): PlaneCheck without a destination, then the start of the command. -/
def execAscan (s : State) : Result :=
  .next (s.dispatch fun u =>
    match u.planeCheck false with
    | some e => u.raise e
    | none => u.startAscan)

/-- The byte of the tile row at (TSX, TSY + TR): lane i thresholds pixel (TSX + 7 − i, y) (41_bitpacker.md R106). -/
def State.tileRowByte (s : State) : Byte :=
  packBits fun i => threshold (s.plane (s.tsx + 7 - i) (s.tsy + s.tr))

/-- The traverser after one tile row: TR <- TR + 1, then the next tile of the row, then the next row of tiles
(41_bitpacker.md R106). -/
def State.advanceTile (s : State) : State :=
  if s.tr + 1 = 8 then
    if s.tsx + 8 = s.planeW then { s with tr := 0, tsx := 0, tsy := s.tsy + 8 }
    else { s with tr := 0, tsx := s.tsx + 8 }
  else { s with tr := s.tr + 1 }

/-- The eight pixels read and the byte written by a PACK micro-step lie in the buffer memory. -/
abbrev State.PackAccessOk (s : State) : Prop :=
  s.pixelAddr (s.tsx + 7) (s.tsy + s.tr) < s.memBytes ∧ s.packedAddr s.pkCount.toNat < s.memBytes

/-- PACK micro-step (41_bitpacker.md R106): one tile row, or completion. -/
def packStep (s : State) : Result :=
  if s.pkCount.toNat < s.packedLen then
    if s.PackAccessOk then
      let stored := s.memWrite (s.packedAddr s.pkCount.toNat) s.tileRowByte
      .next (State.advanceTile { stored with pkCount := stored.pkCount + 1 })
    else .fault .engineOutOfRange
  else .next s.complete

/-- ASCAN micro-step (41_bitpacker.md R108): one pixel, or completion. -/
def ascanStep (s : State) : Result :=
  if s.aj < s.planeW * s.planeH then
    if s.src.toNat + s.aj < s.memBytes then
      .next { s with
        alphaPresent := s.alphaPresent || decide (s.memRead (s.src.toNat + s.aj) ≠ 0xFF#8)
        aj := s.aj + 1 }
    else .fault .engineOutOfRange
  else .next s.complete

end Sys2Proof.Machine
end

