-- ==== Sys2Proof/Machine/Control.lean ====
section
/-! DEFINITION. The control family: NOP and SRST (43_control.md R170, R171). -/

namespace Sys2Proof.Machine

/-- The effect of SRST (43_control.md R171): OP <- IDLE, STATUS <- 0x00000002, every counter and the whole internal
state to 0; SRC, DST, WIDTH, HEIGHT, LENGTH and the buffer memory unchanged. -/
def State.softReset (s : State) : State :=
  { s with
    op := .idle, done := true, alphaPresent := false, errCmd := false, errDim := false, errRange := false,
    errOverlap := false, errBusy := false, pkCount := 0, encCount := 0, phase := 0, leftover := 0, tsx := 0,
    tsy := 0, tr := 0, aj := 0, ek := 0 }

/-- NOP (43_control.md R170): no state changes except the DONE handling of the dispatch. -/
def execNop (s : State) : Result := .next (s.dispatchSingle id)

/-- SRST (43_control.md R171): accepted busy or idle (R172). -/
def execSrst (s : State) : Result := .next s.softReset

end Sys2Proof.Machine
end

