-- ==== Sys2Proof/Machine/Encoder.lean ====
section
/-! DEFINITION. The base64-variant encoder family: EINIT, EBYTE, EFLUSH and ENCODE (42_b64encoder.md R142 to R145)
and the ENCODE micro-step (R146). -/

namespace Sys2Proof.Machine

/-- emit(c): MemWrite(DST + ENC_COUNT, 1, code(c)); ENC_COUNT <- ENC_COUNT + 1 (42_b64encoder.md R131). -/
def State.emit (s : State) (c : Index) : State :=
  let stored := s.memWrite s.charAddr (charCode c)
  { stored with encCount := stored.encCount + 1 }

/-- Characters through emit, in the order listed (42_b64encoder.md R131). -/
def State.emitAll (s : State) (out : List Index) : State := out.foldl State.emit s

/-- PHASE <- p; LEFTOVER <- lo. -/
def State.setStream (s : State) (p : Fin 3) (lo : Index) : State := { s with phase := p, leftover := lo }

/-- One byte into the stream: EncStep, its characters through emit, the new PHASE and LEFTOVER
(42_b64encoder.md R143, R146). -/
def State.feedByte (s : State) (b : Byte) : State :=
  let r := encStep s.phase s.leftover b
  (s.emitAll r.1).setStream r.2.1 r.2.2

/-- The end of the stream: the tail through emit, PHASE and LEFTOVER to 0 (42_b64encoder.md R144, R146). -/
def State.flushStream (s : State) : State := (s.emitAll (encTail s.phase s.leftover)).setStream 0 0

/-- EINIT (42_b64encoder.md R142): PHASE <- 0; LEFTOVER <- 0; ENC_COUNT <- 0. -/
def execEinit (s : State) : Result :=
  .next (s.dispatchSingle fun u => { u with phase := 0, leftover := 0, encCount := 0 })

/-- EBYTE #b (42_b64encoder.md R143): the range check of its characters, then one byte into the stream. -/
def execEbyte (b : Byte) (s : State) : Result :=
  .next (s.dispatchSingle fun u => if u.InRange u.charAddr u.ebyteOut then u.feedByte b else u.raise .range)

/-- EFLUSH (42_b64encoder.md R144): the range check only where a tail character is due, then the end of the
stream. -/
def execEflush (s : State) : Result :=
  .next (s.dispatchSingle fun u =>
    if 0 < u.eflushOut ∧ ¬u.InRange u.charAddr 1 then u.raise .range else u.flushStream)

/-- An accepted ENCODE: ENC_COUNT, PHASE, LEFTOVER, EK <- 0; OP <- ENCODE (42_b64encoder.md R145). -/
def State.startEncode (s : State) : State :=
  { s with encCount := 0, phase := 0, leftover := 0, ek := 0, op := .encode }

/-- ENCODE (42_b64encoder.md R145): the region checks, then the start of the command. -/
def execEncode (s : State) : Result :=
  .next (s.dispatch fun u =>
    match u.encodeCheck with
    | some e => u.raise e
    | none => u.startEncode)

/-- ENCODE micro-step (42_b64encoder.md R146): one input byte, or the flush and completion. -/
def encodeStep (s : State) : Result :=
  if s.ek.toNat < s.inputLen then
    if s.inputAddr s.ek.toNat < s.memBytes ∧ s.InRange s.charAddr s.ebyteOut then
      let fed := s.feedByte (s.memRead (s.inputAddr s.ek.toNat))
      .next { fed with ek := fed.ek + 1 }
    else .fault .engineOutOfRange
  else if s.eflushOut = 0 ∨ s.InRange s.charAddr s.eflushOut then .next s.flushStream.complete
  else .fault .engineOutOfRange

end Sys2Proof.Machine
end

