-- ==== Sys2Proof/Machine/Dispatch.lean ====
section
/-! DEFINITION. The meaning of a command word the host has written to CMD: one arm per constructor of Instr, one
direct call each (43_control.md R172). -/

namespace Sys2Proof.Machine

def exec (i : Instr) (s : State) : Host.Outcome State Fault Refusal :=
  match i with
  | .nop => Sys2Proof.Machine.execNop s
  | .srst => Sys2Proof.Machine.execSrst s
  | .pack => Sys2Proof.Machine.execPack s
  | .ascan => Sys2Proof.Machine.execAscan s
  | .einit => Sys2Proof.Machine.execEinit s
  | .ebyte imm => Sys2Proof.Machine.execEbyte imm s
  | .eflush => Sys2Proof.Machine.execEflush s
  | .encode => Sys2Proof.Machine.execEncode s

end Sys2Proof.Machine
end

