-- ==== Sys2Proof/Machine/Engine.lean ====
section
/-! DEFINITION. The engine agent (10_state.md R20, R35): its one enabled micro-step, by OP. -/

namespace Sys2Proof.Machine

/-- The micro-step of the command OP; "It has no step when OP = IDLE" (10_state.md R35): a turn given to the idle
engine leaves the block as it is (60_exceptions.md R191). -/
def engineStep (s : State) : Result :=
  match s.op with
  | .idle => .next s
  | .pack => packStep s
  | .ascan => ascanStep s
  | .encode => encodeStep s

end Sys2Proof.Machine
end

