-- ==== Sys2Proof/Machine/Flags.lean ====
section
/-! DEFINITION. The two words software reads that are views of stored fields, STATUS (10_state.md R26) and
ENC_STATE (R34), and the write-1-to-clear of STATUS. -/

namespace Sys2Proof.Machine

/-- One flag at its bit of a register word. -/
def flagAt (b : Bool) (i : Nat) : Word := (BitVec.ofBool b).setWidth 32 <<< i

/-- STATUS as it reads: BUSY, DONE, ALPHA_PRESENT, ERR_CMD, ERR_DIM, ERR_RANGE, ERR_OVERLAP, ERR_BUSY in bits 0 to
7, bits 31:8 zero (10_state.md R26). -/
def State.statusWord (s : State) : Word :=
  flagAt s.busy 0 ||| flagAt s.done 1 ||| flagAt s.alphaPresent 2 ||| flagAt s.errCmd 3 ||| flagAt s.errDim 4
    ||| flagAt s.errRange 5 ||| flagAt s.errOverlap 6 ||| flagAt s.errBusy 7

/-- A host write to STATUS: "clears every W1C field whose bit is 1 in v"; DONE and the error flags are W1C, BUSY,
ALPHA_PRESENT and the reserved bits are RO (10_state.md R26). -/
def State.clearStatus (s : State) (v : Word) : State :=
  { s with
    done := s.done && !v.getLsbD 1
    errCmd := s.errCmd && !v.getLsbD 3
    errDim := s.errDim && !v.getLsbD 4
    errRange := s.errRange && !v.getLsbD 5
    errOverlap := s.errOverlap && !v.getLsbD 6
    errBusy := s.errBusy && !v.getLsbD 7 }

/-- ENC_STATE as it reads: PHASE in bits 1:0, LEFTOVER in bits 13:8, the rest zero (10_state.md R34). -/
def State.encStateWord (s : State) : Word :=
  BitVec.ofNat 32 s.phase.val ||| (s.leftover.setWidth 32 <<< 8)

/-- The flag of a cause. -/
def State.errFlag (s : State) (e : Err) : Bool :=
  match e with
  | .cmd => s.errCmd
  | .dim => s.errDim
  | .range => s.errRange
  | .overlap => s.errOverlap
  | .busy => s.errBusy

/-- The cause's code, its STATUS bit number (60_exceptions.md R181). -/
def Err.code (e : Err) : Nat :=
  match e with
  | .cmd => 3
  | .dim => 4
  | .range => 5
  | .overlap => 6
  | .busy => 7

end Sys2Proof.Machine
end

