-- ==== Sys2Proof/Machine/HostPort.lean ====
section
/-! DEFINITION. The host agent: the register port (10_state.md R23, R41 to R44) with the command write
(43_control.md R172), the memory port (20_memory.md R59), the host's actions (30_encoding.md R76) and pseudo-actions
(R77), and whose turn it is (20_memory.md R61). -/

namespace Sys2Proof.Machine

/-- The constant of the ID register (10_state.md R24). -/
def blockId : Word := 0x50444331#32

/-- The register map: which register stands at a byte offset of the window. None at an offset that is no multiple
of 4, and none at the reserved offsets 0x2C to 0x3C (10_state.md R23, R41, R42). -/
def regAt (off : RegOffset) : Option Reg :=
  if off = 0x00#6 then some .id
  else if off = 0x04#6 then some .cmd
  else if off = 0x08#6 then some .status
  else if off = 0x0C#6 then some .src
  else if off = 0x10#6 then some .dst
  else if off = 0x14#6 then some .width
  else if off = 0x18#6 then some .height
  else if off = 0x1C#6 then some .length
  else if off = 0x20#6 then some .pkCount
  else if off = 0x24#6 then some .encCount
  else if off = 0x28#6 then some .encState
  else none

/-- The offset of each register (10_state.md R23). -/
def Reg.offset (r : Reg) : RegOffset :=
  match r with
  | .id => 0x00
  | .cmd => 0x04
  | .status => 0x08
  | .src => 0x0C
  | .dst => 0x10
  | .width => 0x14
  | .height => 0x18
  | .length => 0x1C
  | .pkCount => 0x20
  | .encCount => 0x24
  | .encState => 0x28

/-- The register an access reaches: only a whole word at a word-aligned offset reaches one (10_state.md R41). A
narrower or misaligned write "does nothing", busy or not (DEDUCED, log 8). -/
def regAccessed (size : AccessSize) (off : RegOffset) : Option Reg :=
  if size = .word then regAt off else none

/-- The value a register reads as (10_state.md R24 to R34): CMD and the reserved bits read 0, ID is a constant,
STATUS and ENC_STATE are views. -/
def State.regValue (s : State) (r : Reg) : Word :=
  match r with
  | .id => blockId
  | .cmd => 0
  | .status => s.statusWord
  | .src => s.src
  | .dst => s.dst
  | .width => s.width.setWidth 32
  | .height => s.height.setWidth 32
  | .length => s.length
  | .pkCount => s.pkCount
  | .encCount => s.encCount
  | .encState => s.encStateWord

/-- What a register-port read returns: the register's current value, busy or not, and 0 where no register is
reached (10_state.md R41, R42, R44). -/
def State.regRead (s : State) (size : AccessSize) (off : RegOffset) : Word :=
  match regAccessed size off with
  | some r => s.regValue r
  | none => 0

/-- A host write of the word w to CMD (43_control.md R172, 10_state.md R43). A reserved word raises ERR_CMD when
idle and is ignored with ERR_BUSY while busy; a command goes to `exec`, which holds the busy rule of each. -/
def cmdWrite (w : Word) (s : State) : Result :=
  match decode w with
  | .ok i => exec i s
  | .error _ => .next (if s.busy then s.setErr .busy else s.raise .cmd)

/-- A write to a configuration register: ignored with ERR_BUSY while busy (10_state.md R43). -/
def State.configWrite (s : State) (store : State → State) : State := if s.busy then s.setErr .busy else store s

/-- A host write of a word to a register (10_state.md R24 to R34, R42, R43). -/
def regStore (r : Reg) (v : Word) (s : State) : Result :=
  match r with
  | .id => .next s
  | .cmd => cmdWrite v s
  | .status => .next (s.clearStatus v)
  | .src => .next (s.configWrite fun u => { u with src := v })
  | .dst => .next (s.configWrite fun u => { u with dst := v })
  | .width => .next (s.configWrite fun u => { u with width := v.setWidth 16 })
  | .height => .next (s.configWrite fun u => { u with height := v.setWidth 16 })
  | .length => .next (s.configWrite fun u => { u with length := v })
  | .pkCount => .next s
  | .encCount => .next s
  | .encState => .next s

/-- A register-port write: nothing where no register is reached (10_state.md R41, R42). -/
def regWrite (size : AccessSize) (off : RegOffset) (v : Word) (s : State) : Result :=
  match regAccessed size off with
  | some r => regStore r v s
  | none => .next s

/-- A memory-port write: dropped with ERR_BUSY while busy, stored when idle; an address outside the block is
refused (20_memory.md R59, 93_implementation_defined.md U9; log 6). -/
def memPortWrite (a : Nat) (b : Byte) (s : State) : Result :=
  if a < s.memBytes then .next (if s.busy then s.setErr .busy else s.memWrite a b)
  else .refused .hostOutsideBlock

/-- A memory-port read: the byte's current value, busy or not; an address outside the block is refused
(20_memory.md R59, 93_implementation_defined.md U9; log 6). -/
def memPortRead (a : Nat) (s : State) : Result :=
  if a < s.memBytes then .next { s with hostRead := some (.byte (s.memRead a)) }
  else .refused .hostOutsideBlock

/-- One poll of WAIT: STATUS is read, and the host stays at the WAIT while BUSY = 1 (30_encoding.md R77). -/
def waitPoll (s : State) : State :=
  { s with
    hostRead := some (.word s.statusWord)
    program := if s.busy then .wait :: s.program else s.program }

/-- One action of the host, one atomic step (30_encoding.md R76, 20_memory.md R61). -/
def hostAct (a : HostAction) (s : State) : Result :=
  match a with
  | .regWrite size off v => regWrite size off v s
  | .regRead size off => .next { s with hostRead := some (.word (s.regRead size off)) }
  | .memWrite addr b => memPortWrite addr b s
  | .memRead addr => memPortRead addr s
  | .wait => .next (waitPoll s)

/-- The host takes its next action, in its own program order (10_state.md R22); a host with nothing to do leaves
the block as it is. -/
def hostStep (s : State) : Result :=
  match s.program with
  | [] => .next s
  | a :: rest => hostAct a { s with program := rest }

/-- Who moves now: the head of the schedule, and once it is used up the engine whenever it has a step, else the
host (20_memory.md R61, 70_reset_and_hazards.md R209; DESIGN CHOICE, log 3). -/
def State.turn (s : State) : Turn :=
  match s.schedule with
  | t :: _ => t
  | [] => if s.busy then .engine else .host

/-- The turn is taken off the schedule. -/
def State.takeTurn (s : State) : State := { s with schedule := s.schedule.tail }

/-- The action by which the host issues the command word w (30_encoding.md R76, `CMD`). -/
def HostAction.command (w : Word) : HostAction := .regWrite .word Reg.cmd.offset w

/-- The host about to write the word w to CMD as its next action, and the next turn the host's. -/
def State.withCommand (s : State) (w : Word) : State :=
  { s with program := HostAction.command w :: s.program, schedule := .host :: s.schedule }

/-- `WREG <reg>, <value>` (30_encoding.md R76). -/
def wreg (r : Reg) (v : Word) : HostAction := .regWrite .word r.offset v

/-- `RREG <reg>` (30_encoding.md R76). -/
def rreg (r : Reg) : HostAction := .regRead .word r.offset

/-- `CMD <mnemonic> [#imm]` (30_encoding.md R76). -/
def cmd (i : Instr) : HostAction := HostAction.command (encode i)

/-- `WMEM <addr>, <b0> <b1> ...`: host byte writes at addr, addr+1, ... (30_encoding.md R76). -/
def wmem (addr : Nat) (bytes : List Byte) : List HostAction :=
  match bytes with
  | [] => []
  | b :: rest => .memWrite addr b :: wmem (addr + 1) rest

/-- `RMEM <addr>, <n>`: host byte reads of n bytes from addr (30_encoding.md R76). -/
def rmem (addr n : Nat) : List HostAction := (List.range n).map fun k => .memRead (addr + k)

/-- `CLEAR <v>` expands to `WREG STATUS, <v>` (30_encoding.md R77). -/
def clearFlags (v : Word) : HostAction := wreg .status v

/-- `PACKP <src>, <dst>, <w>, <h>` (30_encoding.md R77). -/
def packp (src dst w h : Word) : List HostAction :=
  [wreg .src src, wreg .dst dst, wreg .width w, wreg .height h, cmd .pack, .wait]

/-- `ENC <src>, <dst>, <len>` (30_encoding.md R77). -/
def encp (src dst len : Word) : List HostAction :=
  [wreg .src src, wreg .dst dst, wreg .length len, cmd .encode, .wait]

end Sys2Proof.Machine
end

