-- ==== Sys2Proof/Machine/Step.lean ====
section
/-! DEFINITION. One step of the machine: the agent whose turn it is takes its one atomic step (20_memory.md R61). -/

namespace Sys2Proof.Machine

/-- One step of the total order of all agents' steps. -/
def step (s : State) : Host.Outcome State Fault Refusal :=
  match s.turn with
  | .host => hostStep s.takeTurn
  | .engine => engineStep s.takeTurn
  | .hardReset => .next s.takeTurn.hardReset

/-- The block fetches no instructions (10_state.md R22): a command comes to run by a host write to CMD. So the
instruction is placed as the host's next action, a write of its word to CMD, and the next turn is the host's
(log 4). -/
def State.withFetchWord (s : State) (nbits w : Nat) : State :=
  s.withCommand (BitVec.ofNat 32 (w % 2 ^ nbits))

end Sys2Proof.Machine
end

