-- ==== Sys2Proof/Safety.lean ====
section
/-! DEFINITION. What counts as a safe run, in the terms the statements use: a well-formed host program, the
invariant of the block, and a run during which one command stays in progress. -/

namespace Sys2Proof.Machine

/-- A host action is well-formed when its memory-port access lies inside the block: "a host program that issues one
is ill-formed" (93_implementation_defined.md U9, 20_memory.md R59). -/
abbrev HostAction.WellFormed (n : Nat) (a : HostAction) : Prop :=
  match a with
  | .regWrite _ _ _ => True
  | .regRead _ _ => True
  | .memWrite addr _ => addr < n
  | .memRead addr => addr < n
  | .wait => True

/-- Everything the host still has to do is well-formed. -/
abbrev State.HostWellFormed (s : State) : Prop := ∀ a ∈ s.program, a.WellFormed s.memBytes

/-- A PACK in progress: its checks passed, and the traverser stands where PK_COUNT says (10_state.md R36). -/
structure State.PackRunning (s : State) : Prop where
  checked : s.planeCheck true = none
  row : s.tr < 8
  tileX : s.tsx % 8 = 0
  tileY : s.tsy % 8 = 0
  inRow : 0 < s.planeW → s.tsx < s.planeW
  counted : s.pkCount.toNat ≤ s.packedLen
  position : s.pkCount.toNat = (s.tsy / 8 * (s.planeW / 8) + s.tsx / 8) * 8 + s.tr

/-- An ASCAN in progress: AJ counts pixels, 0 to W·H (10_state.md R37). -/
structure State.AscanRunning (s : State) : Prop where
  checked : s.planeCheck false = none
  counted : s.aj ≤ s.planeW * s.planeH

/-- An ENCODE in progress: EK bytes are consumed, PHASE is EK mod 3, and every byte has written one character and
every third one more (10_state.md R38, 42_b64encoder.md R146). -/
structure State.EncodeRunning (s : State) : Prop where
  checked : s.encodeCheck = none
  counted : s.ek.toNat ≤ s.inputLen
  phaseOf : s.phase.val = s.ek.toNat % 3
  written : s.encCount.toNat = s.ek.toNat + s.ek.toNat / 3

/-- The invariant of the block: MEM_BYTES is legal (00_scope.md R9), the memory is in canonical form and lists only
addresses that exist (20_memory.md R50), LEFTOVER < 4^PHASE (42_b64encoder.md R136), ENC_COUNT has not passed
MEM_BYTES (10_state.md R33), and a command in progress stands where its counters say. -/
structure State.Inv (s : State) : Prop where
  memSize : Config.MemBytesOk s.memBytes
  memForm : Memory.wf s.memBytes s.mem
  leftoverBound : s.leftover.toNat < 4 ^ s.phase.val
  encCountBound : s.encCount.toNat ≤ s.memBytes
  packRun : s.op = .pack → s.PackRunning
  ascanRun : s.op = .ascan → s.AscanRunning
  encodeRun : s.op = .encode → s.EncodeRunning

/-- n steps lead from s to t, and the command `o` is in progress in every state before t. So no SRST and no hardware
reset stands among the first n − 1 steps, while the host and the engine move in any order. -/
def RunsUnder (o : Op) (n : Nat) (s t : State) : Prop :=
  Sys2Proof.core.run n s = .next t ∧ ∀ m, m < n → ∃ u, Sys2Proof.core.run m s = .next u ∧ u.op = o

end Sys2Proof.Machine
end

