-- ==== Sys2Proof/Certificates/Slice0/Obligations.lean ====
section
/-! DEFINITION. The statements for the provers. Each docstring names the rules of spec/ it formalises. "stated" in
OBLIGATIONS.json means that the Lean says all the rules it cites say; where a clause rests on a choice of the model,
the docstring names its log entry. The spec marks some of its own rules as derived from others ([derived: ...]):
statements of those have basis 'derived'. -/

open Sys2Proof Sys2Proof.Machine

/-! ### Encoding -/

/-- Words written out from the table decode to the commands they stand for (30_encoding.md section 2, R72 rows; the
EBYTE words are those of 95_test_vectors.md V68 and V71). -/
def Obligations.TableWordsDecode : Prop :=
  decode 0x00000000#32 = .ok .nop ∧ decode 0x00000001#32 = .ok .srst ∧ decode 0x00000010#32 = .ok .pack ∧
  decode 0x00000011#32 = .ok .ascan ∧ decode 0x00000020#32 = .ok .einit ∧
  decode 0x00004D21#32 = .ok (.ebyte 0x4D#8) ∧ decode 0x0000FF21#32 = .ok (.ebyte 0xFF#8) ∧
  decode 0x00000022#32 = .ok .eflush ∧ decode 0x00000023#32 = .ok .encode ∧
  decodeTableWord 32 0x4D21 = some (.ebyte 0x4D#8)

/-- Decoder and encoder are inverse to each other on all 2^32 words and all instructions, every immediate included
(30_encoding.md sections 1 to 4). -/
def Obligations.DecodeEncodeAgree : Prop :=
  ∀ (w : Word) (i : Instr), decode w = .ok i ↔ encode i = w

/-- The opcode map: a word is a command exactly when its bits under the row's mask are the row's match; EBYTE's operand
is w[15:8] as is; PACK, ASCAN and ENCODE are the multi-step commands (30_encoding.md R71, R72). -/
def Obligations.OpcodeMapSelects : Prop :=
  ∀ w : Word,
    (decode w = .ok .nop ↔ w &&& 0xFFFFFFFF#32 = 0x00000000#32) ∧
    (decode w = .ok .srst ↔ w &&& 0xFFFFFFFF#32 = 0x00000001#32) ∧
    (decode w = .ok .pack ↔ w &&& 0xFFFFFFFF#32 = 0x00000010#32) ∧
    (decode w = .ok .ascan ↔ w &&& 0xFFFFFFFF#32 = 0x00000011#32) ∧
    (decode w = .ok .einit ↔ w &&& 0xFFFFFFFF#32 = 0x00000020#32) ∧
    ((∃ b, decode w = .ok (.ebyte b)) ↔ w &&& 0xFFFF00FF#32 = 0x00000021#32) ∧
    (decode w = .ok .eflush ↔ w &&& 0xFFFFFFFF#32 = 0x00000022#32) ∧
    (decode w = .ok .encode ↔ w &&& 0xFFFFFFFF#32 = 0x00000023#32) ∧
    (∀ b, decode w = .ok (.ebyte b) → b = w.extractLsb' 8 8) ∧
    (∀ i, decode w = .ok i → (i.multiStep = true ↔ i = .pack ∨ i = .ascan ∨ i = .encode))

/-- Reserved words: a word is reserved exactly on the three grounds, then an idle block raises ERR_CMD and changes
nothing else, and a busy one ignores it with ERR_BUSY (30_encoding.md R73). -/
def Obligations.ReservedWordsRaiseErrCmd : Prop :=
  ∀ (w : Word) (s : State),
    let opc := w.extractLsb' 0 8
    let reserved := opc ∉ [0x00#8, 0x01#8, 0x10#8, 0x11#8, 0x20#8, 0x21#8, 0x22#8, 0x23#8] ∨
      w.extractLsb' 16 16 ≠ 0 ∨ (w.extractLsb' 8 8 ≠ 0 ∧ opc ≠ 0x21#8)
    (reserved ↔ ∀ i, decode w ≠ .ok i) ∧
    (reserved → s.op = .idle → regWrite .word 0x04 w s = .next { s with errCmd := true, done := true }) ∧
    (reserved → s.op ≠ .idle → regWrite .word 0x04 w s = .next { s with errBusy := true })

/-- The assembler: EBYTE takes an immediate 0 to 255 and assembles to 0x21 | (imm << 8), every other mnemonic takes
none and assembles to its match value (30_encoding.md section 4, R75, for a line already split into mnemonic and
number; the spelling is log 22). -/
def Obligations.AssemblerGivesTheWords : Prop :=
  (∀ n, n ≤ 255 → ∃ i, assemble ⟨"EBYTE", some n⟩ = .ok i ∧
    encode i = 0x00000021#32 ||| (BitVec.ofNat 32 n <<< 8)) ∧
  (∀ n, 255 < n → assemble ⟨"EBYTE", some n⟩ = .error .immediateOutOfRange) ∧
  (∀ p ∈ [("NOP", 0x00000000#32), ("SRST", 0x00000001#32), ("PACK", 0x00000010#32), ("ASCAN", 0x00000011#32),
      ("EINIT", 0x00000020#32), ("EFLUSH", 0x00000022#32), ("ENCODE", 0x00000023#32)],
    (∃ i, assemble ⟨p.1, none⟩ = .ok i ∧ encode i = p.2) ∧
      ∀ n, assemble ⟨p.1, some n⟩ = .error .unexpectedOperand)

/-! ### Steps and reset -/

/-- A step runs the decoded instruction: where the host's turn has come and its next action is a word write of w at
the offset of CMD, and w decodes to i, the step is exec of i, the action taken off the host's program and the turn off
the schedule (43_control.md section 1; 10_state.md section 3). And so for the word `withFetchWord` places. The host's
program and the schedule are the model's (log 3, log 4). -/
def Obligations.StepRunsTheWrittenCommand : Prop :=
  (∀ (s : State) (w : Word) (i : Instr) (rest : List HostAction), s.turn = .host →
    s.program = .regWrite .word 0x04 w :: rest → decode w = .ok i →
    step s = exec i { s with program := rest, schedule := s.schedule.tail }) ∧
  (∀ (s : State) (w : Nat) (i : Instr), decodeTableWord 32 w = some i → step (s.withFetchWord 32 w) = exec i s)

/-- Each step is the whole step of one agent: the head of the schedule moves; with no turn fixed, the engine while a
command is in progress and else the host; an engine with OP = IDLE has no step, and a host with nothing to do takes
none (10_state.md sections 1 and 4; 20_memory.md section 6; the schedule is the model's, log 3 and log 5). -/
def Obligations.StepIsOneAgentsTurn : Prop :=
  ∀ (s : State) (rest : List Turn),
    (s.schedule = .engine :: rest → step s = engineStep { s with schedule := rest }) ∧
    (s.schedule = .host :: rest → step s = hostStep { s with schedule := rest }) ∧
    (s.schedule = [] → s.op ≠ .idle → step s = engineStep s) ∧
    (s.schedule = [] → s.op = .idle → step s = hostStep s) ∧
    (s.op = .idle → engineStep s = .next s) ∧
    (s.program = [] → hostStep s = .next s)

/-- The values after reset: ID 0x50444331, every other register reads 0, OP is IDLE, the internal state is 0, and no
byte of the buffer memory has a value of its own (10_state.md R40), for every MEM_BYTES. -/
def Obligations.PowerOnValues : Prop :=
  ∀ n : Nat,
    let s := State.powerOn n
    s.regValue .id = 0x50444331#32 ∧ (∀ r, r ≠ .id → s.regValue r = 0) ∧ s.statusWord = 0 ∧
    s.op = .idle ∧ s.tsx = 0 ∧ s.tsy = 0 ∧ s.tr = 0 ∧ s.aj = 0 ∧ s.ek = 0 ∧ s.phase = 0 ∧ s.leftover = 0 ∧
    (∀ a, Memory.lookup s.mem a = none)

/-- Hardware reset, at any time: every register and all internal state take their reset values, whatever command was
in progress; the block is idle (70_reset_and_hazards.md section 1; 10_state.md section 5). Two clauses are the model's
(log 10): that a later reset keeps the buffer memory, DEDUCED where 10_state.md and 20_memory.md say unspecified, and
that the host's program, the later turns and the last value read stay. -/
def Obligations.HardResetAnyTime : Prop :=
  ∀ (s : State) (rest : List Turn), s.schedule = .hardReset :: rest →
    ∃ t, step s = .next t ∧
      t = { State.powerOn s.memBytes with
        mem := s.mem, program := s.program, schedule := rest, hostRead := s.hostRead } ∧
      t.busy = false ∧ ∀ a, t.memRead a = s.memRead a

/-- An unwritten byte is a free value: after power-on every read gives it, whatever it is, and neither reset writes
the memory (20_memory.md section 5, R60; that the free value is one per address is the model's, log 1, and that a
later hardware reset keeps the memory is log 10, DEDUCED). -/
def Obligations.UnwrittenBytesAreFree : Prop :=
  (∀ n a, (State.powerOn n).memRead a = Config.powerOnByte a) ∧
  (∀ (s : State) a, s.hardReset.memRead a = s.memRead a ∧ s.softReset.memRead a = s.memRead a)

/-! ### The register port and the memory port -/

/-- The host may read any register at any time: the read returns the register's current value and changes nothing
else (10_state.md R44). -/
def Obligations.RegisterReadsReturnTheValue : Prop :=
  (∀ (s : State) (size : AccessSize) (off : RegOffset),
    hostAct (.regRead size off) s = .next { s with hostRead := some (.word (s.regRead size off)) }) ∧
  (∀ s : State,
    s.regRead .word 0x00 = 0x50444331#32 ∧ s.regRead .word 0x04 = 0 ∧ s.regRead .word 0x0C = s.src ∧
    s.regRead .word 0x10 = s.dst ∧ (s.regRead .word 0x14).toNat = s.width.toNat ∧
    (s.regRead .word 0x18).toNat = s.height.toNat ∧ s.regRead .word 0x1C = s.length ∧
    s.regRead .word 0x20 = s.pkCount ∧ s.regRead .word 0x24 = s.encCount ∧
    s.regRead .word 0x08 = s.statusWord ∧ s.regRead .word 0x28 = s.encStateWord)

/-- STATUS as it reads, bit by bit (10_state.md section 3, R26; BUSY by R35). -/
def Obligations.StatusReadsBitByBit : Prop :=
  ∀ s : State,
    let v := s.regRead .word 0x08
    v.getLsbD 0 = decide (s.op ≠ .idle) ∧ v.getLsbD 1 = s.done ∧ v.getLsbD 2 = s.alphaPresent ∧
    v.getLsbD 3 = s.errCmd ∧ v.getLsbD 4 = s.errDim ∧ v.getLsbD 5 = s.errRange ∧ v.getLsbD 6 = s.errOverlap ∧
    v.getLsbD 7 = s.errBusy ∧ ∀ i, 8 ≤ i → v.getLsbD i = false

/-- A host write of v to STATUS, busy or not, clears every W1C field whose bit is 1 in v and leaves everything else:
the other fields of STATUS, and all other state (10_state.md section 3, R26). -/
def Obligations.StatusWriteOneToClear : Prop :=
  ∀ (s : State) (v : Word), ∃ t, regWrite .word 0x08 v s = .next t ∧
    (∀ i ∈ [1, 3, 4, 5, 6, 7], t.statusWord.getLsbD i = (s.statusWord.getLsbD i && !v.getLsbD i)) ∧
    (∀ i, i ∉ [1, 3, 4, 5, 6, 7] → t.statusWord.getLsbD i = s.statusWord.getLsbD i) ∧
    t = { s with
      done := t.done, errCmd := t.errCmd, errDim := t.errDim, errRange := t.errRange, errOverlap := t.errOverlap,
      errBusy := t.errBusy }

/-- ENC_STATE: PHASE in bits 1:0, never 3, LEFTOVER in bits 13:8, the rest 0; host writes are ignored
(10_state.md R34). -/
def Obligations.EncStateReadsPhaseAndLeftover : Prop :=
  ∀ (s : State) (v : Word),
    let r := s.regRead .word 0x28
    (r.extractLsb' 0 2).toNat = s.phase.val ∧ (r.extractLsb' 0 2).toNat ≠ 3 ∧ r.extractLsb' 2 6 = 0 ∧
    r.extractLsb' 8 6 = s.leftover ∧ r.extractLsb' 14 18 = 0 ∧ regWrite .word 0x28 v s = .next s

/-- An idle block stores a configuration register: all 32 bits of SRC, DST and LENGTH, bits 15:0 of WIDTH and HEIGHT,
and it reads back so; nothing else changes (10_state.md section 3, R27 to R31). -/
def Obligations.ConfigWritesStoreWhenIdle : Prop :=
  ∀ (s : State) (v : Word), s.op = .idle →
    regWrite .word 0x0C v s = .next { s with src := v } ∧
    regWrite .word 0x10 v s = .next { s with dst := v } ∧
    regWrite .word 0x14 v s = .next { s with width := v.extractLsb' 0 16 } ∧
    regWrite .word 0x18 v s = .next { s with height := v.extractLsb' 0 16 } ∧
    regWrite .word 0x1C v s = .next { s with length := v } ∧
    (∀ t, regWrite .word 0x14 v s = .next t → t.regRead .word 0x14 = v &&& 0x0000FFFF#32) ∧
    (∀ t, regWrite .word 0x18 v s = .next t → t.regRead .word 0x18 = v &&& 0x0000FFFF#32)

/-- While busy: a write to a configuration register, or to CMD of any word but 0x00000001, is ignored and sets
ERR_BUSY; 0x00000001 aborts; STATUS writes are accepted; read-only and reserved offsets ignore writes without error
(10_state.md R43). -/
def Obligations.BusyWritesAreIgnored : Prop :=
  ∀ (s : State) (v : Word), s.op ≠ .idle →
    (∀ off ∈ [0x0C#6, 0x10#6, 0x14#6, 0x18#6, 0x1C#6],
      regWrite .word off v s = .next { s with errBusy := true }) ∧
    (v ≠ 0x00000001#32 → regWrite .word 0x04 v s = .next { s with errBusy := true }) ∧
    (∃ t, regWrite .word 0x04 0x00000001#32 s = .next t ∧ t.op = .idle ∧ t.errBusy = false ∧ t.done = true) ∧
    (∃ t, regWrite .word 0x08 v s = .next t ∧ t.errBusy = (s.errBusy && !v.getLsbD 7) ∧ t.op = s.op) ∧
    (∀ off ∈ [0x00#6, 0x20#6, 0x24#6, 0x28#6, 0x2C#6, 0x30#6, 0x34#6, 0x38#6, 0x3C#6],
      regWrite .word off v s = .next s)

/-- A narrower or misaligned access does nothing and reads 0; reserved offsets and reserved fields read 0 and ignore
writes, and read-only registers ignore writes, without error, busy or not (10_state.md section 6). That a narrow or
misaligned write sets no ERR_BUSY on a busy block either is the model's reading (log 8, DEDUCED). -/
def Obligations.UnreachedAccessesDoNothing : Prop :=
  ∀ (s : State) (size : AccessSize) (off : RegOffset) (v : Word),
    (size ≠ .word ∨ off.toNat % 4 ≠ 0 → regWrite size off v s = .next s ∧ s.regRead size off = 0) ∧
    (0x2C ≤ off.toNat → regWrite size off v s = .next s ∧ s.regRead size off = 0) ∧
    (∀ ro ∈ [0x00#6, 0x20#6, 0x24#6, 0x28#6], regWrite size ro v s = .next s) ∧
    (∀ i, 16 ≤ i → (s.regRead .word 0x14).getLsbD i = false ∧ (s.regRead .word 0x18).getLsbD i = false) ∧
    (∀ i, 8 ≤ i → (s.regRead .word 0x08).getLsbD i = false) ∧
    (∀ i, (2 ≤ i ∧ i < 8) ∨ 14 ≤ i → (s.regRead .word 0x28).getLsbD i = false) ∧
    regWrite .word 0x14 v s = regWrite .word 0x14 (v &&& 0x0000FFFF#32) s ∧
    regWrite .word 0x18 v s = regWrite .word 0x18 (v &&& 0x0000FFFF#32) s ∧
    regWrite .word 0x08 v s = regWrite .word 0x08 (v &&& 0x000000FF#32) s

/-- The host memory port at an address of the buffer memory: an idle block stores the byte and leaves every other
byte and all registers, a busy one drops it with ERR_BUSY, and a read returns the current value and changes nothing
(20_memory.md R59). -/
def Obligations.HostMemoryPort : Prop :=
  ∀ (s : State) (a : Nat) (b : Byte), a < s.memBytes →
    (s.op = .idle → ∃ t, hostAct (.memWrite a b) s = .next t ∧ t = { s with mem := t.mem } ∧ t.memRead a = b ∧
      ∀ a', a' ≠ a → t.memRead a' = s.memRead a') ∧
    (s.op ≠ .idle → hostAct (.memWrite a b) s = .next { s with errBusy := true }) ∧
    hostAct (.memRead a) s = .next { s with hostRead := some (.byte (s.memRead a)) }

/-- The model's choice (log 6): a host memory-port access at an address ≥ MEM_BYTES is refused by name
(93_implementation_defined.md U9, treatment `refuse`; 20_memory.md section 5). -/
def Obligations.AccessOutsideTheBlockIsRefused : Prop :=
  ∀ (s : State) (a : Nat) (b : Byte), s.memBytes ≤ a →
    hostAct (.memWrite a b) s = .refused .hostOutsideBlock ∧ hostAct (.memRead a) s = .refused .hostOutsideBlock

/-- One poll of WAIT: it returns STATUS, and the host stays at the WAIT exactly while BUSY = 1 (30_encoding.md
section 4, R77; one poll a step is the model's, log 16). -/
def Obligations.WaitPollsStatus : Prop :=
  ∀ (s : State) (rest : List HostAction), s.program = .wait :: rest →
    ∃ t, hostStep s = .next t ∧ t.hostRead = some (.word s.statusWord) ∧
      (s.op ≠ .idle → t.program = .wait :: rest) ∧ (s.op = .idle → t.program = rest) ∧
      t = { s with hostRead := t.hostRead, program := t.program }

/-! ### Errors -/

/-- An error is precise: the command that raises one leaves the state as it was before the CMD write, except for the
flag and DONE = 1; ERR_BUSY leaves DONE alone; no error arises after a command is accepted (60_exceptions.md R182). -/
def Obligations.ErrorsArePrecise : Prop :=
  (∀ (s : State) (e : Err), (s.raise e).errFlag e = true ∧ (s.raise e).done = true ∧
    (∀ e', e' ≠ e → (s.raise e).errFlag e' = s.errFlag e') ∧
    s.raise e = { s with
      done := true, errCmd := (s.raise e).errCmd, errDim := (s.raise e).errDim, errRange := (s.raise e).errRange,
      errOverlap := (s.raise e).errOverlap, errBusy := (s.raise e).errBusy }) ∧
  (∀ (i : Instr) (s t : State) (e : Err), s.op = .idle → exec i s = .next t → s.errFlag e = false →
    t.errFlag e = true → t = s.raise e) ∧
  (∀ (i : Instr) (s : State), s.op ≠ .idle → i ≠ .srst → exec i s = .next { s with errBusy := true }) ∧
  (∀ (s t : State) (e : Err), engineStep s = .next t → t.errFlag e = s.errFlag e)

/-- One error per command, the first check that fails: ERR_BUSY before all, ERR_CMD for a reserved word, then
ERR_DIM, then ERR_RANGE for the source or the destination region, then ERR_OVERLAP (60_exceptions.md R183). The
conditions are those of 41_bitpacker.md R110 and 42_b64encoder.md R143 to R145. -/
def Obligations.OneErrorInOrder : Prop :=
  (∀ (s : State) (w : Word), s.op ≠ .idle → w ≠ 0x00000001#32 →
    regWrite .word 0x04 w s = .next { s with errBusy := true }) ∧
  (∀ (s : State) (w : Word), s.op = .idle → (∀ i, decode w ≠ .ok i) →
    regWrite .word 0x04 w s = .next { s with errCmd := true, done := true }) ∧
  (∀ s : State, s.op = .idle →
    let w := s.width.toNat
    let h := s.height.toNat
    let src := s.src.toNat
    let dst := s.dst.toNat
    (w % 8 ≠ 0 ∨ h % 8 ≠ 0 →
      exec .pack s = .next { s with errDim := true, done := true } ∧
      exec .ascan s = .next { s with errDim := true, done := true }) ∧
    (w % 8 = 0 → h % 8 = 0 →
      (s.memBytes < src + w * h → exec .pack s = .next { s with errRange := true, done := true } ∧
        exec .ascan s = .next { s with errRange := true, done := true }) ∧
      (src + w * h ≤ s.memBytes → s.memBytes < dst + w * h / 8 →
        exec .pack s = .next { s with errRange := true, done := true }) ∧
      (src + w * h ≤ s.memBytes → dst + w * h / 8 ≤ s.memBytes → Overlap src (w * h) dst (w * h / 8) →
        exec .pack s = .next { s with errOverlap := true, done := true }))) ∧
  (∀ s : State, s.op = .idle →
    let n := s.length.toNat
    let src := s.src.toNat
    let dst := s.dst.toNat
    (s.memBytes < src + n ∨ s.memBytes < dst + encLength n →
      exec .encode s = .next { s with errRange := true, done := true }) ∧
    (src + n ≤ s.memBytes → dst + encLength n ≤ s.memBytes → Overlap src n dst (encLength n) →
      exec .encode s = .next { s with errOverlap := true, done := true }))

/-! ### Commands -/

/-- NOP: idle, DONE = 1 and nothing else; busy, ignored with ERR_BUSY; its word is 0x00000000 exactly, and any other
word with OPC = 0x00 raises ERR_CMD (43_control.md R170). -/
def Obligations.NopOnlySetsDone : Prop :=
  (∀ s : State, s.op = .idle → exec .nop s = .next { s with done := true }) ∧
  (∀ s : State, s.op ≠ .idle → exec .nop s = .next { s with errBusy := true }) ∧
  (∀ w : Word, decode w = .ok .nop ↔ w = 0x00000000#32) ∧
  (∀ (s : State) (w : Word), s.op = .idle → w.extractLsb' 0 8 = 0x00#8 → w ≠ 0x00000000#32 →
    regWrite .word 0x04 w s = .next { s with errCmd := true, done := true })

/-- SRST, busy or idle: OP IDLE, STATUS 0x00000002, the counters and the internal state 0; SRC, DST, WIDTH, HEIGHT,
LENGTH and the buffer memory unchanged; its word is 0x00000001 exactly (43_control.md R171). -/
def Obligations.SrstResetsTheEngine : Prop :=
  (∀ s : State, ∃ t, exec .srst s = .next t ∧ t.statusWord = 0x00000002#32 ∧
    t = { s with
      op := .idle, done := true, alphaPresent := false, errCmd := false, errDim := false, errRange := false,
      errOverlap := false, errBusy := false, pkCount := 0, encCount := 0, phase := 0, leftover := 0, tsx := 0,
      tsy := 0, tr := 0, aj := 0, ek := 0 } ∧
    ∀ a, t.memRead a = s.memRead a) ∧
  (∀ w : Word, decode w = .ok .srst ↔ w = 0x00000001#32)

/-- Dispatch: while busy every command but SRST is ignored with ERR_BUSY and DONE left alone; an idle block ends the
write with DONE = 1 exactly when no command was started, and only a multi-step command starts one (43_control.md
section 1, R172). -/
def Obligations.DispatchDoneAndBusy : Prop :=
  (∀ (i : Instr) (s : State), i ≠ .srst → s.op ≠ .idle → exec i s = .next { s with errBusy := true }) ∧
  (∀ (i : Instr) (s : State), s.op = .idle → ∃ t, exec i s = .next t ∧ (t.done = true ↔ t.op = .idle) ∧
    (t.op ≠ .idle → i.multiStep = true) ∧ (t.errBusy = true → s.errBusy = true))

/-- PACK, ASCAN and ENCODE start when their checks pass: DONE 0, their counters and positions 0, OP set, and nothing
else changes, no byte of memory among it (41_bitpacker.md sections 2 to 4, R105, R107, R110; 42_b64encoder.md
section 3, R145). -/
def Obligations.MultiStepCommandsStart : Prop :=
  ∀ s : State, s.op = .idle →
    let wh := s.width.toNat * s.height.toNat
    (s.width.toNat % 8 = 0 → s.height.toNat % 8 = 0 → s.src.toNat + wh ≤ s.memBytes →
      exec .ascan s = .next { s with done := false, alphaPresent := false, aj := 0, op := .ascan } ∧
      (s.dst.toNat + wh / 8 ≤ s.memBytes → ¬Overlap s.src.toNat wh s.dst.toNat (wh / 8) →
        exec .pack s = .next { s with done := false, pkCount := 0, tsx := 0, tsy := 0, tr := 0, op := .pack })) ∧
    (s.src.toNat + s.length.toNat ≤ s.memBytes → s.dst.toNat + encLength s.length.toNat ≤ s.memBytes →
      ¬Overlap s.src.toNat s.length.toNat s.dst.toNat (encLength s.length.toNat) →
      exec .encode s = .next { s with
        done := false, encCount := 0, phase := 0, leftover := 0, ek := 0, op := .encode })

/-- EINIT: PHASE, LEFTOVER and ENC_COUNT 0, DONE 1, nothing else, no byte of memory; twice in a row is once; its word
is 0x00000020 (42_b64encoder.md R142). -/
def Obligations.EinitStartsAStream : Prop :=
  (∀ s : State, s.op = .idle →
    exec .einit s = .next { s with phase := 0, leftover := 0, encCount := 0, done := true } ∧
    ∀ t, exec .einit s = .next t → exec .einit t = .next t) ∧
  (∀ w : Word, decode w = .ok .einit ↔ w = 0x00000020#32)

/-- EBYTE #b: where its characters fit, those of EncStep are written from DST + ENC_COUNT on, ENC_COUNT counts them,
PHASE and LEFTOVER move on, DONE is 1, and nothing else changes; where they do not fit, ERR_RANGE and nothing written
(42_b64encoder.md R143). The bound on MEM_BYTES is 00_scope.md R9. -/
def Obligations.EbyteFeedsOneByte : Prop :=
  (∀ (w : Word) (b : Byte), decode w = .ok (.ebyte b) ↔ w = 0x00000021#32 ||| (b.setWidth 32 <<< 8)) ∧
  ∀ (s : State) (b : Byte), s.op = .idle →
    let nout := if s.phase = 2 then 2 else 1
    let at0 := s.dst.toNat + s.encCount.toNat
    (Config.MemBytesOk s.memBytes → at0 + nout ≤ s.memBytes →
      ∃ t, exec (.ebyte b) s = .next t ∧
        t = { s with
          mem := t.mem, done := true, encCount := s.encCount + BitVec.ofNat 32 nout,
          phase := (encStep s.phase s.leftover b).2.1, leftover := (encStep s.phase s.leftover b).2.2 } ∧
        (encStep s.phase s.leftover b).1.length = nout ∧
        (∀ j c, (encStep s.phase s.leftover b).1[j]? = some c → t.memRead (at0 + j) = charCode c) ∧
        ∀ a, a < at0 ∨ at0 + nout ≤ a → t.memRead a = s.memRead a) ∧
    (s.memBytes < at0 + nout → exec (.ebyte b) s = .next { s with errRange := true, done := true })

/-- EFLUSH: at PHASE 0 nothing is written and no range is checked; else the leftover's character is written at
DST + ENC_COUNT, or ERR_RANGE where it does not fit; PHASE and LEFTOVER 0, ENC_COUNT goes on counting
(42_b64encoder.md R144). -/
def Obligations.EflushEndsTheStream : Prop :=
  (∀ w : Word, decode w = .ok .eflush ↔ w = 0x00000022#32) ∧
  ∀ s : State, s.op = .idle →
    let at0 := s.dst.toNat + s.encCount.toNat
    (s.phase = 0 → exec .eflush s = .next { s with done := true, phase := 0, leftover := 0 }) ∧
    (s.phase ≠ 0 → at0 < s.memBytes →
      ∃ t, exec .eflush s = .next t ∧
        t = { s with mem := t.mem, done := true, encCount := s.encCount + 1, phase := 0, leftover := 0 } ∧
        t.memRead at0 = charCode s.leftover ∧ ∀ a, a ≠ at0 → t.memRead a = s.memRead a) ∧
    (s.phase ≠ 0 → s.memBytes ≤ at0 → exec .eflush s = .next { s with errRange := true, done := true }) ∧
    (∀ t u, exec .eflush s = .next t → exec .eflush t = .next u → u = t)

/-! ### Micro-steps -/

/-- PACK micro-step (41_bitpacker.md R106): while PK_COUNT < NB, bit i of the byte stored at DST + PK_COUNT is the
threshold of pixel (TSX + 7 − i, TSY + TR), PK_COUNT counts it, the traverser moves on, and nothing else changes; at
PK_COUNT = NB, the completion. The pixels and the byte lie in the buffer memory, as R110 ensures at acceptance. -/
def Obligations.PackMicroStep : Prop :=
  ∀ s : State, s.op = .pack →
    let w := s.width.toNat
    let y := s.tsy + s.tr
    let row := s.src.toNat + y * w + s.tsx
    let out := s.dst.toNat + s.pkCount.toNat
    (s.pkCount.toNat < w * s.height.toNat / 8 → row + 7 < s.memBytes → out < s.memBytes →
      ∃ t, engineStep s = .next t ∧
        (∀ i, i < 8 → (t.memRead out).getLsbD i = decide (127 ≤ (s.memRead (row + 7 - i)).toNat)) ∧
        (∀ a, a ≠ out → t.memRead a = s.memRead a) ∧
        (s.tr + 1 ≠ 8 → t.tr = s.tr + 1 ∧ t.tsx = s.tsx ∧ t.tsy = s.tsy) ∧
        (s.tr + 1 = 8 → s.tsx + 8 ≠ w → t.tr = 0 ∧ t.tsx = s.tsx + 8 ∧ t.tsy = s.tsy) ∧
        (s.tr + 1 = 8 → s.tsx + 8 = w → t.tr = 0 ∧ t.tsx = 0 ∧ t.tsy = s.tsy + 8) ∧
        t = { s with mem := t.mem, pkCount := s.pkCount + 1, tr := t.tr, tsx := t.tsx, tsy := t.tsy }) ∧
    (w * s.height.toNat / 8 ≤ s.pkCount.toNat → engineStep s = .next { s with op := .idle, done := true })

/-- ASCAN micro-step (41_bitpacker.md R108): while AJ < W·H, ALPHA_PRESENT <- 1 where the byte at SRC + AJ is not
0xFF, and AJ counts it; then the completion; nothing else changes, no byte of memory. -/
def Obligations.AscanMicroStep : Prop :=
  ∀ s : State, s.op = .ascan →
    let n := s.width.toNat * s.height.toNat
    (s.aj < n → s.src.toNat + s.aj < s.memBytes →
      engineStep s = .next { s with
        alphaPresent := s.alphaPresent || decide (s.memRead (s.src.toNat + s.aj) ≠ 0xFF#8), aj := s.aj + 1 }) ∧
    (n ≤ s.aj → engineStep s = .next { s with op := .idle, done := true })

/-- ENCODE micro-step (42_b64encoder.md R146): while EK < L, the byte at SRC + EK goes through EncStep and its
characters are written from DST + ENC_COUNT on; then the flush writes the tail character where one is due, PHASE and
LEFTOVER become 0, and the command completes. The accesses lie in the buffer memory, as R145 ensures at acceptance. -/
def Obligations.EncodeMicroStep : Prop :=
  ∀ s : State, s.op = .encode → Config.MemBytesOk s.memBytes →
    let b := s.memRead (s.src.toNat + s.ek.toNat)
    let nout := if s.phase = 2 then 2 else 1
    let at0 := s.dst.toNat + s.encCount.toNat
    (s.ek.toNat < s.length.toNat → s.src.toNat + s.ek.toNat < s.memBytes → at0 + nout ≤ s.memBytes →
      ∃ t, engineStep s = .next t ∧
        t = { s with
          mem := t.mem, encCount := s.encCount + BitVec.ofNat 32 nout, ek := s.ek + 1,
          phase := (encStep s.phase s.leftover b).2.1, leftover := (encStep s.phase s.leftover b).2.2 } ∧
        (∀ j c, (encStep s.phase s.leftover b).1[j]? = some c → t.memRead (at0 + j) = charCode c) ∧
        ∀ a, a < at0 ∨ at0 + nout ≤ a → t.memRead a = s.memRead a) ∧
    (s.length.toNat ≤ s.ek.toNat → s.phase = 0 →
      engineStep s = .next { s with op := .idle, done := true, leftover := 0 }) ∧
    (s.length.toNat ≤ s.ek.toNat → s.phase ≠ 0 → at0 < s.memBytes →
      ∃ t, engineStep s = .next t ∧
        t = { s with
          mem := t.mem, op := .idle, done := true, encCount := s.encCount + 1, phase := 0, leftover := 0 } ∧
        t.memRead at0 = charCode s.leftover ∧ ∀ a, a ≠ at0 → t.memRead a = s.memRead a)

/-! ### The pure functions -/

/-- The threshold is inclusive at 127, and unsigned (41_bitpacker.md R100). -/
def Obligations.ThresholdAt127 : Prop :=
  (∀ p : Byte, threshold p = true ↔ 127 ≤ p.toNat) ∧
  threshold 126#8 = false ∧ threshold 127#8 = true ∧ threshold 255#8 = true

/-- The traversal visits every pixel of the plane exactly once, W·H of them, and the i-th visited pixel is column
7 − i mod 8 of row (i div 8) mod 8 of tile i div 64, tiles in row-major order (41_bitpacker.md section 1, R101). -/
def Obligations.TraversalVisitsEveryPixelOnce : Prop :=
  ∀ w h : Nat, w % 8 = 0 → h % 8 = 0 →
    (visitOrder w h).length = w * h ∧ (visitOrder w h).Nodup ∧
    (∀ x y, (x, y) ∈ visitOrder w h ↔ x < w ∧ y < h) ∧
    ∀ i, i < w * h → (visitOrder w h)[i]? =
      some (8 * (i / 64 % (w / 8)) + 7 - i % 8, 8 * (i / 64 / (w / 8)) + i / 8 % 8)

/-- The packed sequence, defined by the traversal, is its closed form (41_bitpacker.md section 1, R103, which the
spec marks as derived from R101 and R102). -/
def Obligations.PackedPlaneClosedForm : Prop :=
  ∀ (p : Plane) (w h : Nat), w % 8 = 0 → h % 8 = 0 →
    packPlane p w h = (List.range (w * h / 8)).map (packedByte p w)

/-- Unpacking the packed plane gives back the thresholded bitmap (41_bitpacker.md section 1, R111, which the spec
marks as derived). -/
def Obligations.UnpackInvertsPack : Prop :=
  ∀ (p : Plane) (w h x y : Nat), w % 8 = 0 → h % 8 = 0 → x < w → y < h →
    unpack (packPlane p w h) w x y = threshold (p x y)

/-- The alphabet's codes by range, all distinct, and `=` never among them (42_b64encoder.md R130). -/
def Obligations.AlphabetCodes : Prop :=
  (∀ c : Index,
    (c.toNat ≤ 25 → (charCode c).toNat = 0x41 + c.toNat) ∧
    (26 ≤ c.toNat → c.toNat ≤ 51 → (charCode c).toNat = 0x61 + (c.toNat - 26)) ∧
    (52 ≤ c.toNat → c.toNat ≤ 61 → (charCode c).toNat = 0x30 + (c.toNat - 52)) ∧
    (c.toNat = 62 → charCode c = 0x2B#8) ∧ (c.toNat = 63 → charCode c = 0x2F#8) ∧ charCode c ≠ 0x3D#8) ∧
  (∀ c d : Index, charCode c = charCode d → c = d)

/-- EncStep in arithmetic: at phase p the byte's quotient by 4^(p+1), above the old leftover, is one character; its
remainder is the new leftover, or at phase 2 a second character. So the OR of the two parts is their sum
(42_b64encoder.md section 2, R134 and R135; the spec marks the disjointness as derived). -/
def Obligations.EncStepArithmetic : Prop :=
  ∀ (p : Fin 3) (lo : Index) (b : Byte), lo.toNat < 4 ^ p.val →
    let q := b.toNat / 4 ^ (p.val + 1) * 4 ^ p.val + lo.toNat
    let r := b.toNat % 4 ^ (p.val + 1)
    (encStep p lo b).2.1.val = (p.val + 1) % 3 ∧
    (p.val < 2 → (encStep p lo b).1.map BitVec.toNat = [q] ∧ (encStep p lo b).2.2.toNat = r) ∧
    (p.val = 2 → (encStep p lo b).1.map BitVec.toNat = [q, r] ∧ (encStep p lo b).2.2 = 0)

/-- The length of an encoding is f(N), which is ceil(4·N / 3) (42_b64encoder.md section 2, R140, which the spec marks
as derived). -/
def Obligations.EncodedLength : Prop :=
  (∀ bytes : List Byte, (enc bytes).length = encLength bytes.length) ∧
  (∀ n, encLength n = n + n / 3 + (if n % 3 ≠ 0 then 1 else 0) ∧ encLength n = (4 * n + 2) / 3)

/-- Groups of three bytes encode independently to four characters, and a tail of one or two bytes to two or three
(42_b64encoder.md section 2, R139, which the spec marks as derived). -/
def Obligations.EncodingByGroups : Prop :=
  (∀ (b0 b1 b2 : Byte) (rest : List Byte), enc (b0 :: b1 :: b2 :: rest) =
    b0.extractLsb' 2 6 :: (b1.extractLsb' 4 4 ++ b0.extractLsb' 0 2) :: (b2.extractLsb' 6 2 ++ b1.extractLsb' 0 4) ::
      b2.extractLsb' 0 6 :: enc rest) ∧
  (∀ b0 : Byte, enc [b0] = [b0.extractLsb' 2 6, (b0.extractLsb' 0 2).setWidth 6]) ∧
  (∀ b0 b1 : Byte, enc [b0, b1] =
    [b0.extractLsb' 2 6, b1.extractLsb' 4 4 ++ b0.extractLsb' 0 2, (b1.extractLsb' 0 4).setWidth 6]) ∧
  enc [] = []

/-- Decoding an encoding gives back the bytes (42_b64encoder.md section 2, R147, which the spec marks as derived). -/
def Obligations.DecInvertsEnc : Prop :=
  ∀ bytes : List Byte, dec (enc bytes) = some bytes

/-- Two different byte sequences of one length never encode alike, and the last character of an unfinished group is
among the first 4 or the first 16 of the alphabet (42_b64encoder.md section 2, R141, which the spec marks as
derived). -/
def Obligations.EncodingInjectiveWithShortTail : Prop :=
  (∀ b c : List Byte, b.length = c.length → enc b = enc c → b = c) ∧
  (∀ (b : List Byte) (last : Index), (enc b).getLast? = some last →
    (b.length % 3 = 1 → last.toNat < 4) ∧ (b.length % 3 = 2 → last.toNat < 16))

/-! ### Invariants and whole-machine rules -/

/-- Every step keeps the invariant: the memory's canonical form, MEM_BYTES, LEFTOVER < 4^PHASE, ENC_COUNT, and the
place where a command in progress stands (10_state.md sections 3 and 4, R33, R36 to R38; 42_b64encoder.md section 2,
R136; 20_memory.md section 1). MEM_BYTES itself never changes. -/
def Obligations.StepKeepsInvariant : Prop :=
  ∀ s t : State, s.Inv → step s = .next t → t.Inv ∧ t.memBytes = s.memBytes

/-- The block after power-on meets the invariant, for every legal MEM_BYTES (00_scope.md section 4, R9; 10_state.md
section 5). -/
def Obligations.PowerOnMeetsInvariant : Prop :=
  (∀ n, Config.MemBytesOk n → (State.powerOn n).Inv) ∧ State.reset.Inv

/-- No step from a state that meets the invariant faults: no engine micro-step accesses an address outside the buffer
memory, because acceptance has placed every region in range, and "The block itself never faults, hangs or stops"
(60_exceptions.md section 1, R180; 42_b64encoder.md section 3, R146). The fault is the model's (log 11). -/
def Obligations.NoStepFaults : Prop :=
  ∀ (s : State) (f : Fault), s.Inv → step s ≠ .fault f

/-- With a well-formed host program every step answers a next state, and the program stays well-formed
(60_exceptions.md section 1, R180; the only refusal is the model's, log 6). -/
def Obligations.WellFormedHostIsNeverStopped : Prop :=
  ∀ s : State, s.Inv → s.HostWellFormed → ∃ t, step s = .next t ∧ t.Inv ∧ t.HostWellFormed

/-- While a command is in progress, a turn of the host other than a write of 0x00000001 to CMD leaves the command, its
inputs, its counters, the encoder state, ALPHA_PRESENT and every byte of memory: only DONE and the error flags, and
the host's own program, schedule and last read may change (00_scope.md section 5, R14; 10_state.md section 6;
20_memory.md section 5). -/
def Obligations.HostTurnKeepsTheCommand : Prop :=
  ∀ s t : State, s.turn = .host → s.op ≠ .idle → s.program.head? ≠ some (.regWrite .word 0x04 0x00000001#32) →
    step s = .next t →
    t = { s with
      done := t.done, errCmd := t.errCmd, errDim := t.errDim, errRange := t.errRange, errOverlap := t.errOverlap,
      errBusy := t.errBusy, program := t.program, schedule := t.schedule, hostRead := t.hostRead } ∧
    (∀ a, t.memRead a = s.memRead a)

/-- Who writes PK_COUNT and ALPHA_PRESENT: only the engine in a PACK (an ASCAN), the command PACK (ASCAN), SRST and
hardware reset (10_state.md section 3, R26, R32). -/
def Obligations.PackerStateWriters : Prop :=
  ∀ s t : State, step s = .next t →
    (t.pkCount ≠ s.pkCount → (s.turn = .engine ∧ s.op = .pack) ∨ s.turn = .hardReset ∨
      (s.turn = .host ∧ ∃ i, (i = .pack ∨ i = .srst) ∧ s.program.head? = some (.regWrite .word 0x04 (encode i)))) ∧
    (t.alphaPresent ≠ s.alphaPresent → (s.turn = .engine ∧ s.op = .ascan) ∨ s.turn = .hardReset ∨
      (s.turn = .host ∧ ∃ i, (i = .ascan ∨ i = .srst) ∧ s.program.head? = some (.regWrite .word 0x04 (encode i))))

/-- Who writes the encoder state: only the engine in an ENCODE, the encoder commands, SRST and hardware reset write
PHASE, LEFTOVER and ENC_COUNT; PACK and ASCAN never do (10_state.md sections 3 and 4, R33, R38). -/
def Obligations.EncoderStateWriters : Prop :=
  ∀ s t : State, step s = .next t →
    (t.phase ≠ s.phase ∨ t.leftover ≠ s.leftover ∨ t.encCount ≠ s.encCount) →
    (s.turn = .engine ∧ s.op = .encode) ∨ s.turn = .hardReset ∨
      (s.turn = .host ∧ ∃ i, i ≠ .nop ∧ i ≠ .pack ∧ i ≠ .ascan ∧
        s.program.head? = some (.regWrite .word 0x04 (encode i)))

/-- A set error flag is cleared only by a W1C write to STATUS with its bit, by SRST and by hardware reset; DONE only
by those and by the start of a command (60_exceptions.md section 1, R184; 10_state.md section 3, R26). -/
def Obligations.FlagsAreSticky : Prop :=
  ∀ s t : State, step s = .next t →
    (∀ e, s.errFlag e = true → t.errFlag e = false → s.turn = .hardReset ∨
      (s.turn = .host ∧ (s.program.head? = some (.regWrite .word 0x04 0x00000001#32) ∨
        ∃ v : Word, s.program.head? = some (.regWrite .word 0x08 v) ∧ v.getLsbD e.code = true))) ∧
    (s.done = true → t.done = false → s.turn = .hardReset ∨
      (s.turn = .host ∧ ((s.op = .idle ∧ t.op ≠ .idle) ∨
        ∃ v : Word, s.program.head? = some (.regWrite .word 0x08 v) ∧ v.getLsbD 1 = true)))

/-- Who writes a configuration register: only a host word write at one of their offsets to an idle block, and
hardware reset; so a running command's operands are held constant (10_state.md section 6, R43; 41_bitpacker.md
section 3, R105). -/
def Obligations.ConfigWriters : Prop :=
  ∀ s t : State, step s = .next t →
    (t.src ≠ s.src ∨ t.dst ≠ s.dst ∨ t.width ≠ s.width ∨ t.height ≠ s.height ∨ t.length ≠ s.length) →
    s.turn = .hardReset ∨ (s.turn = .host ∧ s.op = .idle ∧ ∃ (r : Reg) (v : Word),
      (r = .src ∨ r = .dst ∨ r = .width ∨ r = .height ∨ r = .length) ∧
        s.program.head? = some (.regWrite .word r.offset v))

/-- Who writes a byte of the buffer memory: only the engine in a PACK or an ENCODE, and, while idle, the host's
memory port at that very address, EBYTE and EFLUSH (20_memory.md sections 3 and 5, R56, R59, R60; that hardware reset
is no writer is the model's reading, log 10, DEDUCED). -/
def Obligations.MemoryWriters : Prop :=
  ∀ (s t : State) (a : Nat), step s = .next t → t.memRead a ≠ s.memRead a →
    (s.turn = .engine ∧ (s.op = .pack ∨ s.op = .encode)) ∨
    (s.turn = .host ∧ s.op = .idle ∧
      ((∃ b, s.program.head? = some (.memWrite a b)) ∨
       (∃ b, s.program.head? = some (.regWrite .word 0x04 (encode (.ebyte b)))) ∨
       s.program.head? = some (.regWrite .word 0x04 (encode .eflush))))

/-! ### Whole commands, under every interleaving -/

/-- A PACK that no reset aborts ends in the state its command rule gives, however the host's and the engine's turns
interleave: the packed sequence of the plane at SRC stands at DST, PK_COUNT = NB, DONE = 1, and no other byte and no
register of the encoder has changed (41_bitpacker.md section 3, R105; 00_scope.md section 5, R14; the whole effect is
what the spec marks as derived). -/
def Obligations.PackWritesThePackedPlane : Prop :=
  ∀ (s₀ s u t : State) (n : Nat), s₀.op = .idle → exec .pack s₀ = .next s → s.op = .pack →
    RunsUnder .pack n s u → u.op = .pack → u.turn = .engine → step u = .next t → t.op = .idle →
    let w := s₀.width.toNat
    let h := s₀.height.toNat
    let nb := w * h / 8
    t.done = true ∧ t.pkCount.toNat = nb ∧
    (∀ k, k < nb → some (t.memRead (s₀.dst.toNat + k)) = (packPlane s₀.plane w h)[k]?) ∧
    (∀ a, a < s₀.dst.toNat ∨ s₀.dst.toNat + nb ≤ a → t.memRead a = s₀.memRead a) ∧
    t.src = s₀.src ∧ t.dst = s₀.dst ∧ t.width = s₀.width ∧ t.height = s₀.height ∧ t.length = s₀.length ∧
    t.alphaPresent = s₀.alphaPresent ∧ t.encCount = s₀.encCount ∧ t.phase = s₀.phase ∧ t.leftover = s₀.leftover

/-- An ASCAN that no reset aborts ends with ALPHA_PRESENT = 1 exactly when some pixel of the plane at SRC is not
0xFF, under every interleaving, and writes no byte (41_bitpacker.md section 4, R107; the whole effect is what the
spec marks as derived). -/
def Obligations.AscanFindsANonOpaquePixel : Prop :=
  ∀ (s₀ s u t : State) (n : Nat), s₀.op = .idle → exec .ascan s₀ = .next s → s.op = .ascan →
    RunsUnder .ascan n s u → u.op = .ascan → u.turn = .engine → step u = .next t → t.op = .idle →
    let w := s₀.width.toNat
    (t.alphaPresent = true ↔
      ∃ x y, x < w ∧ y < s₀.height.toNat ∧ s₀.memRead (s₀.src.toNat + y * w + x) ≠ 0xFF#8) ∧
    t.done = true ∧ (∀ a, t.memRead a = s₀.memRead a) ∧ t.pkCount = s₀.pkCount ∧ t.encCount = s₀.encCount ∧
    t.phase = s₀.phase ∧ t.leftover = s₀.leftover

/-- An ENCODE that no reset aborts ends with the encoding of the bytes at SRC standing at DST, ENC_COUNT = f(L),
PHASE = LEFTOVER = 0 and DONE = 1, under every interleaving, and no other byte changed (42_b64encoder.md section 3,
R145; the whole effect is what the spec marks as derived). -/
def Obligations.EncodeWritesTheEncoding : Prop :=
  ∀ (s₀ s u t : State) (n : Nat), Config.MemBytesOk s₀.memBytes → s₀.op = .idle → exec .encode s₀ = .next s →
    s.op = .encode → RunsUnder .encode n s u → u.op = .encode → u.turn = .engine → step u = .next t → t.op = .idle →
    let l := s₀.length.toNat
    let bytes := (List.range l).map fun k => s₀.memRead (s₀.src.toNat + k)
    t.encCount.toNat = encLength l ∧ t.phase = 0 ∧ t.leftover = 0 ∧ t.done = true ∧
    (∀ j c, (enc bytes)[j]? = some c → t.memRead (s₀.dst.toNat + j) = charCode c) ∧
    (∀ a, a < s₀.dst.toNat ∨ s₀.dst.toNat + encLength l ≤ a → t.memRead a = s₀.memRead a) ∧
    t.pkCount = s₀.pkCount ∧ t.alphaPresent = s₀.alphaPresent

/-- A stream of EBYTE b0 ... b(N−1) followed by EFLUSH, issued by the host to an idle block at the start of a stream,
writes exactly Enc([b0, ..., b(N−1)]) from DST + ENC_COUNT on, counts its characters, and changes nothing else
(90_conflicts.md C9; 42_b64encoder.md section 3, R143, R144; an inference the spec marks as its own). With no turn
fixed, the N + 1 steps are all the host's by the model's choice that an idle block then gives the host the turn
(log 3). -/
def Obligations.ByteStreamWritesTheEncoding : Prop :=
  ∀ (s : State) (bytes : List Byte) (rest : List HostAction), s.op = .idle → s.schedule = [] → s.phase = 0 →
    s.leftover = 0 → Config.MemBytesOk s.memBytes →
    s.program = bytes.map (fun b => cmd (.ebyte b)) ++ cmd .eflush :: rest →
    s.charAddr + encLength bytes.length ≤ s.memBytes →
    ∃ t, Sys2Proof.core.run (bytes.length + 1) s = .next t ∧
      t = { s with
        mem := t.mem, done := true, encCount := s.encCount + BitVec.ofNat 32 (encLength bytes.length),
        program := rest } ∧
      (∀ j c, (enc bytes)[j]? = some c → t.memRead (s.charAddr + j) = charCode c) ∧
      ∀ a, a < s.charAddr ∨ s.charAddr + encLength bytes.length ≤ a → t.memRead a = s.memRead a

/-- The micro-step counts: given turns to the engine alone, a started PACK completes at its (NB + 1)-th, an ASCAN at
its (W·H + 1)-th and an ENCODE at its (L + 1)-th, and not before (70_reset_and_hazards.md section 3, R210, which the
spec marks as derived). -/
def Obligations.MicroStepCounts : Prop :=
  ∀ (s₀ s : State) (rest : List Turn), s₀.op = .idle →
    (exec .pack s₀ = .next s → s.op = .pack →
      let n := s₀.width.toNat * s₀.height.toNat / 8 + 1
      s.schedule = List.replicate n .engine ++ rest → ∃ t, RunsUnder .pack n s t ∧ t.op = .idle ∧ t.done = true) ∧
    (exec .ascan s₀ = .next s → s.op = .ascan →
      let n := s₀.width.toNat * s₀.height.toNat + 1
      s.schedule = List.replicate n .engine ++ rest → ∃ t, RunsUnder .ascan n s t ∧ t.op = .idle ∧ t.done = true) ∧
    (exec .encode s₀ = .next s → s.op = .encode → Config.MemBytesOk s₀.memBytes →
      let n := s₀.length.toNat + 1
      s.schedule = List.replicate n .engine ++ rest → ∃ t, RunsUnder .encode n s t ∧ t.op = .idle ∧ t.done = true)

/-- An SRST during PACK leaves a prefix of the packed sequence written, whose length is the number of byte
micro-steps that ran, and the rest of the memory as it was; every length from 0 to NB occurs under some order of
turns (70_reset_and_hazards.md section 2, R208; 43_control.md section 2, R171). -/
def Obligations.AbortedPackLeavesAPrefix : Prop :=
  ∀ (s₀ s : State), s₀.op = .idle → exec .pack s₀ = .next s → s.op = .pack →
    let w := s₀.width.toNat
    let h := s₀.height.toNat
    let nb := w * h / 8
    (∀ (u : State) (n : Nat), RunsUnder .pack n s u → u.op = .pack →
      ∃ k t, k ≤ nb ∧ u.pkCount.toNat = k ∧ exec .srst u = .next t ∧ t.op = .idle ∧ t.pkCount = 0 ∧
        (∀ j, j < k → some (t.memRead (s₀.dst.toNat + j)) = (packPlane s₀.plane w h)[j]?) ∧
        ∀ a, a < s₀.dst.toNat ∨ s₀.dst.toNat + k ≤ a → t.memRead a = s₀.memRead a) ∧
    (∀ k, k ≤ nb → ∃ (turns : List Turn) (u : State),
      RunsUnder .pack k { s with schedule := turns } u ∧ u.op = .pack ∧ u.pkCount.toNat = k)
end

