-- ==== Sys2Proof/Laws/Codec.lean ====
section
/-! SUPPORT. The small lemmas of the pure functions: the bits of a packed byte, and the encoder's step by phase. -/

namespace Sys2Proof.Machine

/-- Bit i of a packed byte is lane i (41_bitpacker.md R103: "No lane depends on another"). -/
@[simp] theorem packBits_getLsbD (lane : Nat → Bool) (i : Nat) :
    (packBits lane).getLsbD i = (decide (i < 8) && lane i) := by
  by_cases h : i < 8
  · have hr : List.range 8 = [0, 1, 2, 3, 4, 5, 6, 7] := rfl
    simp only [packBits, hr, List.foldl_cons, List.foldl_nil]
    interval_cases i <;> simp
  · simp [h, BitVec.getLsbD_of_ge _ i (Nat.not_lt.1 h)]

/-- Two packed bytes with equal lanes are equal. -/
theorem packBits_congr (f g : Nat → Bool) (h : ∀ i, i < 8 → f i = g i) : packBits f = packBits g := by
  apply BitVec.eq_of_getLsbD_eq
  intro i hi
  rw [packBits_getLsbD, packBits_getLsbD, h i hi]

@[simp] theorem length_packPlane (p : Plane) (w h : Nat) : (packPlane p w h).length = w * h / 8 := by
  simp [packPlane]

theorem encStep_phase (p : Fin 3) (lo : Index) (b : Byte) : (encStep p lo b).2.1 = nextPhase p := by
  unfold encStep; split <;> rfl

theorem encStep_zero (lo : Index) (b : Byte) : encStep 0 lo b = ([headIndex 0 lo b], 1, lowPart 0 b) := rfl

theorem encStep_one (lo : Index) (b : Byte) : encStep 1 lo b = ([headIndex 1 lo b], 2, lowPart 1 b) := rfl

theorem encStep_two (lo : Index) (b : Byte) : encStep 2 lo b = ([headIndex 2 lo b, lowPart 2 b], 0, 0) := rfl

@[simp] theorem encFrom_nil (p : Fin 3) (lo : Index) : encFrom p lo [] = encTail p lo := rfl

theorem encFrom_cons (p : Fin 3) (lo : Index) (b : Byte) (rest : List Byte) :
    encFrom p lo (b :: rest) = (encStep p lo b).1 ++ encFrom (encStep p lo b).2.1 (encStep p lo b).2.2 rest := rfl

/-- The leftover of a byte is below 4^(p+1) (42_b64encoder.md R136). -/
theorem lowPart_lt (p : Fin 3) (b : Byte) : (lowPart p b).toNat < 4 ^ (p.val + 1) := by
  revert p b; decide

/-- EncStep keeps `LEFTOVER < 4^PHASE` (42_b64encoder.md R136). -/
theorem encStep_leftover_lt (p : Fin 3) (lo : Index) (b : Byte) :
    (encStep p lo b).2.2.toNat < 4 ^ (encStep p lo b).2.1.val := by
  have h := lowPart_lt p b
  match p with
  | 0 => simpa [encStep_zero] using h
  | 1 => simpa [encStep_one] using h
  | 2 => simp [encStep_two]

end Sys2Proof.Machine
end

