-- ==== Sys2Proof/Laws/State.lean ====
section
/-! SUPPORT. One lemma per field per update of State, so that no later proof unfolds a record update. -/

namespace Sys2Proof.Machine

variable (s : State)

/-! ### memWrite -/

@[simp] theorem State.memWrite_op (a : Nat) (v : Byte) : (s.memWrite a v).op = s.op := rfl
@[simp] theorem State.memWrite_done (a : Nat) (v : Byte) : (s.memWrite a v).done = s.done := rfl
@[simp] theorem State.memWrite_alphaPresent (a : Nat) (v : Byte) : (s.memWrite a v).alphaPresent = s.alphaPresent := rfl
@[simp] theorem State.memWrite_errCmd (a : Nat) (v : Byte) : (s.memWrite a v).errCmd = s.errCmd := rfl
@[simp] theorem State.memWrite_errDim (a : Nat) (v : Byte) : (s.memWrite a v).errDim = s.errDim := rfl
@[simp] theorem State.memWrite_errRange (a : Nat) (v : Byte) : (s.memWrite a v).errRange = s.errRange := rfl
@[simp] theorem State.memWrite_errOverlap (a : Nat) (v : Byte) : (s.memWrite a v).errOverlap = s.errOverlap := rfl
@[simp] theorem State.memWrite_errBusy (a : Nat) (v : Byte) : (s.memWrite a v).errBusy = s.errBusy := rfl
@[simp] theorem State.memWrite_src (a : Nat) (v : Byte) : (s.memWrite a v).src = s.src := rfl
@[simp] theorem State.memWrite_dst (a : Nat) (v : Byte) : (s.memWrite a v).dst = s.dst := rfl
@[simp] theorem State.memWrite_width (a : Nat) (v : Byte) : (s.memWrite a v).width = s.width := rfl
@[simp] theorem State.memWrite_height (a : Nat) (v : Byte) : (s.memWrite a v).height = s.height := rfl
@[simp] theorem State.memWrite_length (a : Nat) (v : Byte) : (s.memWrite a v).length = s.length := rfl
@[simp] theorem State.memWrite_pkCount (a : Nat) (v : Byte) : (s.memWrite a v).pkCount = s.pkCount := rfl
@[simp] theorem State.memWrite_encCount (a : Nat) (v : Byte) : (s.memWrite a v).encCount = s.encCount := rfl
@[simp] theorem State.memWrite_tsx (a : Nat) (v : Byte) : (s.memWrite a v).tsx = s.tsx := rfl
@[simp] theorem State.memWrite_tsy (a : Nat) (v : Byte) : (s.memWrite a v).tsy = s.tsy := rfl
@[simp] theorem State.memWrite_tr (a : Nat) (v : Byte) : (s.memWrite a v).tr = s.tr := rfl
@[simp] theorem State.memWrite_aj (a : Nat) (v : Byte) : (s.memWrite a v).aj = s.aj := rfl
@[simp] theorem State.memWrite_phase (a : Nat) (v : Byte) : (s.memWrite a v).phase = s.phase := rfl
@[simp] theorem State.memWrite_leftover (a : Nat) (v : Byte) : (s.memWrite a v).leftover = s.leftover := rfl
@[simp] theorem State.memWrite_ek (a : Nat) (v : Byte) : (s.memWrite a v).ek = s.ek := rfl
@[simp] theorem State.memWrite_mem (a : Nat) (v : Byte) : (s.memWrite a v).mem = Memory.insert s.mem a v := rfl
@[simp] theorem State.memWrite_memBytes (a : Nat) (v : Byte) : (s.memWrite a v).memBytes = s.memBytes := rfl
@[simp] theorem State.memWrite_program (a : Nat) (v : Byte) : (s.memWrite a v).program = s.program := rfl
@[simp] theorem State.memWrite_schedule (a : Nat) (v : Byte) : (s.memWrite a v).schedule = s.schedule := rfl
@[simp] theorem State.memWrite_hostRead (a : Nat) (v : Byte) : (s.memWrite a v).hostRead = s.hostRead := rfl

/-! ### setDone -/

@[simp] theorem State.setDone_op (d : Bool) : (s.setDone d).op = s.op := rfl
@[simp] theorem State.setDone_done (d : Bool) : (s.setDone d).done = d := rfl
@[simp] theorem State.setDone_alphaPresent (d : Bool) : (s.setDone d).alphaPresent = s.alphaPresent := rfl
@[simp] theorem State.setDone_errCmd (d : Bool) : (s.setDone d).errCmd = s.errCmd := rfl
@[simp] theorem State.setDone_errDim (d : Bool) : (s.setDone d).errDim = s.errDim := rfl
@[simp] theorem State.setDone_errRange (d : Bool) : (s.setDone d).errRange = s.errRange := rfl
@[simp] theorem State.setDone_errOverlap (d : Bool) : (s.setDone d).errOverlap = s.errOverlap := rfl
@[simp] theorem State.setDone_errBusy (d : Bool) : (s.setDone d).errBusy = s.errBusy := rfl
@[simp] theorem State.setDone_src (d : Bool) : (s.setDone d).src = s.src := rfl
@[simp] theorem State.setDone_dst (d : Bool) : (s.setDone d).dst = s.dst := rfl
@[simp] theorem State.setDone_width (d : Bool) : (s.setDone d).width = s.width := rfl
@[simp] theorem State.setDone_height (d : Bool) : (s.setDone d).height = s.height := rfl
@[simp] theorem State.setDone_length (d : Bool) : (s.setDone d).length = s.length := rfl
@[simp] theorem State.setDone_pkCount (d : Bool) : (s.setDone d).pkCount = s.pkCount := rfl
@[simp] theorem State.setDone_encCount (d : Bool) : (s.setDone d).encCount = s.encCount := rfl
@[simp] theorem State.setDone_tsx (d : Bool) : (s.setDone d).tsx = s.tsx := rfl
@[simp] theorem State.setDone_tsy (d : Bool) : (s.setDone d).tsy = s.tsy := rfl
@[simp] theorem State.setDone_tr (d : Bool) : (s.setDone d).tr = s.tr := rfl
@[simp] theorem State.setDone_aj (d : Bool) : (s.setDone d).aj = s.aj := rfl
@[simp] theorem State.setDone_phase (d : Bool) : (s.setDone d).phase = s.phase := rfl
@[simp] theorem State.setDone_leftover (d : Bool) : (s.setDone d).leftover = s.leftover := rfl
@[simp] theorem State.setDone_ek (d : Bool) : (s.setDone d).ek = s.ek := rfl
@[simp] theorem State.setDone_mem (d : Bool) : (s.setDone d).mem = s.mem := rfl
@[simp] theorem State.setDone_memBytes (d : Bool) : (s.setDone d).memBytes = s.memBytes := rfl
@[simp] theorem State.setDone_program (d : Bool) : (s.setDone d).program = s.program := rfl
@[simp] theorem State.setDone_schedule (d : Bool) : (s.setDone d).schedule = s.schedule := rfl
@[simp] theorem State.setDone_hostRead (d : Bool) : (s.setDone d).hostRead = s.hostRead := rfl

/-! ### setErr -/

@[simp] theorem State.setErr_op (e : Err) : (s.setErr e).op = s.op := by cases e <;> rfl
@[simp] theorem State.setErr_done (e : Err) : (s.setErr e).done = s.done := by cases e <;> rfl
@[simp] theorem State.setErr_alphaPresent (e : Err) : (s.setErr e).alphaPresent = s.alphaPresent := by cases e <;> rfl
@[simp] theorem State.setErr_src (e : Err) : (s.setErr e).src = s.src := by cases e <;> rfl
@[simp] theorem State.setErr_dst (e : Err) : (s.setErr e).dst = s.dst := by cases e <;> rfl
@[simp] theorem State.setErr_width (e : Err) : (s.setErr e).width = s.width := by cases e <;> rfl
@[simp] theorem State.setErr_height (e : Err) : (s.setErr e).height = s.height := by cases e <;> rfl
@[simp] theorem State.setErr_length (e : Err) : (s.setErr e).length = s.length := by cases e <;> rfl
@[simp] theorem State.setErr_pkCount (e : Err) : (s.setErr e).pkCount = s.pkCount := by cases e <;> rfl
@[simp] theorem State.setErr_encCount (e : Err) : (s.setErr e).encCount = s.encCount := by cases e <;> rfl
@[simp] theorem State.setErr_tsx (e : Err) : (s.setErr e).tsx = s.tsx := by cases e <;> rfl
@[simp] theorem State.setErr_tsy (e : Err) : (s.setErr e).tsy = s.tsy := by cases e <;> rfl
@[simp] theorem State.setErr_tr (e : Err) : (s.setErr e).tr = s.tr := by cases e <;> rfl
@[simp] theorem State.setErr_aj (e : Err) : (s.setErr e).aj = s.aj := by cases e <;> rfl
@[simp] theorem State.setErr_phase (e : Err) : (s.setErr e).phase = s.phase := by cases e <;> rfl
@[simp] theorem State.setErr_leftover (e : Err) : (s.setErr e).leftover = s.leftover := by cases e <;> rfl
@[simp] theorem State.setErr_ek (e : Err) : (s.setErr e).ek = s.ek := by cases e <;> rfl
@[simp] theorem State.setErr_mem (e : Err) : (s.setErr e).mem = s.mem := by cases e <;> rfl
@[simp] theorem State.setErr_memBytes (e : Err) : (s.setErr e).memBytes = s.memBytes := by cases e <;> rfl
@[simp] theorem State.setErr_program (e : Err) : (s.setErr e).program = s.program := by cases e <;> rfl
@[simp] theorem State.setErr_schedule (e : Err) : (s.setErr e).schedule = s.schedule := by cases e <;> rfl
@[simp] theorem State.setErr_hostRead (e : Err) : (s.setErr e).hostRead = s.hostRead := by cases e <;> rfl

/-! ### raise -/

@[simp] theorem State.raise_op (e : Err) : (s.raise e).op = s.op := by cases e <;> rfl
@[simp] theorem State.raise_done (e : Err) : (s.raise e).done = true := by cases e <;> rfl
@[simp] theorem State.raise_alphaPresent (e : Err) : (s.raise e).alphaPresent = s.alphaPresent := by cases e <;> rfl
@[simp] theorem State.raise_src (e : Err) : (s.raise e).src = s.src := by cases e <;> rfl
@[simp] theorem State.raise_dst (e : Err) : (s.raise e).dst = s.dst := by cases e <;> rfl
@[simp] theorem State.raise_width (e : Err) : (s.raise e).width = s.width := by cases e <;> rfl
@[simp] theorem State.raise_height (e : Err) : (s.raise e).height = s.height := by cases e <;> rfl
@[simp] theorem State.raise_length (e : Err) : (s.raise e).length = s.length := by cases e <;> rfl
@[simp] theorem State.raise_pkCount (e : Err) : (s.raise e).pkCount = s.pkCount := by cases e <;> rfl
@[simp] theorem State.raise_encCount (e : Err) : (s.raise e).encCount = s.encCount := by cases e <;> rfl
@[simp] theorem State.raise_tsx (e : Err) : (s.raise e).tsx = s.tsx := by cases e <;> rfl
@[simp] theorem State.raise_tsy (e : Err) : (s.raise e).tsy = s.tsy := by cases e <;> rfl
@[simp] theorem State.raise_tr (e : Err) : (s.raise e).tr = s.tr := by cases e <;> rfl
@[simp] theorem State.raise_aj (e : Err) : (s.raise e).aj = s.aj := by cases e <;> rfl
@[simp] theorem State.raise_phase (e : Err) : (s.raise e).phase = s.phase := by cases e <;> rfl
@[simp] theorem State.raise_leftover (e : Err) : (s.raise e).leftover = s.leftover := by cases e <;> rfl
@[simp] theorem State.raise_ek (e : Err) : (s.raise e).ek = s.ek := by cases e <;> rfl
@[simp] theorem State.raise_mem (e : Err) : (s.raise e).mem = s.mem := by cases e <;> rfl
@[simp] theorem State.raise_memBytes (e : Err) : (s.raise e).memBytes = s.memBytes := by cases e <;> rfl
@[simp] theorem State.raise_program (e : Err) : (s.raise e).program = s.program := by cases e <;> rfl
@[simp] theorem State.raise_schedule (e : Err) : (s.raise e).schedule = s.schedule := by cases e <;> rfl
@[simp] theorem State.raise_hostRead (e : Err) : (s.raise e).hostRead = s.hostRead := by cases e <;> rfl

/-! ### complete -/

@[simp] theorem State.complete_op : (s.complete).op = .idle := rfl
@[simp] theorem State.complete_done : (s.complete).done = true := rfl
@[simp] theorem State.complete_alphaPresent : (s.complete).alphaPresent = s.alphaPresent := rfl
@[simp] theorem State.complete_errCmd : (s.complete).errCmd = s.errCmd := rfl
@[simp] theorem State.complete_errDim : (s.complete).errDim = s.errDim := rfl
@[simp] theorem State.complete_errRange : (s.complete).errRange = s.errRange := rfl
@[simp] theorem State.complete_errOverlap : (s.complete).errOverlap = s.errOverlap := rfl
@[simp] theorem State.complete_errBusy : (s.complete).errBusy = s.errBusy := rfl
@[simp] theorem State.complete_src : (s.complete).src = s.src := rfl
@[simp] theorem State.complete_dst : (s.complete).dst = s.dst := rfl
@[simp] theorem State.complete_width : (s.complete).width = s.width := rfl
@[simp] theorem State.complete_height : (s.complete).height = s.height := rfl
@[simp] theorem State.complete_length : (s.complete).length = s.length := rfl
@[simp] theorem State.complete_pkCount : (s.complete).pkCount = s.pkCount := rfl
@[simp] theorem State.complete_encCount : (s.complete).encCount = s.encCount := rfl
@[simp] theorem State.complete_tsx : (s.complete).tsx = s.tsx := rfl
@[simp] theorem State.complete_tsy : (s.complete).tsy = s.tsy := rfl
@[simp] theorem State.complete_tr : (s.complete).tr = s.tr := rfl
@[simp] theorem State.complete_aj : (s.complete).aj = s.aj := rfl
@[simp] theorem State.complete_phase : (s.complete).phase = s.phase := rfl
@[simp] theorem State.complete_leftover : (s.complete).leftover = s.leftover := rfl
@[simp] theorem State.complete_ek : (s.complete).ek = s.ek := rfl
@[simp] theorem State.complete_mem : (s.complete).mem = s.mem := rfl
@[simp] theorem State.complete_memBytes : (s.complete).memBytes = s.memBytes := rfl
@[simp] theorem State.complete_program : (s.complete).program = s.program := rfl
@[simp] theorem State.complete_schedule : (s.complete).schedule = s.schedule := rfl
@[simp] theorem State.complete_hostRead : (s.complete).hostRead = s.hostRead := rfl

/-! ### takeTurn -/

@[simp] theorem State.takeTurn_op : (s.takeTurn).op = s.op := rfl
@[simp] theorem State.takeTurn_done : (s.takeTurn).done = s.done := rfl
@[simp] theorem State.takeTurn_alphaPresent : (s.takeTurn).alphaPresent = s.alphaPresent := rfl
@[simp] theorem State.takeTurn_errCmd : (s.takeTurn).errCmd = s.errCmd := rfl
@[simp] theorem State.takeTurn_errDim : (s.takeTurn).errDim = s.errDim := rfl
@[simp] theorem State.takeTurn_errRange : (s.takeTurn).errRange = s.errRange := rfl
@[simp] theorem State.takeTurn_errOverlap : (s.takeTurn).errOverlap = s.errOverlap := rfl
@[simp] theorem State.takeTurn_errBusy : (s.takeTurn).errBusy = s.errBusy := rfl
@[simp] theorem State.takeTurn_src : (s.takeTurn).src = s.src := rfl
@[simp] theorem State.takeTurn_dst : (s.takeTurn).dst = s.dst := rfl
@[simp] theorem State.takeTurn_width : (s.takeTurn).width = s.width := rfl
@[simp] theorem State.takeTurn_height : (s.takeTurn).height = s.height := rfl
@[simp] theorem State.takeTurn_length : (s.takeTurn).length = s.length := rfl
@[simp] theorem State.takeTurn_pkCount : (s.takeTurn).pkCount = s.pkCount := rfl
@[simp] theorem State.takeTurn_encCount : (s.takeTurn).encCount = s.encCount := rfl
@[simp] theorem State.takeTurn_tsx : (s.takeTurn).tsx = s.tsx := rfl
@[simp] theorem State.takeTurn_tsy : (s.takeTurn).tsy = s.tsy := rfl
@[simp] theorem State.takeTurn_tr : (s.takeTurn).tr = s.tr := rfl
@[simp] theorem State.takeTurn_aj : (s.takeTurn).aj = s.aj := rfl
@[simp] theorem State.takeTurn_phase : (s.takeTurn).phase = s.phase := rfl
@[simp] theorem State.takeTurn_leftover : (s.takeTurn).leftover = s.leftover := rfl
@[simp] theorem State.takeTurn_ek : (s.takeTurn).ek = s.ek := rfl
@[simp] theorem State.takeTurn_mem : (s.takeTurn).mem = s.mem := rfl
@[simp] theorem State.takeTurn_memBytes : (s.takeTurn).memBytes = s.memBytes := rfl
@[simp] theorem State.takeTurn_program : (s.takeTurn).program = s.program := rfl
@[simp] theorem State.takeTurn_schedule : (s.takeTurn).schedule = s.schedule.tail := rfl
@[simp] theorem State.takeTurn_hostRead : (s.takeTurn).hostRead = s.hostRead := rfl

/-! ### setStream -/

@[simp] theorem State.setStream_op (p : Fin 3) (lo : Index) : (s.setStream p lo).op = s.op := rfl
@[simp] theorem State.setStream_done (p : Fin 3) (lo : Index) : (s.setStream p lo).done = s.done := rfl
@[simp] theorem State.setStream_alphaPresent (p : Fin 3) (lo : Index) : (s.setStream p lo).alphaPresent = s.alphaPresent := rfl
@[simp] theorem State.setStream_errCmd (p : Fin 3) (lo : Index) : (s.setStream p lo).errCmd = s.errCmd := rfl
@[simp] theorem State.setStream_errDim (p : Fin 3) (lo : Index) : (s.setStream p lo).errDim = s.errDim := rfl
@[simp] theorem State.setStream_errRange (p : Fin 3) (lo : Index) : (s.setStream p lo).errRange = s.errRange := rfl
@[simp] theorem State.setStream_errOverlap (p : Fin 3) (lo : Index) : (s.setStream p lo).errOverlap = s.errOverlap := rfl
@[simp] theorem State.setStream_errBusy (p : Fin 3) (lo : Index) : (s.setStream p lo).errBusy = s.errBusy := rfl
@[simp] theorem State.setStream_src (p : Fin 3) (lo : Index) : (s.setStream p lo).src = s.src := rfl
@[simp] theorem State.setStream_dst (p : Fin 3) (lo : Index) : (s.setStream p lo).dst = s.dst := rfl
@[simp] theorem State.setStream_width (p : Fin 3) (lo : Index) : (s.setStream p lo).width = s.width := rfl
@[simp] theorem State.setStream_height (p : Fin 3) (lo : Index) : (s.setStream p lo).height = s.height := rfl
@[simp] theorem State.setStream_length (p : Fin 3) (lo : Index) : (s.setStream p lo).length = s.length := rfl
@[simp] theorem State.setStream_pkCount (p : Fin 3) (lo : Index) : (s.setStream p lo).pkCount = s.pkCount := rfl
@[simp] theorem State.setStream_encCount (p : Fin 3) (lo : Index) : (s.setStream p lo).encCount = s.encCount := rfl
@[simp] theorem State.setStream_tsx (p : Fin 3) (lo : Index) : (s.setStream p lo).tsx = s.tsx := rfl
@[simp] theorem State.setStream_tsy (p : Fin 3) (lo : Index) : (s.setStream p lo).tsy = s.tsy := rfl
@[simp] theorem State.setStream_tr (p : Fin 3) (lo : Index) : (s.setStream p lo).tr = s.tr := rfl
@[simp] theorem State.setStream_aj (p : Fin 3) (lo : Index) : (s.setStream p lo).aj = s.aj := rfl
@[simp] theorem State.setStream_phase (p : Fin 3) (lo : Index) : (s.setStream p lo).phase = p := rfl
@[simp] theorem State.setStream_leftover (p : Fin 3) (lo : Index) : (s.setStream p lo).leftover = lo := rfl
@[simp] theorem State.setStream_ek (p : Fin 3) (lo : Index) : (s.setStream p lo).ek = s.ek := rfl
@[simp] theorem State.setStream_mem (p : Fin 3) (lo : Index) : (s.setStream p lo).mem = s.mem := rfl
@[simp] theorem State.setStream_memBytes (p : Fin 3) (lo : Index) : (s.setStream p lo).memBytes = s.memBytes := rfl
@[simp] theorem State.setStream_program (p : Fin 3) (lo : Index) : (s.setStream p lo).program = s.program := rfl
@[simp] theorem State.setStream_schedule (p : Fin 3) (lo : Index) : (s.setStream p lo).schedule = s.schedule := rfl
@[simp] theorem State.setStream_hostRead (p : Fin 3) (lo : Index) : (s.setStream p lo).hostRead = s.hostRead := rfl

/-! ### emit -/

@[simp] theorem State.emit_op (c : Index) : (s.emit c).op = s.op := rfl
@[simp] theorem State.emit_done (c : Index) : (s.emit c).done = s.done := rfl
@[simp] theorem State.emit_alphaPresent (c : Index) : (s.emit c).alphaPresent = s.alphaPresent := rfl
@[simp] theorem State.emit_errCmd (c : Index) : (s.emit c).errCmd = s.errCmd := rfl
@[simp] theorem State.emit_errDim (c : Index) : (s.emit c).errDim = s.errDim := rfl
@[simp] theorem State.emit_errRange (c : Index) : (s.emit c).errRange = s.errRange := rfl
@[simp] theorem State.emit_errOverlap (c : Index) : (s.emit c).errOverlap = s.errOverlap := rfl
@[simp] theorem State.emit_errBusy (c : Index) : (s.emit c).errBusy = s.errBusy := rfl
@[simp] theorem State.emit_src (c : Index) : (s.emit c).src = s.src := rfl
@[simp] theorem State.emit_dst (c : Index) : (s.emit c).dst = s.dst := rfl
@[simp] theorem State.emit_width (c : Index) : (s.emit c).width = s.width := rfl
@[simp] theorem State.emit_height (c : Index) : (s.emit c).height = s.height := rfl
@[simp] theorem State.emit_length (c : Index) : (s.emit c).length = s.length := rfl
@[simp] theorem State.emit_pkCount (c : Index) : (s.emit c).pkCount = s.pkCount := rfl
@[simp] theorem State.emit_encCount (c : Index) : (s.emit c).encCount = s.encCount + 1 := rfl
@[simp] theorem State.emit_tsx (c : Index) : (s.emit c).tsx = s.tsx := rfl
@[simp] theorem State.emit_tsy (c : Index) : (s.emit c).tsy = s.tsy := rfl
@[simp] theorem State.emit_tr (c : Index) : (s.emit c).tr = s.tr := rfl
@[simp] theorem State.emit_aj (c : Index) : (s.emit c).aj = s.aj := rfl
@[simp] theorem State.emit_phase (c : Index) : (s.emit c).phase = s.phase := rfl
@[simp] theorem State.emit_leftover (c : Index) : (s.emit c).leftover = s.leftover := rfl
@[simp] theorem State.emit_ek (c : Index) : (s.emit c).ek = s.ek := rfl
@[simp] theorem State.emit_mem (c : Index) : (s.emit c).mem = Memory.insert s.mem s.charAddr (charCode c) := rfl
@[simp] theorem State.emit_memBytes (c : Index) : (s.emit c).memBytes = s.memBytes := rfl
@[simp] theorem State.emit_program (c : Index) : (s.emit c).program = s.program := rfl
@[simp] theorem State.emit_schedule (c : Index) : (s.emit c).schedule = s.schedule := rfl
@[simp] theorem State.emit_hostRead (c : Index) : (s.emit c).hostRead = s.hostRead := rfl

/-! ### startPack -/

@[simp] theorem State.startPack_op : (s.startPack).op = .pack := rfl
@[simp] theorem State.startPack_done : (s.startPack).done = s.done := rfl
@[simp] theorem State.startPack_alphaPresent : (s.startPack).alphaPresent = s.alphaPresent := rfl
@[simp] theorem State.startPack_errCmd : (s.startPack).errCmd = s.errCmd := rfl
@[simp] theorem State.startPack_errDim : (s.startPack).errDim = s.errDim := rfl
@[simp] theorem State.startPack_errRange : (s.startPack).errRange = s.errRange := rfl
@[simp] theorem State.startPack_errOverlap : (s.startPack).errOverlap = s.errOverlap := rfl
@[simp] theorem State.startPack_errBusy : (s.startPack).errBusy = s.errBusy := rfl
@[simp] theorem State.startPack_src : (s.startPack).src = s.src := rfl
@[simp] theorem State.startPack_dst : (s.startPack).dst = s.dst := rfl
@[simp] theorem State.startPack_width : (s.startPack).width = s.width := rfl
@[simp] theorem State.startPack_height : (s.startPack).height = s.height := rfl
@[simp] theorem State.startPack_length : (s.startPack).length = s.length := rfl
@[simp] theorem State.startPack_pkCount : (s.startPack).pkCount = 0 := rfl
@[simp] theorem State.startPack_encCount : (s.startPack).encCount = s.encCount := rfl
@[simp] theorem State.startPack_tsx : (s.startPack).tsx = 0 := rfl
@[simp] theorem State.startPack_tsy : (s.startPack).tsy = 0 := rfl
@[simp] theorem State.startPack_tr : (s.startPack).tr = 0 := rfl
@[simp] theorem State.startPack_aj : (s.startPack).aj = s.aj := rfl
@[simp] theorem State.startPack_phase : (s.startPack).phase = s.phase := rfl
@[simp] theorem State.startPack_leftover : (s.startPack).leftover = s.leftover := rfl
@[simp] theorem State.startPack_ek : (s.startPack).ek = s.ek := rfl
@[simp] theorem State.startPack_mem : (s.startPack).mem = s.mem := rfl
@[simp] theorem State.startPack_memBytes : (s.startPack).memBytes = s.memBytes := rfl
@[simp] theorem State.startPack_program : (s.startPack).program = s.program := rfl
@[simp] theorem State.startPack_schedule : (s.startPack).schedule = s.schedule := rfl
@[simp] theorem State.startPack_hostRead : (s.startPack).hostRead = s.hostRead := rfl

/-! ### startAscan -/

@[simp] theorem State.startAscan_op : (s.startAscan).op = .ascan := rfl
@[simp] theorem State.startAscan_done : (s.startAscan).done = s.done := rfl
@[simp] theorem State.startAscan_alphaPresent : (s.startAscan).alphaPresent = false := rfl
@[simp] theorem State.startAscan_errCmd : (s.startAscan).errCmd = s.errCmd := rfl
@[simp] theorem State.startAscan_errDim : (s.startAscan).errDim = s.errDim := rfl
@[simp] theorem State.startAscan_errRange : (s.startAscan).errRange = s.errRange := rfl
@[simp] theorem State.startAscan_errOverlap : (s.startAscan).errOverlap = s.errOverlap := rfl
@[simp] theorem State.startAscan_errBusy : (s.startAscan).errBusy = s.errBusy := rfl
@[simp] theorem State.startAscan_src : (s.startAscan).src = s.src := rfl
@[simp] theorem State.startAscan_dst : (s.startAscan).dst = s.dst := rfl
@[simp] theorem State.startAscan_width : (s.startAscan).width = s.width := rfl
@[simp] theorem State.startAscan_height : (s.startAscan).height = s.height := rfl
@[simp] theorem State.startAscan_length : (s.startAscan).length = s.length := rfl
@[simp] theorem State.startAscan_pkCount : (s.startAscan).pkCount = s.pkCount := rfl
@[simp] theorem State.startAscan_encCount : (s.startAscan).encCount = s.encCount := rfl
@[simp] theorem State.startAscan_tsx : (s.startAscan).tsx = s.tsx := rfl
@[simp] theorem State.startAscan_tsy : (s.startAscan).tsy = s.tsy := rfl
@[simp] theorem State.startAscan_tr : (s.startAscan).tr = s.tr := rfl
@[simp] theorem State.startAscan_aj : (s.startAscan).aj = 0 := rfl
@[simp] theorem State.startAscan_phase : (s.startAscan).phase = s.phase := rfl
@[simp] theorem State.startAscan_leftover : (s.startAscan).leftover = s.leftover := rfl
@[simp] theorem State.startAscan_ek : (s.startAscan).ek = s.ek := rfl
@[simp] theorem State.startAscan_mem : (s.startAscan).mem = s.mem := rfl
@[simp] theorem State.startAscan_memBytes : (s.startAscan).memBytes = s.memBytes := rfl
@[simp] theorem State.startAscan_program : (s.startAscan).program = s.program := rfl
@[simp] theorem State.startAscan_schedule : (s.startAscan).schedule = s.schedule := rfl
@[simp] theorem State.startAscan_hostRead : (s.startAscan).hostRead = s.hostRead := rfl

/-! ### startEncode -/

@[simp] theorem State.startEncode_op : (s.startEncode).op = .encode := rfl
@[simp] theorem State.startEncode_done : (s.startEncode).done = s.done := rfl
@[simp] theorem State.startEncode_alphaPresent : (s.startEncode).alphaPresent = s.alphaPresent := rfl
@[simp] theorem State.startEncode_errCmd : (s.startEncode).errCmd = s.errCmd := rfl
@[simp] theorem State.startEncode_errDim : (s.startEncode).errDim = s.errDim := rfl
@[simp] theorem State.startEncode_errRange : (s.startEncode).errRange = s.errRange := rfl
@[simp] theorem State.startEncode_errOverlap : (s.startEncode).errOverlap = s.errOverlap := rfl
@[simp] theorem State.startEncode_errBusy : (s.startEncode).errBusy = s.errBusy := rfl
@[simp] theorem State.startEncode_src : (s.startEncode).src = s.src := rfl
@[simp] theorem State.startEncode_dst : (s.startEncode).dst = s.dst := rfl
@[simp] theorem State.startEncode_width : (s.startEncode).width = s.width := rfl
@[simp] theorem State.startEncode_height : (s.startEncode).height = s.height := rfl
@[simp] theorem State.startEncode_length : (s.startEncode).length = s.length := rfl
@[simp] theorem State.startEncode_pkCount : (s.startEncode).pkCount = s.pkCount := rfl
@[simp] theorem State.startEncode_encCount : (s.startEncode).encCount = 0 := rfl
@[simp] theorem State.startEncode_tsx : (s.startEncode).tsx = s.tsx := rfl
@[simp] theorem State.startEncode_tsy : (s.startEncode).tsy = s.tsy := rfl
@[simp] theorem State.startEncode_tr : (s.startEncode).tr = s.tr := rfl
@[simp] theorem State.startEncode_aj : (s.startEncode).aj = s.aj := rfl
@[simp] theorem State.startEncode_phase : (s.startEncode).phase = 0 := rfl
@[simp] theorem State.startEncode_leftover : (s.startEncode).leftover = 0 := rfl
@[simp] theorem State.startEncode_ek : (s.startEncode).ek = 0 := rfl
@[simp] theorem State.startEncode_mem : (s.startEncode).mem = s.mem := rfl
@[simp] theorem State.startEncode_memBytes : (s.startEncode).memBytes = s.memBytes := rfl
@[simp] theorem State.startEncode_program : (s.startEncode).program = s.program := rfl
@[simp] theorem State.startEncode_schedule : (s.startEncode).schedule = s.schedule := rfl
@[simp] theorem State.startEncode_hostRead : (s.startEncode).hostRead = s.hostRead := rfl

/-! ### softReset -/

@[simp] theorem State.softReset_op : (s.softReset).op = .idle := rfl
@[simp] theorem State.softReset_done : (s.softReset).done = true := rfl
@[simp] theorem State.softReset_alphaPresent : (s.softReset).alphaPresent = false := rfl
@[simp] theorem State.softReset_errCmd : (s.softReset).errCmd = false := rfl
@[simp] theorem State.softReset_errDim : (s.softReset).errDim = false := rfl
@[simp] theorem State.softReset_errRange : (s.softReset).errRange = false := rfl
@[simp] theorem State.softReset_errOverlap : (s.softReset).errOverlap = false := rfl
@[simp] theorem State.softReset_errBusy : (s.softReset).errBusy = false := rfl
@[simp] theorem State.softReset_src : (s.softReset).src = s.src := rfl
@[simp] theorem State.softReset_dst : (s.softReset).dst = s.dst := rfl
@[simp] theorem State.softReset_width : (s.softReset).width = s.width := rfl
@[simp] theorem State.softReset_height : (s.softReset).height = s.height := rfl
@[simp] theorem State.softReset_length : (s.softReset).length = s.length := rfl
@[simp] theorem State.softReset_pkCount : (s.softReset).pkCount = 0 := rfl
@[simp] theorem State.softReset_encCount : (s.softReset).encCount = 0 := rfl
@[simp] theorem State.softReset_tsx : (s.softReset).tsx = 0 := rfl
@[simp] theorem State.softReset_tsy : (s.softReset).tsy = 0 := rfl
@[simp] theorem State.softReset_tr : (s.softReset).tr = 0 := rfl
@[simp] theorem State.softReset_aj : (s.softReset).aj = 0 := rfl
@[simp] theorem State.softReset_phase : (s.softReset).phase = 0 := rfl
@[simp] theorem State.softReset_leftover : (s.softReset).leftover = 0 := rfl
@[simp] theorem State.softReset_ek : (s.softReset).ek = 0 := rfl
@[simp] theorem State.softReset_mem : (s.softReset).mem = s.mem := rfl
@[simp] theorem State.softReset_memBytes : (s.softReset).memBytes = s.memBytes := rfl
@[simp] theorem State.softReset_program : (s.softReset).program = s.program := rfl
@[simp] theorem State.softReset_schedule : (s.softReset).schedule = s.schedule := rfl
@[simp] theorem State.softReset_hostRead : (s.softReset).hostRead = s.hostRead := rfl

/-! ### hardReset -/

@[simp] theorem State.hardReset_op : (s.hardReset).op = .idle := rfl
@[simp] theorem State.hardReset_done : (s.hardReset).done = false := rfl
@[simp] theorem State.hardReset_alphaPresent : (s.hardReset).alphaPresent = false := rfl
@[simp] theorem State.hardReset_errCmd : (s.hardReset).errCmd = false := rfl
@[simp] theorem State.hardReset_errDim : (s.hardReset).errDim = false := rfl
@[simp] theorem State.hardReset_errRange : (s.hardReset).errRange = false := rfl
@[simp] theorem State.hardReset_errOverlap : (s.hardReset).errOverlap = false := rfl
@[simp] theorem State.hardReset_errBusy : (s.hardReset).errBusy = false := rfl
@[simp] theorem State.hardReset_src : (s.hardReset).src = 0 := rfl
@[simp] theorem State.hardReset_dst : (s.hardReset).dst = 0 := rfl
@[simp] theorem State.hardReset_width : (s.hardReset).width = 0 := rfl
@[simp] theorem State.hardReset_height : (s.hardReset).height = 0 := rfl
@[simp] theorem State.hardReset_length : (s.hardReset).length = 0 := rfl
@[simp] theorem State.hardReset_pkCount : (s.hardReset).pkCount = 0 := rfl
@[simp] theorem State.hardReset_encCount : (s.hardReset).encCount = 0 := rfl
@[simp] theorem State.hardReset_tsx : (s.hardReset).tsx = 0 := rfl
@[simp] theorem State.hardReset_tsy : (s.hardReset).tsy = 0 := rfl
@[simp] theorem State.hardReset_tr : (s.hardReset).tr = 0 := rfl
@[simp] theorem State.hardReset_aj : (s.hardReset).aj = 0 := rfl
@[simp] theorem State.hardReset_phase : (s.hardReset).phase = 0 := rfl
@[simp] theorem State.hardReset_leftover : (s.hardReset).leftover = 0 := rfl
@[simp] theorem State.hardReset_ek : (s.hardReset).ek = 0 := rfl
@[simp] theorem State.hardReset_mem : (s.hardReset).mem = s.mem := rfl
@[simp] theorem State.hardReset_memBytes : (s.hardReset).memBytes = s.memBytes := rfl
@[simp] theorem State.hardReset_program : (s.hardReset).program = s.program := rfl
@[simp] theorem State.hardReset_schedule : (s.hardReset).schedule = s.schedule := rfl
@[simp] theorem State.hardReset_hostRead : (s.hardReset).hostRead = s.hostRead := rfl

/-! ### clearStatus -/

@[simp] theorem State.clearStatus_op (v : Word) : (s.clearStatus v).op = s.op := rfl
@[simp] theorem State.clearStatus_done (v : Word) : (s.clearStatus v).done = (s.done && !v.getLsbD 1) := rfl
@[simp] theorem State.clearStatus_alphaPresent (v : Word) : (s.clearStatus v).alphaPresent = s.alphaPresent := rfl
@[simp] theorem State.clearStatus_errCmd (v : Word) : (s.clearStatus v).errCmd = (s.errCmd && !v.getLsbD 3) := rfl
@[simp] theorem State.clearStatus_errDim (v : Word) : (s.clearStatus v).errDim = (s.errDim && !v.getLsbD 4) := rfl
@[simp] theorem State.clearStatus_errRange (v : Word) : (s.clearStatus v).errRange = (s.errRange && !v.getLsbD 5) := rfl
@[simp] theorem State.clearStatus_errOverlap (v : Word) : (s.clearStatus v).errOverlap = (s.errOverlap && !v.getLsbD 6) := rfl
@[simp] theorem State.clearStatus_errBusy (v : Word) : (s.clearStatus v).errBusy = (s.errBusy && !v.getLsbD 7) := rfl
@[simp] theorem State.clearStatus_src (v : Word) : (s.clearStatus v).src = s.src := rfl
@[simp] theorem State.clearStatus_dst (v : Word) : (s.clearStatus v).dst = s.dst := rfl
@[simp] theorem State.clearStatus_width (v : Word) : (s.clearStatus v).width = s.width := rfl
@[simp] theorem State.clearStatus_height (v : Word) : (s.clearStatus v).height = s.height := rfl
@[simp] theorem State.clearStatus_length (v : Word) : (s.clearStatus v).length = s.length := rfl
@[simp] theorem State.clearStatus_pkCount (v : Word) : (s.clearStatus v).pkCount = s.pkCount := rfl
@[simp] theorem State.clearStatus_encCount (v : Word) : (s.clearStatus v).encCount = s.encCount := rfl
@[simp] theorem State.clearStatus_tsx (v : Word) : (s.clearStatus v).tsx = s.tsx := rfl
@[simp] theorem State.clearStatus_tsy (v : Word) : (s.clearStatus v).tsy = s.tsy := rfl
@[simp] theorem State.clearStatus_tr (v : Word) : (s.clearStatus v).tr = s.tr := rfl
@[simp] theorem State.clearStatus_aj (v : Word) : (s.clearStatus v).aj = s.aj := rfl
@[simp] theorem State.clearStatus_phase (v : Word) : (s.clearStatus v).phase = s.phase := rfl
@[simp] theorem State.clearStatus_leftover (v : Word) : (s.clearStatus v).leftover = s.leftover := rfl
@[simp] theorem State.clearStatus_ek (v : Word) : (s.clearStatus v).ek = s.ek := rfl
@[simp] theorem State.clearStatus_mem (v : Word) : (s.clearStatus v).mem = s.mem := rfl
@[simp] theorem State.clearStatus_memBytes (v : Word) : (s.clearStatus v).memBytes = s.memBytes := rfl
@[simp] theorem State.clearStatus_program (v : Word) : (s.clearStatus v).program = s.program := rfl
@[simp] theorem State.clearStatus_schedule (v : Word) : (s.clearStatus v).schedule = s.schedule := rfl
@[simp] theorem State.clearStatus_hostRead (v : Word) : (s.clearStatus v).hostRead = s.hostRead := rfl

/-! ### advanceTile -/

@[simp] theorem State.advanceTile_op : (s.advanceTile).op = s.op := by unfold State.advanceTile; split <;> [split <;> rfl; rfl]
@[simp] theorem State.advanceTile_done : (s.advanceTile).done = s.done := by unfold State.advanceTile; split <;> [split <;> rfl; rfl]
@[simp] theorem State.advanceTile_alphaPresent : (s.advanceTile).alphaPresent = s.alphaPresent := by unfold State.advanceTile; split <;> [split <;> rfl; rfl]
@[simp] theorem State.advanceTile_errCmd : (s.advanceTile).errCmd = s.errCmd := by unfold State.advanceTile; split <;> [split <;> rfl; rfl]
@[simp] theorem State.advanceTile_errDim : (s.advanceTile).errDim = s.errDim := by unfold State.advanceTile; split <;> [split <;> rfl; rfl]
@[simp] theorem State.advanceTile_errRange : (s.advanceTile).errRange = s.errRange := by unfold State.advanceTile; split <;> [split <;> rfl; rfl]
@[simp] theorem State.advanceTile_errOverlap : (s.advanceTile).errOverlap = s.errOverlap := by unfold State.advanceTile; split <;> [split <;> rfl; rfl]
@[simp] theorem State.advanceTile_errBusy : (s.advanceTile).errBusy = s.errBusy := by unfold State.advanceTile; split <;> [split <;> rfl; rfl]
@[simp] theorem State.advanceTile_src : (s.advanceTile).src = s.src := by unfold State.advanceTile; split <;> [split <;> rfl; rfl]
@[simp] theorem State.advanceTile_dst : (s.advanceTile).dst = s.dst := by unfold State.advanceTile; split <;> [split <;> rfl; rfl]
@[simp] theorem State.advanceTile_width : (s.advanceTile).width = s.width := by unfold State.advanceTile; split <;> [split <;> rfl; rfl]
@[simp] theorem State.advanceTile_height : (s.advanceTile).height = s.height := by unfold State.advanceTile; split <;> [split <;> rfl; rfl]
@[simp] theorem State.advanceTile_length : (s.advanceTile).length = s.length := by unfold State.advanceTile; split <;> [split <;> rfl; rfl]
@[simp] theorem State.advanceTile_pkCount : (s.advanceTile).pkCount = s.pkCount := by unfold State.advanceTile; split <;> [split <;> rfl; rfl]
@[simp] theorem State.advanceTile_encCount : (s.advanceTile).encCount = s.encCount := by unfold State.advanceTile; split <;> [split <;> rfl; rfl]
@[simp] theorem State.advanceTile_aj : (s.advanceTile).aj = s.aj := by unfold State.advanceTile; split <;> [split <;> rfl; rfl]
@[simp] theorem State.advanceTile_phase : (s.advanceTile).phase = s.phase := by unfold State.advanceTile; split <;> [split <;> rfl; rfl]
@[simp] theorem State.advanceTile_leftover : (s.advanceTile).leftover = s.leftover := by unfold State.advanceTile; split <;> [split <;> rfl; rfl]
@[simp] theorem State.advanceTile_ek : (s.advanceTile).ek = s.ek := by unfold State.advanceTile; split <;> [split <;> rfl; rfl]
@[simp] theorem State.advanceTile_mem : (s.advanceTile).mem = s.mem := by unfold State.advanceTile; split <;> [split <;> rfl; rfl]
@[simp] theorem State.advanceTile_memBytes : (s.advanceTile).memBytes = s.memBytes := by unfold State.advanceTile; split <;> [split <;> rfl; rfl]
@[simp] theorem State.advanceTile_program : (s.advanceTile).program = s.program := by unfold State.advanceTile; split <;> [split <;> rfl; rfl]
@[simp] theorem State.advanceTile_schedule : (s.advanceTile).schedule = s.schedule := by unfold State.advanceTile; split <;> [split <;> rfl; rfl]
@[simp] theorem State.advanceTile_hostRead : (s.advanceTile).hostRead = s.hostRead := by unfold State.advanceTile; split <;> [split <;> rfl; rfl]

end Sys2Proof.Machine
end

