-- ==== Sys2Proof/Laws/Memory.lean ====
section
/-! SUPPORT. The laws of the buffer memory: read after write, every other address untouched, the canonical form
kept, and equal contents are equal lists. -/

namespace Sys2Proof.Machine

theorem Memory.lookup_insert_same (m : List Host.Cell) (a : Nat) (b : Byte) :
    Memory.lookup (Memory.insert m a b) a = some b := by
  induction m with
  | nil => simp [Memory.insert, Memory.lookup]
  | cons c rest ih =>
    obtain ⟨k, v⟩ := c
    unfold Memory.insert
    split_ifs with h1 h2
    · simp [Memory.lookup]
    · simp [Memory.lookup]
    · simpa [Memory.lookup, Ne.symm h2] using ih

theorem Memory.lookup_insert_other (m : List Host.Cell) (a a' : Nat) (b : Byte) (h : a' ≠ a) :
    Memory.lookup (Memory.insert m a b) a' = Memory.lookup m a' := by
  induction m with
  | nil => simp [Memory.insert, Memory.lookup, Ne.symm h]
  | cons c rest ih =>
    obtain ⟨k, v⟩ := c
    unfold Memory.insert
    split_ifs with h1 h2
    · simp [Memory.lookup, Ne.symm h]
    · subst h2
      simp [Memory.lookup, Ne.symm h]
    · simp only [Memory.lookup, ih]

theorem Memory.mem_insert_addresses (m : List Host.Cell) (a : Nat) (b : Byte) (x : Nat) :
    x ∈ (Memory.insert m a b).map Prod.fst ↔ x = a ∨ x ∈ m.map Prod.fst := by
  induction m with
  | nil => simp [Memory.insert]
  | cons c rest ih =>
    obtain ⟨k, v⟩ := c
    unfold Memory.insert
    split_ifs with h1 h2
    · simp
    · subst h2; simp
    · simp only [List.map_cons, List.mem_cons, ih]; tauto

/-- A write inside the memory keeps the canonical form. -/
theorem Memory.insert_wf (n : Nat) (m : List Host.Cell) (a : Nat) (b : Byte) (h : Memory.wf n m) (ha : a < n) :
    Memory.wf n (Memory.insert m a b) := by
  refine ⟨?_, fun x hx => ?_⟩
  · obtain ⟨hs, -⟩ := h
    induction m with
    | nil => simp [Memory.insert]
    | cons c rest ih =>
      obtain ⟨k, v⟩ := c
      simp only [List.map_cons, List.pairwise_cons] at hs
      unfold Memory.insert
      split_ifs with h1 h2
      · simp only [List.map_cons, List.pairwise_cons, List.mem_cons, forall_eq_or_imp]
        exact ⟨⟨h1, fun x hx => h1.trans (hs.1 x hx)⟩, hs⟩
      · subst h2
        simpa using hs
      · simp only [List.map_cons, List.pairwise_cons]
        refine ⟨fun x hx => ?_, ih hs.2⟩
        rcases (Memory.mem_insert_addresses rest a b x).1 hx with rfl | hx
        · omega
        · exact hs.1 x hx
  · rcases (Memory.mem_insert_addresses m a b x).1 hx with rfl | hx
    · exact ha
    · exact h.2 x hx

/-- An address below every listed one is not listed. -/
theorem Memory.lookup_none_of_lt (m : List Host.Cell) (a : Nat) (h : ∀ x ∈ m.map Prod.fst, a < x) :
    Memory.lookup m a = none := by
  induction m with
  | nil => rfl
  | cons c rest ih =>
    obtain ⟨k, v⟩ := c
    simp only [List.map_cons, List.mem_cons, forall_eq_or_imp] at h
    simp only [Memory.lookup, Nat.ne_of_gt h.1, if_false]
    exact ih h.2

/-- In canonical form, equal contents are equal lists. -/
theorem Memory.eq_of_lookup_eq (n : Nat) (m m' : List Host.Cell) (h : Memory.wf n m) (h' : Memory.wf n m')
    (he : ∀ a, Memory.lookup m a = Memory.lookup m' a) : m = m' := by
  obtain ⟨hs, -⟩ := h
  obtain ⟨hs', -⟩ := h'
  induction m generalizing m' with
  | nil =>
    cases m' with
    | nil => rfl
    | cons c' rest' => obtain ⟨k, v⟩ := c'; have := he k; simp [Memory.lookup] at this
  | cons c rest ih =>
    obtain ⟨k, v⟩ := c
    cases m' with
    | nil => have := he k; simp [Memory.lookup] at this
    | cons c' rest' =>
      obtain ⟨k', v'⟩ := c'
      simp only [List.map_cons, List.pairwise_cons] at hs hs'
      have hk : k = k' := by
        rcases Nat.lt_trichotomy k k' with hlt | heq | hgt
        · have h1 := he k
          have h2 : Memory.lookup rest' k = none :=
            Memory.lookup_none_of_lt rest' k fun x hx => hlt.trans (hs'.1 x hx)
          simp [Memory.lookup, Nat.ne_of_gt hlt, h2] at h1
        · exact heq
        · have h1 := he k'
          have h2 : Memory.lookup rest k' = none :=
            Memory.lookup_none_of_lt rest k' fun x hx => hgt.trans (hs.1 x hx)
          simp [Memory.lookup, Nat.ne_of_gt hgt, h2] at h1
      subst hk
      have hv : v = v' := by simpa [Memory.lookup] using he k
      subst hv
      refine congrArg _ (ih rest' (fun a => ?_) hs.2 hs'.2)
      have ha := he a
      by_cases hka : k = a
      · subst hka
        rw [Memory.lookup_none_of_lt rest k hs.1, Memory.lookup_none_of_lt rest' k hs'.1]
      · simpa [Memory.lookup, hka] using ha

/-- MemRead depends only on the memory. -/
theorem State.memRead_congr (s t : State) (h : t.mem = s.mem) (a : Nat) : t.memRead a = s.memRead a := by
  simp [State.memRead, h]

@[simp] theorem State.memRead_memWrite_same (s : State) (a : Nat) (v : Byte) : (s.memWrite a v).memRead a = v := by
  simp [State.memRead, Memory.lookup_insert_same]

theorem State.memRead_memWrite_other (s : State) (a a' : Nat) (v : Byte) (h : a' ≠ a) :
    (s.memWrite a v).memRead a' = s.memRead a' := by
  simp [State.memRead, Memory.lookup_insert_other _ _ _ _ h]

@[simp] theorem State.memRead_emit_same (s : State) (c : Index) : (s.emit c).memRead s.charAddr = charCode c := by
  simp [State.memRead, Memory.lookup_insert_same]

theorem State.memRead_emit_other (s : State) (c : Index) (a : Nat) (h : a ≠ s.charAddr) :
    (s.emit c).memRead a = s.memRead a := by
  simp [State.memRead, Memory.lookup_insert_other _ _ _ _ h]

end Sys2Proof.Machine
end

