-- ==== Sys2Proof/Laws/Ops.lean ====
section
/-! SUPPORT. What each shared operation can do, said once: the dispatch, `raise`, the acceptance checks, the
characters of the encoder, the micro-steps and the host's actions. -/

namespace Sys2Proof.Machine

theorem State.busy_iff (s : State) : s.busy = true ↔ s.op ≠ .idle := by simp [State.busy]

theorem State.not_busy_iff (s : State) : s.busy = false ↔ s.op = .idle := by simp [State.busy]

/-- The dispatch of an idle block (43_control.md R172). -/
theorem State.dispatch_idle (s : State) (f : State → State) (h : s.busy = false) :
    s.dispatch f = f (s.setDone false) := by simp [State.dispatch, h]

/-- The dispatch of a busy block (43_control.md R172, 10_state.md R43). -/
theorem State.dispatch_busy (s : State) (f : State → State) (h : s.busy = true) :
    s.dispatch f = s.setErr .busy := by simp [State.dispatch, h]

theorem State.dispatchSingle_idle (s : State) (f : State → State) (h : s.busy = false) :
    s.dispatchSingle f = (f (s.setDone false)).setDone true := by simp [State.dispatchSingle, State.dispatch, h]

theorem State.dispatchSingle_busy (s : State) (f : State → State) (h : s.busy = true) :
    s.dispatchSingle f = s.setErr .busy := by simp [State.dispatchSingle, State.dispatch, h]

/-- `raise` sets the cause's flag and leaves the other flags (60_exceptions.md R182). -/
theorem State.raise_errFlag (s : State) (e e' : Err) :
    (s.raise e).errFlag e' = (s.errFlag e' || decide (e' = e)) := by
  cases e <;> cases e' <;> simp [State.raise, State.setErr, State.setDone, State.errFlag]

/-- The checks of PACK all pass (41_bitpacker.md R110). -/
theorem State.planeCheck_true_eq_none (s : State) :
    s.planeCheck true = none ↔
      s.planeW % 8 = 0 ∧ s.planeH % 8 = 0 ∧ s.src.toNat + s.planeW * s.planeH ≤ s.memBytes ∧
        s.dst.toNat + s.planeW * s.planeH / 8 ≤ s.memBytes ∧
        ¬Overlap s.src.toNat (s.planeW * s.planeH) s.dst.toNat (s.planeW * s.planeH / 8) := by
  simp only [State.planeCheck, State.InRange]
  split_ifs <;> (simp_all; try tauto)

/-- The checks of ASCAN all pass (41_bitpacker.md R110). -/
theorem State.planeCheck_false_eq_none (s : State) :
    s.planeCheck false = none ↔
      s.planeW % 8 = 0 ∧ s.planeH % 8 = 0 ∧ s.src.toNat + s.planeW * s.planeH ≤ s.memBytes := by
  simp only [State.planeCheck, State.InRange]
  split_ifs <;> (simp_all; try tauto)

/-- The checks of ENCODE all pass (42_b64encoder.md R145). -/
theorem State.encodeCheck_eq_none (s : State) :
    s.encodeCheck = none ↔
      s.src.toNat + s.inputLen ≤ s.memBytes ∧ s.dst.toNat + encLength s.inputLen ≤ s.memBytes ∧
        ¬Overlap s.src.toNat s.inputLen s.dst.toNat (encLength s.inputLen) := by
  simp only [State.encodeCheck, State.InRange]
  split_ifs <;> simp_all

/-- `emitAll` writes no register but ENC_COUNT. -/
theorem State.emitAll_eq (s : State) (out : List Index) :
    s.emitAll out = { s with mem := (s.emitAll out).mem, encCount := (s.emitAll out).encCount } := by
  induction out generalizing s with
  | nil => rfl
  | cons c rest ih =>
    have h := ih (s.emit c)
    simp only [State.emitAll, List.foldl_cons] at h ⊢
    rw [h]
    rfl

/-- ENC_COUNT after the characters of `out`. -/
theorem State.emitAll_encCount (s : State) (out : List Index) :
    (s.emitAll out).encCount = s.encCount + BitVec.ofNat 32 out.length := by
  induction out generalizing s with
  | nil => simp [State.emitAll]
  | cons c rest ih =>
    have h := ih (s.emit c)
    simp only [State.emitAll, List.foldl_cons] at h ⊢
    rw [h, State.emit_encCount, List.length_cons, BitVec.add_assoc]
    congr 1
    apply BitVec.eq_of_toNat_eq
    simp [BitVec.toNat_add, BitVec.toNat_ofNat, Nat.add_comm]

/-- DONE plays no part in the characters. -/
theorem State.emitAll_setDone (s : State) (d : Bool) (out : List Index) :
    (s.setDone d).emitAll out = (s.emitAll out).setDone d := by
  induction out generalizing s with
  | nil => rfl
  | cons c rest ih => exact ih (s.emit c)

/-- One character. -/
theorem State.emitAll_one (s : State) (c : Index) : s.emitAll [c] = s.emit c := rfl

/-- Two characters, in order. -/
theorem State.emitAll_two (s : State) (c d : Index) : s.emitAll [c, d] = (s.emit c).emit d := rfl

/-- ENC_COUNT counts the character, as long as it does not wrap. -/
theorem State.emit_encCount_toNat (s : State) (c : Index) (hw : s.encCount.toNat + 1 < 2 ^ 32) :
    (s.emit c).encCount.toNat = s.encCount.toNat + 1 := by
  rw [State.emit_encCount, BitVec.toNat_add]
  exact Nat.mod_eq_of_lt hw

/-- The next character goes one address further. -/
theorem State.emit_charAddr (s : State) (c : Index) (hw : s.encCount.toNat + 1 < 2 ^ 32) :
    (s.emit c).charAddr = s.charAddr + 1 := by
  simp only [State.charAddr, State.emit_encCount_toNat s c hw, State.emit_dst]; omega

/-- `emitAll` leaves every byte outside the characters' addresses. -/
theorem State.emitAll_memRead_outside (s : State) (out : List Index) (hw : s.encCount.toNat + out.length < 2 ^ 32)
    (a : Nat) (ha : a < s.charAddr ∨ s.charAddr + out.length ≤ a) : (s.emitAll out).memRead a = s.memRead a := by
  induction out generalizing s with
  | nil => rfl
  | cons c rest ih =>
    rw [List.length_cons] at hw ha
    have h1 := State.emit_encCount_toNat s c (by omega)
    have h2 := State.emit_charAddr s c (by omega)
    have h := ih (s.emit c) (by omega) (by omega)
    exact h.trans (State.memRead_emit_other s c a (by omega))

/-- The j-th character's code lands j addresses past DST + ENC_COUNT (20_memory.md R54). -/
theorem State.emitAll_memRead_at (s : State) (out : List Index) (hw : s.encCount.toNat + out.length < 2 ^ 32)
    (j : Nat) (c : Index) (hj : out[j]? = some c) : (s.emitAll out).memRead (s.charAddr + j) = charCode c := by
  induction out generalizing s j with
  | nil => simp at hj
  | cons d rest ih =>
    rw [List.length_cons] at hw
    have h1 := State.emit_encCount_toNat s d (by omega)
    have h2 := State.emit_charAddr s d (by omega)
    cases j with
    | zero =>
      have hd : d = c := by simpa using hj
      subst hd
      exact (State.emitAll_memRead_outside (s.emit d) rest (by omega) _ (by omega)).trans
        (State.memRead_emit_same s d)
    | succ j =>
      have h := ih (s.emit d) (by omega) j (by simpa using hj)
      rwa [h2, Nat.add_right_comm, Nat.add_assoc] at h

/-- `feedByte` writes PHASE, LEFTOVER, ENC_COUNT and the memory, and nothing else. -/
theorem State.feedByte_eq (s : State) (b : Byte) :
    s.feedByte b = { s with
      mem := (s.feedByte b).mem
      encCount := s.encCount + BitVec.ofNat 32 (encStep s.phase s.leftover b).1.length
      phase := (encStep s.phase s.leftover b).2.1
      leftover := (encStep s.phase s.leftover b).2.2 } := by
  have h := State.emitAll_eq s (encStep s.phase s.leftover b).1
  have hc := State.emitAll_encCount s (encStep s.phase s.leftover b).1
  simp only [State.feedByte, State.setStream]
  rw [← hc]
  rw [h]

/-- `flushStream` writes PHASE, LEFTOVER, ENC_COUNT and the memory, and nothing else. -/
theorem State.flushStream_eq (s : State) :
    s.flushStream = { s with
      mem := s.flushStream.mem
      encCount := s.encCount + BitVec.ofNat 32 (encTail s.phase s.leftover).length
      phase := 0
      leftover := 0 } := by
  have h := State.emitAll_eq s (encTail s.phase s.leftover)
  have hc := State.emitAll_encCount s (encTail s.phase s.leftover)
  simp only [State.flushStream, State.setStream]
  rw [← hc]
  rw [h]

theorem State.memRead_feedByte (s : State) (b : Byte) (a : Nat) :
    (s.feedByte b).memRead a = (s.emitAll (encStep s.phase s.leftover b).1).memRead a := rfl

theorem State.memRead_flushStream (s : State) (a : Nat) :
    s.flushStream.memRead a = (s.emitAll (encTail s.phase s.leftover)).memRead a := rfl

/-- The number of characters EncStep gives is nout of EBYTE (42_b64encoder.md R143). -/
theorem State.encStep_length (s : State) (b : Byte) : (encStep s.phase s.leftover b).1.length = s.ebyteOut := by
  unfold encStep State.ebyteOut; split <;> rfl

/-- The number of characters EncTail gives is nout of EFLUSH (42_b64encoder.md R144). -/
theorem State.encTail_length (s : State) : (encTail s.phase s.leftover).length = s.eflushOut := by
  unfold encTail State.eflushOut; split_ifs <;> simp_all

/-- `emitAll` inside the memory keeps the canonical form. -/
theorem State.emitAll_wf (s : State) (out : List Index) (hf : Memory.wf s.memBytes s.mem)
    (hr : s.charAddr + out.length ≤ s.memBytes) (hw : s.encCount.toNat + out.length < 2 ^ 32) :
    Memory.wf s.memBytes (s.emitAll out).mem := by
  induction out generalizing s with
  | nil => exact hf
  | cons c rest ih =>
    have hlen : (c :: rest).length = rest.length + 1 := rfl
    have h1 := State.emit_encCount_toNat s c (by omega)
    have h2 := State.emit_charAddr s c (by omega)
    have h3 := State.emit_memBytes s c
    have h := ih (s.emit c) ?_ (by omega) (by omega)
    · rwa [h3] at h
    · exact Memory.insert_wf _ _ _ _ hf (by omega)

theorem State.feedByte_setDone (s : State) (d : Bool) (b : Byte) :
    (s.setDone d).feedByte b = (s.feedByte b).setDone d := by
  simp only [State.feedByte, State.setDone_phase, State.setDone_leftover, State.emitAll_setDone]
  rfl

theorem State.flushStream_setDone (s : State) (d : Bool) : (s.setDone d).flushStream = s.flushStream.setDone d := by
  simp only [State.flushStream, State.setDone_phase, State.setDone_leftover, State.emitAll_setDone]
  rfl

theorem State.raise_setDone (s : State) (d : Bool) (e : Err) : (s.setDone d).raise e = s.raise e := by
  cases e <;> rfl

@[simp] theorem State.setDone_setDone (s : State) (d d' : Bool) : (s.setDone d).setDone d' = s.setDone d' := rfl

@[simp] theorem State.raise_setDone_true (s : State) (e : Err) : (s.raise e).setDone true = s.raise e := by
  cases e <;> rfl

/-- What a PACK micro-step can do (41_bitpacker.md R106). -/
theorem packStep_cases (s t : State) (h : packStep s = .next t) :
    (s.pkCount.toNat < s.packedLen ∧ s.PackAccessOk ∧
      t = State.advanceTile { s with
        mem := Memory.insert s.mem (s.packedAddr s.pkCount.toNat) s.tileRowByte, pkCount := s.pkCount + 1 }) ∨
    (¬s.pkCount.toNat < s.packedLen ∧ t = s.complete) := by
  unfold packStep at h
  split_ifs at h with h1 h2
  · exact .inl ⟨h1, h2, by injection h with h; exact h.symm⟩
  · exact .inr ⟨h1, by injection h with h; exact h.symm⟩

/-- What an ASCAN micro-step can do (41_bitpacker.md R108). -/
theorem ascanStep_cases (s t : State) (h : ascanStep s = .next t) :
    (s.aj < s.planeW * s.planeH ∧ s.src.toNat + s.aj < s.memBytes ∧
      t = { s with
        alphaPresent := s.alphaPresent || decide (s.memRead (s.src.toNat + s.aj) ≠ 0xFF#8), aj := s.aj + 1 }) ∨
    (¬s.aj < s.planeW * s.planeH ∧ t = s.complete) := by
  unfold ascanStep at h
  split_ifs at h with h1 h2
  · exact .inl ⟨h1, h2, by injection h with h; exact h.symm⟩
  · exact .inr ⟨h1, by injection h with h; exact h.symm⟩

/-- What an ENCODE micro-step can do (42_b64encoder.md R146). -/
theorem encodeStep_cases (s t : State) (h : encodeStep s = .next t) :
    (s.ek.toNat < s.inputLen ∧ s.inputAddr s.ek.toNat < s.memBytes ∧ s.InRange s.charAddr s.ebyteOut ∧
      t = { s.feedByte (s.memRead (s.inputAddr s.ek.toNat)) with ek := s.ek + 1 }) ∨
    (¬s.ek.toNat < s.inputLen ∧ (s.eflushOut = 0 ∨ s.InRange s.charAddr s.eflushOut) ∧
      t = s.flushStream.complete) := by
  unfold encodeStep at h
  split_ifs at h with h1 h2 h3
  · refine .inl ⟨h1, h2.1, h2.2, ?_⟩
    injection h with h
    rw [← h, State.feedByte_eq]
  · exact .inr ⟨h1, h3, by injection h with h; exact h.symm⟩

/-- What an engine turn can do (10_state.md R35). -/
theorem engineStep_cases (s t : State) (h : engineStep s = .next t) :
    (s.op = .idle ∧ t = s) ∨ (s.op = .pack ∧ packStep s = .next t) ∨ (s.op = .ascan ∧ ascanStep s = .next t) ∨
      (s.op = .encode ∧ encodeStep s = .next t) := by
  unfold engineStep at h
  split at h
  · rename_i ho
    exact .inl ⟨ho, by injection h with h; exact h.symm⟩
  · rename_i ho
    exact .inr (.inl ⟨ho, h⟩)
  · rename_i ho
    exact .inr (.inr (.inl ⟨ho, h⟩))
  · rename_i ho
    exact .inr (.inr (.inr ⟨ho, h⟩))

end Sys2Proof.Machine
end

