-- ==== Sys2Proof/Laws/PerInstr.lean ====
section
/-! SUPPORT. A law stated instruction by instruction: the word of each instruction satisfies its own row of the
opcode map and no other row (30_encoding.md R72, R74), and the instruction is well-formed. -/

namespace Sys2Proof.Laws

/-- The encoding of i satisfies exactly the row of i: "The table is the whole opcode space", and its rows never
overlap (30_encoding.md R72, R74). -/
def RowMatch.Statement (i : Instr) : Prop :=
  i.WellFormed ∧ ∀ r ∈ opcodeRows, r.Selects (encode i) ↔ r = i.row

/-- An instruction without an operand: the eight rows are tried one by one. -/
theorem RowMatch.nop : RowMatch.Statement .nop := ⟨trivial, by decide⟩

theorem RowMatch.srst : RowMatch.Statement .srst := ⟨trivial, by decide⟩

theorem RowMatch.pack : RowMatch.Statement .pack := ⟨trivial, by decide⟩

theorem RowMatch.ascan : RowMatch.Statement .ascan := ⟨trivial, by decide⟩

theorem RowMatch.einit : RowMatch.Statement .einit := ⟨trivial, by decide⟩

/-- EBYTE, for each of its 256 immediates. -/
theorem RowMatch.ebyte (imm : Byte) : RowMatch.Statement (.ebyte imm) := by
  refine ⟨Nat.le_of_lt_succ imm.isLt, ?_⟩
  revert imm
  decide +kernel

theorem RowMatch.eflush : RowMatch.Statement .eflush := ⟨trivial, by decide⟩

theorem RowMatch.encode : RowMatch.Statement .encode := ⟨trivial, by decide⟩

end Sys2Proof.Laws
end

