-- ==== Sys2Proof/Laws/Step.lean ====
section
/-! SUPPORT. What a command, a host action and a step of the machine can do, said once (inversion lemmas). -/

namespace Sys2Proof.Machine

/-- A busy block ignores every command but SRST (10_state.md R43). -/
theorem exec_busy (i : Instr) (s : State) (hi : i ≠ .srst) (h : s.busy = true) : exec i s = .next (s.setErr .busy) := by
  cases i <;> first
    | exact absurd rfl hi
    | simp only [exec, execNop, execPack, execAscan, execEinit, execEbyte, execEflush, execEncode,
        State.dispatch_busy _ _ h, State.dispatchSingle_busy _ _ h]

theorem planeCheck_ne_busy {s : State} {d : Bool} {e : Err} (h : s.planeCheck d = some e) : e ≠ .busy := by
  simp only [State.planeCheck] at h
  split_ifs at h <;> simp_all <;> (subst h; simp)

theorem encodeCheck_ne_busy {s : State} {e : Err} (h : s.encodeCheck = some e) : e ≠ .busy := by
  simp only [State.encodeCheck] at h
  split_ifs at h <;> simp_all <;> (subst h; simp)

/-- What a command can do: be ignored, reset, be rejected with one error, complete, or start (43_control.md R172). -/
theorem exec_cases (i : Instr) (s t : State) (h : exec i s = .next t) :
    (i ≠ .srst ∧ s.busy = true ∧ t = s.setErr .busy) ∨
    (i = .srst ∧ t = s.softReset) ∨
    (s.busy = false ∧
      ((∃ e, e ≠ .busy ∧ t = s.raise e) ∨
       (i = .nop ∧ t = s.setDone true) ∨
       (i = .pack ∧ s.planeCheck true = none ∧ t = (s.setDone false).startPack) ∨
       (i = .ascan ∧ s.planeCheck false = none ∧ t = (s.setDone false).startAscan) ∨
       (i = .einit ∧ t = { s with done := true, phase := 0, leftover := 0, encCount := 0 }) ∨
       (∃ b, i = .ebyte b ∧ s.InRange s.charAddr s.ebyteOut ∧ t = (s.feedByte b).setDone true) ∨
       (i = .eflush ∧ (s.eflushOut = 0 ∨ s.InRange s.charAddr 1) ∧ t = s.flushStream.setDone true) ∨
       (i = .encode ∧ s.encodeCheck = none ∧ t = (s.setDone false).startEncode))) := by
  by_cases hs : i = .srst
  · subst hs
    refine .inr (.inl ⟨rfl, ?_⟩)
    injection h with h
    exact h.symm
  cases hb : s.busy with
  | true =>
    rw [exec_busy i s hs hb] at h
    injection h with h
    exact .inl ⟨hs, rfl, h.symm⟩
  | false =>
    refine .inr (.inr ⟨rfl, ?_⟩)
    cases i with
    | srst => exact absurd rfl hs
    | nop =>
      simp only [exec, execNop, State.dispatchSingle_idle _ _ hb] at h
      injection h with h
      exact .inr (.inl ⟨rfl, h.symm⟩)
    | pack =>
      simp only [exec, execPack, State.dispatch_idle _ _ hb] at h
      injection h with h
      split at h
      · rename_i e he
        exact .inl ⟨e, planeCheck_ne_busy he, by rw [← h, State.raise_setDone]⟩
      · rename_i he
        exact .inr (.inr (.inl ⟨rfl, he, h.symm⟩))
    | ascan =>
      simp only [exec, execAscan, State.dispatch_idle _ _ hb] at h
      injection h with h
      split at h
      · rename_i e he
        exact .inl ⟨e, planeCheck_ne_busy he, by rw [← h, State.raise_setDone]⟩
      · rename_i he
        exact .inr (.inr (.inr (.inl ⟨rfl, he, h.symm⟩)))
    | einit =>
      simp only [exec, execEinit, State.dispatchSingle_idle _ _ hb] at h
      injection h with h
      exact .inr (.inr (.inr (.inr (.inl ⟨rfl, h.symm⟩))))
    | ebyte b =>
      simp only [exec, execEbyte, State.dispatchSingle_idle _ _ hb] at h
      injection h with h
      split at h
      · rename_i hr
        refine .inr (.inr (.inr (.inr (.inr (.inl ⟨b, rfl, hr, ?_⟩)))))
        rw [← h, State.feedByte_setDone, State.setDone_setDone]
      · exact .inl ⟨.range, by simp, by rw [← h, State.raise_setDone, State.raise_setDone_true]⟩
    | eflush =>
      simp only [exec, execEflush, State.dispatchSingle_idle _ _ hb] at h
      injection h with h
      split at h
      · exact .inl ⟨.range, by simp, by rw [← h, State.raise_setDone, State.raise_setDone_true]⟩
      · rename_i hr
        refine .inr (.inr (.inr (.inr (.inr (.inr (.inl ⟨rfl, ?_, ?_⟩))))))
        · by_cases h0 : s.eflushOut = 0
          · exact .inl h0
          · exact .inr (by by_contra hn; exact hr ⟨Nat.pos_of_ne_zero h0, hn⟩)
        · rw [← h, State.flushStream_setDone, State.setDone_setDone]
    | encode =>
      simp only [exec, execEncode, State.dispatch_idle _ _ hb] at h
      injection h with h
      split at h
      · rename_i e he
        exact .inl ⟨e, encodeCheck_ne_busy he, by rw [← h, State.raise_setDone]⟩
      · rename_i he
        exact .inr (.inr (.inr (.inr (.inr (.inr (.inr ⟨rfl, he, h.symm⟩))))))

/-- `exec` always answers a next state: "The block itself never faults, hangs or stops" (60_exceptions.md R180). -/
theorem exec_next (i : Instr) (s : State) : ∃ t, exec i s = .next t := by
  cases i <;> exact ⟨_, rfl⟩

/-- What a host write to CMD can do (43_control.md R172). -/
theorem cmdWrite_cases (w : Word) (s t : State) (h : cmdWrite w s = .next t) :
    (∃ i, decode w = .ok i ∧ exec i s = .next t) ∨
    ((∃ e, decode w = .error e) ∧
      ((s.busy = true ∧ t = s.setErr .busy) ∨ (s.busy = false ∧ t = s.raise .cmd))) := by
  unfold cmdWrite at h
  split at h
  · rename_i i hi
    exact .inl ⟨i, hi, h⟩
  · rename_i e he
    refine .inr ⟨⟨e, he⟩, ?_⟩
    injection h with h
    cases hb : s.busy with
    | false => exact .inr ⟨rfl, by simpa [hb] using h.symm⟩
    | true => exact .inl ⟨rfl, by simpa [hb] using h.symm⟩

/-- A configuration register is written by an idle block, and ignored with ERR_BUSY by a busy one
(10_state.md R43). -/
theorem State.configWrite_cases (s : State) (f : State → State) :
    (s.busy = true ∧ s.configWrite f = s.setErr .busy) ∨ (s.busy = false ∧ s.configWrite f = f s) := by
  cases h : s.busy <;> simp [State.configWrite, h]

/-- The offset at which a register stands (10_state.md R23). -/
theorem regAt_eq_some {off : RegOffset} {r : Reg} (h : regAt off = some r) : off = r.offset := by
  revert off
  cases r <;> decide

@[simp] theorem regAt_offset (r : Reg) : regAt r.offset = some r := by cases r <;> rfl

/-- Only a whole word at a register's own offset reaches it (10_state.md R41). -/
theorem regAccessed_eq_some {size : AccessSize} {off : RegOffset} {r : Reg} (h : regAccessed size off = some r) :
    size = .word ∧ off = r.offset := by
  unfold regAccessed at h
  split_ifs at h with hs
  exact ⟨hs, regAt_eq_some h⟩

@[simp] theorem regAccessed_word_offset (r : Reg) : regAccessed .word r.offset = some r := by simp [regAccessed]

/-- The action `a` stores one configuration register (10_state.md R27 to R31). -/
def State.ConfigStored (s : State) (a : HostAction) (t : State) : Prop :=
  (∃ v, a = wreg .src v ∧ t = { s with src := v }) ∨ (∃ v, a = wreg .dst v ∧ t = { s with dst := v }) ∨
    (∃ v, a = wreg .width v ∧ t = { s with width := v.setWidth 16 }) ∨
    (∃ v, a = wreg .height v ∧ t = { s with height := v.setWidth 16 }) ∨
    (∃ v, a = wreg .length v ∧ t = { s with length := v })

/-- What one action of the host can do to the machine. -/
theorem hostAct_cases (a : HostAction) (s t : State) (h : hostAct a s = .next t) :
    t = s ∨ (∃ r, t = { s with hostRead := some r }) ∨ (a = .wait ∧ t = waitPoll s) ∨
    (s.busy = true ∧ t = s.setErr .busy) ∨ (∃ v, a = wreg .status v ∧ t = s.clearStatus v) ∨
    (s.busy = false ∧ s.ConfigStored a t) ∨
    (s.busy = false ∧ ∃ addr b, addr < s.memBytes ∧ a = .memWrite addr b ∧ t = s.memWrite addr b) ∨
    (s.busy = false ∧ t = s.raise .cmd) ∨
    (∃ w i, a = .command w ∧ decode w = .ok i ∧ exec i s = .next t) := by
  cases a with
  | regWrite size off v =>
    simp only [hostAct, regWrite] at h
    split at h
    · rename_i r hr
      obtain ⟨rfl, rfl⟩ := regAccessed_eq_some hr
      have hcfg : ∀ f : State → State, s.ConfigStored (wreg r v) (f s) →
          Host.Outcome.next (s.configWrite f) = (.next t : Result) →
          (s.busy = true ∧ t = s.setErr .busy) ∨ (s.busy = false ∧ s.ConfigStored (wreg r v) t) := by
        intro f hf ht
        injection ht with ht
        rcases s.configWrite_cases f with ⟨hb, hc⟩ | ⟨hb, hc⟩
        · exact .inl ⟨hb, ht ▸ hc⟩
        · exact .inr ⟨hb, by rw [← ht, hc]; exact hf⟩
      cases r with
      | id => injection h with h; exact .inl h.symm
      | cmd =>
        rcases cmdWrite_cases v s t h with ⟨i, hi, hx⟩ | ⟨-, hx | hx⟩
        · exact .inr (.inr (.inr (.inr (.inr (.inr (.inr (.inr ⟨v, i, rfl, hi, hx⟩)))))))
        · exact .inr (.inr (.inr (.inl hx)))
        · exact .inr (.inr (.inr (.inr (.inr (.inr (.inr (.inl hx)))))))
      | status => injection h with h; exact .inr (.inr (.inr (.inr (.inl ⟨v, rfl, h.symm⟩))))
      | src =>
        rcases hcfg _ (.inl ⟨_, rfl, rfl⟩) h with h1 | h1
        · exact .inr (.inr (.inr (.inl h1)))
        · exact .inr (.inr (.inr (.inr (.inr (.inl h1)))))
      | dst =>
        rcases hcfg _ (.inr (.inl ⟨_, rfl, rfl⟩)) h with h1 | h1
        · exact .inr (.inr (.inr (.inl h1)))
        · exact .inr (.inr (.inr (.inr (.inr (.inl h1)))))
      | width =>
        rcases hcfg _ (.inr (.inr (.inl ⟨_, rfl, rfl⟩))) h with h1 | h1
        · exact .inr (.inr (.inr (.inl h1)))
        · exact .inr (.inr (.inr (.inr (.inr (.inl h1)))))
      | height =>
        rcases hcfg _ (.inr (.inr (.inr (.inl ⟨_, rfl, rfl⟩)))) h with h1 | h1
        · exact .inr (.inr (.inr (.inl h1)))
        · exact .inr (.inr (.inr (.inr (.inr (.inl h1)))))
      | length =>
        rcases hcfg _ (.inr (.inr (.inr (.inr ⟨_, rfl, rfl⟩)))) h with h1 | h1
        · exact .inr (.inr (.inr (.inl h1)))
        · exact .inr (.inr (.inr (.inr (.inr (.inl h1)))))
      | pkCount => injection h with h; exact .inl h.symm
      | encCount => injection h with h; exact .inl h.symm
      | encState => injection h with h; exact .inl h.symm
    · injection h with h
      exact .inl h.symm
  | regRead size off =>
    injection h with h
    exact .inr (.inl ⟨_, h.symm⟩)
  | memWrite addr b =>
    simp only [hostAct, memPortWrite] at h
    split_ifs at h with ha hb
    · injection h with h
      exact .inr (.inr (.inr (.inl ⟨hb, h.symm⟩)))
    · injection h with h
      exact .inr (.inr (.inr (.inr (.inr (.inr (.inl ⟨by simpa using hb, addr, b, ha, rfl, h.symm⟩))))))
  | memRead addr =>
    simp only [hostAct, memPortRead] at h
    split_ifs at h with ha
    injection h with h
    exact .inr (.inl ⟨_, h.symm⟩)
  | wait =>
    injection h with h
    exact .inr (.inr (.inl ⟨rfl, h.symm⟩))

/-- What a turn of the host can do: take its next action, or nothing where it has none (30_encoding.md R76). -/
theorem hostStep_cases (s t : State) (h : hostStep s = .next t) :
    (s.program = [] ∧ t = s) ∨ ∃ a rest, s.program = a :: rest ∧ hostAct a { s with program := rest } = .next t := by
  unfold hostStep at h
  split at h
  · rename_i hp
    exact .inl ⟨hp, by injection h with h; exact h.symm⟩
  · rename_i a rest hp
    exact .inr ⟨a, rest, hp, h⟩

/-- What a step can do: one atomic step of the agent whose turn it is (20_memory.md R61). -/
theorem step_cases (s t : State) (h : step s = .next t) :
    (s.turn = .host ∧ hostStep s.takeTurn = .next t) ∨ (s.turn = .engine ∧ engineStep s.takeTurn = .next t) ∨
      (s.turn = .hardReset ∧ t = s.takeTurn.hardReset) := by
  unfold step at h
  split at h
  · rename_i ht
    exact .inl ⟨ht, h⟩
  · rename_i ht
    exact .inr (.inl ⟨ht, h⟩)
  · rename_i ht
    exact .inr (.inr ⟨ht, by injection h with h; exact h.symm⟩)

/-- A step whose turn is the engine's is the engine's micro-step. -/
theorem step_engine (s : State) (h : s.turn = .engine) : step s = engineStep s.takeTurn := by simp [step, h]

/-- A step whose turn is the host's is the host's. -/
theorem step_host (s : State) (h : s.turn = .host) : step s = hostStep s.takeTurn := by simp [step, h]

/-- With no turn fixed, a busy block's engine moves. -/
theorem State.turn_of_busy (s : State) (h : s.schedule = []) (hb : s.busy = true) : s.turn = .engine := by
  simp [State.turn, h, hb]

end Sys2Proof.Machine
end

