-- ==== Sys2Proof/Laws/Run.lean ====
section
/-! SUPPORT. Runs of many steps: the first step and the last step of a run taken off, and the induction over a run
during which one command stays in progress. -/

namespace Sys2Proof.Machine

/-- The first step of a run, for any machine. -/
theorem coreRun_next (M : Host.Core) (n : Nat) (s u : M.State) (h : M.step s = .next u) :
    M.run (n + 1) s = M.run n u := by
  simp [Host.Core.run, h]

/-- A run that reaches a state has a first step, for any machine. -/
theorem coreRun_next_inv (M : Host.Core) (n : Nat) (s t : M.State) (h : M.run (n + 1) s = .next t) :
    ∃ u, M.step s = .next u ∧ M.run n u = .next t := by
  simp only [Host.Core.run] at h
  split at h
  · rename_i u hu
    exact ⟨u, hu, h⟩
  · cases h
  · cases h

/-- The last step of a run, for any machine. -/
theorem coreRun_succ (M : Host.Core) (n : Nat) (s t : M.State) :
    M.run (n + 1) s = .next t ↔ ∃ u, M.run n s = .next u ∧ M.step u = .next t := by
  induction n generalizing s with
  | zero =>
    constructor
    · intro h
      obtain ⟨u, h1, h2⟩ := coreRun_next_inv M _ s t h
      injection h2 with h2
      exact ⟨s, rfl, h2 ▸ h1⟩
    · rintro ⟨u, h1, h2⟩
      injection h1 with h1
      subst h1
      exact coreRun_next M _ _ _ h2
  | succ n ih =>
    constructor
    · intro h
      obtain ⟨v, h1, h2⟩ := coreRun_next_inv M _ s t h
      obtain ⟨u, h3, h4⟩ := (ih v).1 h2
      exact ⟨u, (coreRun_next M _ _ _ h1).trans h3, h4⟩
    · rintro ⟨u, h1, h2⟩
      obtain ⟨v, h3, h4⟩ := coreRun_next_inv M _ s u h1
      exact (coreRun_next M _ _ _ h3).trans ((ih v).2 ⟨u, h4, h2⟩)

/-- The first step of a run of this machine. -/
theorem run_next (n : Nat) (s u : State) (h : step s = .next u) :
    Sys2Proof.core.run (n + 1) s = Sys2Proof.core.run n u := coreRun_next Sys2Proof.core n s u h

/-- The last step of a run of this machine. -/
theorem run_succ (n : Nat) (s t : State) :
    Sys2Proof.core.run (n + 1) s = .next t ↔ ∃ u, Sys2Proof.core.run n s = .next u ∧ step u = .next t :=
  coreRun_succ Sys2Proof.core n s t

theorem RunsUnder.zero_iff (o : Op) (s t : State) : RunsUnder o 0 s t ↔ t = s := by
  constructor
  · rintro ⟨h, -⟩
    injection h with h
    exact h.symm
  · rintro rfl
    exact ⟨rfl, fun m h => absurd h (by omega)⟩

/-- The last step of such a run. -/
theorem RunsUnder.last (o : Op) (n : Nat) (s t : State) (h : RunsUnder o (n + 1) s t) :
    ∃ u, RunsUnder o n s u ∧ u.op = o ∧ step u = .next t := by
  obtain ⟨h1, h2⟩ := h
  obtain ⟨u, hu, hs⟩ := (run_succ n s t).1 h1
  obtain ⟨u', hu', ho⟩ := h2 n (by omega)
  rw [hu] at hu'
  injection hu' with e
  subst e
  exact ⟨u, ⟨hu, fun m hm => h2 m (by omega)⟩, ho, hs⟩

/-- A step put before such a run. -/
theorem RunsUnder.cons (o : Op) (n : Nat) (s u t : State) (ho : s.op = o) (hs : step s = .next u)
    (h : RunsUnder o n u t) : RunsUnder o (n + 1) s t := by
  refine ⟨(run_next n s u hs).trans h.1, fun m hm => ?_⟩
  cases m with
  | zero => exact ⟨s, rfl, ho⟩
  | succ m =>
    obtain ⟨v, hv, hov⟩ := h.2 m (by omega)
    exact ⟨v, (run_next m s u hs).trans hv, hov⟩

/-- A step put after such a run. -/
theorem RunsUnder.snoc (o : Op) (n : Nat) (s u t : State) (h : RunsUnder o n s u) (ho : u.op = o)
    (hs : step u = .next t) : RunsUnder o (n + 1) s t := by
  refine ⟨(run_succ n s t).2 ⟨u, h.1, hs⟩, fun m hm => ?_⟩
  by_cases hmn : m < n
  · exact h.2 m hmn
  · have : m = n := by omega
    subst this
    exact ⟨u, h.1, ho⟩

/-- What holds at the start and is kept by every step that leaves the command in progress holds throughout. -/
theorem RunsUnder.induct (o : Op) (P : State → Prop) (s : State) (h0 : P s)
    (hstep : ∀ u t, P u → u.op = o → t.op = o → step u = .next t → P t) (n : Nat) (u : State)
    (h : RunsUnder o n s u) (hu : u.op = o) : P u := by
  induction n generalizing u with
  | zero => rw [(RunsUnder.zero_iff _ _ _).1 h]; exact h0
  | succ n ih =>
    obtain ⟨v, h1, h2, h3⟩ := RunsUnder.last _ _ _ _ h
    exact hstep v u (ih v h1 h2) h2 hu h3

end Sys2Proof.Machine
end

