-- ==== Sys2Proof/Tests/Slice0.lean ====
section
/-! SUPPORT. Tests. First what the checks refuse; then each command's word, written out from its fields in
30_encoding.md R70 to R72; then single steps whose expected values are the vectors of 95_test_vectors.md; last, for
each statement with hypotheses, a concrete case that meets them. -/

namespace Sys2Proof.Tests

open Sys2Proof.Machine

/-! ### Helpers -/

/-- The next state, where there is one. -/
def nextOf (r : Result) : Option State :=
  match r with
  | .next t => some t
  | .fault _ => none
  | .refused _ => none

theorem next_of_nextOf {r : Result} {t : State} (h : nextOf r = some t) : r = .next t := by
  cases r with
  | next s =>
    injection h with h
    rw [h]
  | fault f => cases h
  | refused f => cases h

/-- The state a result leads to; `base` where it leads to none. -/
def base : State := State.powerOn 0x1000

def after (r : Result) : State := (nextOf r).getD base

/-- n steps with the command `o` in progress before each of them. -/
def runWhile (o : Op) (n : Nat) (s : State) : Option State :=
  match n with
  | 0 => some s
  | k + 1 => if s.op = o then (nextOf (step s)).bind (runWhile o k) else none

theorem runsUnder_of_runWhile (o : Op) (n : Nat) (s t : State) (h : runWhile o n s = some t) :
    RunsUnder o n s t := by
  induction n generalizing s with
  | zero =>
    injection h with h
    exact (RunsUnder.zero_iff o s t).2 h.symm
  | succ n ih =>
    unfold runWhile at h
    split_ifs at h with ho
    cases hn : nextOf (step s) with
    | none => rw [hn] at h; cases h
    | some u =>
      rw [hn] at h
      exact RunsUnder.cons o n s u t ho (next_of_nextOf hn) (ih u h)

/-- Bytes listed from an address on. -/
def cells (a : Nat) (bytes : List Byte) : List Host.Cell :=
  match bytes with
  | [] => []
  | b :: rest => (a, b) :: cells (a + 1) rest

/-- An idle block with the plane of V63 (8×8, all 0xFF) at 0, and DST right after it (V101). -/
def packReady : State :=
  { base with width := 8, height := 8, dst := 0x40, mem := cells 0 (List.replicate 64 0xFF#8) }

/-- The same block once PACK is accepted. -/
def packing : State := after (exec .pack packReady)

/-- The same block once ASCAN is accepted. -/
def scanning : State := after (exec .ascan packReady)

/-- An idle block with the input of V115 (4D 61 6E FF) at 0x100, and DST 0x104. -/
def encodeReady : State :=
  { base with src := 0x100, dst := 0x104, length := 4, mem := cells 0x100 [0x4D#8, 0x61#8, 0x6E#8, 0xFF#8] }

/-- The same block once ENCODE is accepted. -/
def encoding : State := after (exec .encode encodeReady)

/-! ### What the checks refuse -/

theorem test_refuses_unknown_mnemonic : assemble ⟨"nop", none⟩ = .error .unknownMnemonic := by rfl
theorem test_refuses_wide_immediate : assemble ⟨"EBYTE", some 256⟩ = .error .immediateOutOfRange := by rfl
theorem test_refuses_missing_operand : assemble ⟨"EBYTE", none⟩ = .error .missingOperand := by rfl
theorem test_refuses_extra_operand : assemble ⟨"PACK", some 1⟩ = .error .unexpectedOperand := by rfl
theorem test_refuses_malformed_operand :
    assembleText ['E', 'B', 'Y', 'T', 'E', ' ', '#', '0', 'x'] = .error .malformedOperand := by rfl
theorem test_assembles_text :
    assembleText ['E', 'B', 'Y', 'T', 'E', ' ', '#', '0', 'x', '4', 'D'] = .ok (.ebyte 0x4D#8) ∧
    assembleText ['E', 'B', 'Y', 'T', 'E', ' ', '#', '7', '7'] = .ok (.ebyte 0x4D#8) ∧
    assembleText ['P', 'A', 'C', 'K'] = .ok .pack := by
  refine ⟨rfl, rfl, rfl⟩
theorem test_ill_formed_line : ¬AsmLine.WellFormed ⟨"EBYTE", some 256⟩ := by decide
theorem test_well_formed_line : AsmLine.WellFormed ⟨"EBYTE", some 255⟩ := by decide
theorem test_well_formed_instr : Instr.WellFormed (.ebyte 0xFF#8) := by decide
theorem test_ill_formed_write : ¬HostAction.WellFormed 0x1000 (.memWrite 0x1000 0) := by decide
theorem test_ill_formed_read : ¬HostAction.WellFormed 0x1000 (.memRead 0x1000) := by decide

/-- V93, V94, V96, V95: each ground of R73. -/
theorem test_reserved_words :
    decode 0x00010000#32 = .error .reservedField ∧ decode 0x00000110#32 = .error .immediateField ∧
    decode 0x00000101#32 = .error .immediateField ∧ decode 0x00000024#32 = .error .unknownOpcode := by
  refine ⟨rfl, rfl, rfl, rfl⟩

/-- Three lanes are no word. -/
theorem test_three_lanes : decodeLanes [0x10#8, 0#8, 0#8] = .error .notOneWord := by rfl

/-! ### Words written out: RSVD, IMM8, OPC -/

/-- One word from its fields (30_encoding.md R70). -/
def fields (rsvd : BitVec 16) (imm opc : Byte) : Word := rsvd ++ imm ++ opc

theorem test_word_nop : decode (fields 0#16 0b00000000#8 0b00000000#8) = .ok .nop := by rfl
theorem test_word_srst : decode (fields 0#16 0b00000000#8 0b00000001#8) = .ok .srst := by rfl
theorem test_word_pack : decode (fields 0#16 0b00000000#8 0b00010000#8) = .ok .pack := by rfl
theorem test_word_ascan : decode (fields 0#16 0b00000000#8 0b00010001#8) = .ok .ascan := by rfl
theorem test_word_einit : decode (fields 0#16 0b00000000#8 0b00100000#8) = .ok .einit := by rfl
theorem test_word_ebyte : decode (fields 0#16 0b01001101#8 0b00100001#8) = .ok (.ebyte 0x4D#8) := by rfl
theorem test_word_eflush : decode (fields 0#16 0b00000000#8 0b00100010#8) = .ok .eflush := by rfl
theorem test_word_encode : decode (fields 0#16 0b00000000#8 0b00100011#8) = .ok .encode := by rfl

/-- The EBYTE word in its byte lanes, lane 0 the low byte (20_memory.md R55). -/
theorem test_lanes_ebyte : decodeLanes [0x21#8, 0x6E#8, 0x00#8, 0x00#8] = .ok (.ebyte 0x6E#8) := by rfl

/-! ### Single steps: the vectors of 95_test_vectors.md -/

/-- V61: from STATUS 0x12, NOP leaves 0x12. -/
theorem test_nop_v61 :
    (after (exec .nop { base with done := true, errDim := true })).statusWord = 0x12#32 := by decide

/-- V62. -/
theorem test_srst_v62 :
    let t := after (exec .srst
      { base with
        done := true, alphaPresent := true, errDim := true, pkCount := 8, encCount := 11, phase := 1, leftover := 3,
        src := 0x100 })
    t.statusWord = 0x02#32 ∧ t.pkCount = 0 ∧ t.encCount = 0 ∧ t.encStateWord = 0 ∧ t.src = 0x100 := by decide

/-- V91: ERR_DIM before ERR_RANGE. -/
theorem test_pack_v91 :
    (after (exec .pack { base with width := 12, height := 8, src := 0xFFFF0000 })).statusWord = 0x12#32 := by decide

/-- V100: the regions overlap. -/
theorem test_pack_v100 : (after (exec .pack { packReady with dst := 0x20 })).statusWord = 0x42#32 := by decide

/-- V92. -/
theorem test_ascan_v92 : (after (exec .ascan { base with width := 8, height := 20 })).statusWord = 0x12#32 := by decide

/-- V67. -/
theorem test_einit_v67 :
    let t := after (exec .einit { base with phase := 1, leftover := 3, encCount := 5 })
    t.encStateWord = 0 ∧ t.encCount = 0 ∧ t.statusWord = 0x02#32 := by decide

/-- V70: the third byte of a group writes two characters. -/
theorem test_ebyte_v70 :
    let t := after (exec (.ebyte 0x6E) { base with dst := 0x40, encCount := 2, phase := 2, leftover := 1 })
    t.memRead 0x42 = 0x52#8 ∧ t.memRead 0x43 = 0x75#8 ∧ t.encCount = 4 ∧ t.encStateWord = 0 := by decide

/-- V104: the second character needs 0x1000, out of range. -/
theorem test_ebyte_v104 :
    let t := after (exec (.ebyte 0x61) { base with dst := 0xFFF, encCount := 1, phase := 1, leftover := 1 })
    t.statusWord = 0x22#32 ∧ t.encCount = 1 ∧ t.encStateWord = 0x0101#32 := by decide

/-- V71: the tail of FF. -/
theorem test_eflush_v71 :
    let t := after (exec .eflush { base with dst := 0x40, encCount := 1, phase := 1, leftover := 3 })
    t.memRead 0x41 = 0x44#8 ∧ t.encCount = 2 ∧ t.encStateWord = 0 := by decide

/-- V72: nothing is due. -/
theorem test_eflush_v72 :
    let t := after (exec .eflush { base with encCount := 4 })
    t.mem = [] ∧ t.encCount = 4 ∧ t.done = true := by decide

/-- V103: an empty region must still have base ≤ MEM_BYTES. -/
theorem test_encode_v103 : (after (exec .encode { base with src := 0x1001 })).statusWord = 0x22#32 := by decide

/-- V102: the regions overlap. -/
theorem test_encode_v102 :
    (after (exec .encode { base with src := 0x100, dst := 0x104, length := 8 })).statusWord = 0x42#32 := by decide

/-- V114, s = 8: the last row of a tile leads to the next tile. -/
theorem test_pack_step_v114 :
    let t := after (engineStep
      { packing with width := 16, tr := 7, pkCount := 7, mem := cells 0 (List.replicate 128 0xFF#8), dst := 0x80 })
    (t.tsx, t.tsy, t.tr, t.pkCount) = (8, 0, 0, 8) := by decide +kernel

/-- V116, micro-step 6: the byte FE is not opaque. -/
theorem test_ascan_step_v116 :
    let t := after (engineStep { scanning with aj := 5, mem := [(5, 0xFE#8)] })
    t.alphaPresent = true ∧ t.aj = 6 := by decide

/-- V115, step 3: two characters. -/
theorem test_encode_step_v115 :
    let t := after (engineStep { encoding with ek := 2, encCount := 2, phase := 2, leftover := 1 })
    t.ek = 3 ∧ t.memRead 0x106 = 0x52#8 ∧ t.memRead 0x107 = 0x75#8 ∧ t.encStateWord = 0 := by decide

/-- V80 to V83: write 1 to clear. -/
theorem test_status_v80_v83 :
    let s12 : State := { base with done := true, errDim := true }
    let s06 : State := { base with done := true, alphaPresent := true }
    (after (regWrite .word 0x08 0x10 s12)).statusWord = 0x02#32 ∧
    (after (regWrite .word 0x08 0xFFFFFFFF s12)).statusWord = 0x00#32 ∧
    (after (regWrite .word 0x08 0x02 s06)).statusWord = 0x04#32 ∧
    (after (regWrite .word 0x08 0x04 s06)).statusWord = 0x06#32 := by decide

/-- V74 to V78. -/
theorem test_register_port_v74_v78 :
    base.regRead .word 0x00 = 0x50444331#32 ∧ packing.regRead .word 0x2C = 0 ∧ packing.regRead .word 0x04 = 0 ∧
    (after (regWrite .word 0x14 0x12340018 base)).regRead .word 0x14 = 0x18#32 ∧
    nextOf (regWrite .word 0x20 5 base) = some base := by decide

/-- V110: a NOP during PACK is ignored with ERR_BUSY. -/
theorem test_busy_v110 : (after (step (packing.withCommand 0))).statusWord = 0x81#32 := by decide

/-- V20 to V25. -/
theorem test_encStep_vectors :
    encStep 0 0 0x4D = ([19], 1, 1) ∧ encStep 1 1 0x61 = ([25], 2, 1) ∧ encStep 2 1 0x6E = ([17, 46], 0, 0) ∧
    encStep 0 0 0xFF = ([63], 1, 3) ∧ encStep 1 3 0xFF = ([63], 2, 15) ∧ encStep 2 15 0xFF = ([63, 63], 0, 0) := by
  decide

/-- V48 and V53: `TZRu/D` and back. -/
theorem test_enc_v48 :
    (enc [0x4D, 0x61, 0x6E, 0xFF]).map charCode = [0x54#8, 0x5A#8, 0x52#8, 0x75#8, 0x2F#8, 0x44#8] ∧
    dec [19, 25, 17, 46] = some [0x4D#8, 0x61#8, 0x6E#8] := by decide

/-- V8: the diagonal. -/
theorem test_pack_v8 :
    packPlane (fun x y => if x = y then 255 else 0) 8 8 =
      [0x80#8, 0x40#8, 0x20#8, 0x10#8, 0x08#8, 0x04#8, 0x02#8, 0x01#8] := by decide +kernel

/-- V13's tile 2 (origin (0, 8)), last byte: only pixel (7, 15) is at the threshold. -/
theorem test_pack_v13 :
    (packPlane (fun x y => BitVec.ofNat 8 (16 * x + y)) 16 16)[23]? = some 0x01#8 := by decide +kernel

/-! ### Witnesses: for each statement with hypotheses, a case that meets them -/

/-- DecodeEncodeAgree, both sides, at the highest immediate. -/
theorem witness_DecodeEncodeAgree :
    decode 0x0000FF21#32 = .ok (.ebyte 0xFF#8) ∧ encode (.ebyte 0xFF#8) = 0x0000FF21#32 := by
  refine ⟨rfl, rfl⟩

/-- OpcodeMapSelects, last clause, at the lowest and the highest immediate. -/
theorem witness_OpcodeMapSelects :
    decode 0x00000021#32 = .ok (.ebyte 0x00#8) ∧ decode 0x0000FF21#32 = .ok (.ebyte 0xFF#8) := by
  refine ⟨rfl, rfl⟩

/-- ReservedWordsRaiseErrCmd: one word per ground, RSVD and IMM8 at their lowest bit, an idle and a busy state. -/
theorem witness_ReservedWordsRaiseErrCmd :
    (0x00000024#32).extractLsb' 0 8 ∉ [0x00#8, 0x01#8, 0x10#8, 0x11#8, 0x20#8, 0x21#8, 0x22#8, 0x23#8] ∧
    (0x00010021#32).extractLsb' 16 16 ≠ 0 ∧
    ((0x00000110#32).extractLsb' 8 8 ≠ 0 ∧ (0x00000110#32).extractLsb' 0 8 ≠ 0x21#8) ∧
    base.op = .idle ∧ packing.op ≠ .idle := by decide

/-- AssemblerGivesTheWords: the last immediate taken and the first refused. -/
theorem witness_AssemblerGivesTheWords : 255 ≤ 255 ∧ 255 < 256 := by decide

/-- StepRunsTheWrittenCommand, both clauses. -/
theorem witness_StepRunsTheWrittenCommand :
    let s := base.withCommand 0x4D21#32
    s.turn = .host ∧ s.program = .regWrite .word 0x04 0x4D21#32 :: [] ∧ decode 0x4D21#32 = .ok (.ebyte 0x4D#8) ∧
    decodeTableWord 32 0x4D21 = some (.ebyte 0x4D#8) := by
  refine ⟨rfl, rfl, rfl, rfl⟩

/-- StepIsOneAgentsTurn, each clause. -/
theorem witness_StepIsOneAgentsTurn :
    ({ base with schedule := [.engine] } : State).schedule = .engine :: [] ∧
    ({ base with schedule := [.host] } : State).schedule = .host :: [] ∧
    (packing.schedule = [] ∧ packing.op ≠ .idle) ∧ (base.schedule = [] ∧ base.op = .idle) ∧ base.program = [] := by
  decide

/-- HardResetAnyTime, in the middle of a PACK. -/
theorem witness_HardResetAnyTime :
    ({ packing with schedule := [.hardReset] } : State).schedule = .hardReset :: [] := by rfl

/-- StatusReadsBitByBit: the first reserved bit. EncStateReadsPhaseAndLeftover has no hypotheses. -/
theorem witness_StatusReadsBitByBit : 8 ≤ 8 := by decide

/-- StatusWriteOneToClear: a W1C bit and the bits beside it. -/
theorem witness_StatusWriteOneToClear :
    1 ∈ [1, 3, 4, 5, 6, 7] ∧ 7 ∈ [1, 3, 4, 5, 6, 7] ∧ 0 ∉ [1, 3, 4, 5, 6, 7] ∧ 2 ∉ [1, 3, 4, 5, 6, 7] ∧
    8 ∉ [1, 3, 4, 5, 6, 7] := by decide

/-- ConfigWritesStoreWhenIdle. -/
theorem witness_ConfigWritesStoreWhenIdle :
    base.op = .idle ∧ nextOf (regWrite .word 0x14 0xFFFFFFFF base) = some { base with width := 0xFFFF } ∧
    nextOf (regWrite .word 0x18 0xFFFFFFFF base) = some { base with height := 0xFFFF } := by decide

/-- BusyWritesAreIgnored: NOP's word, and V113's, are not SRST's. -/
theorem witness_BusyWritesAreIgnored :
    packing.op ≠ .idle ∧ 0x0C#6 ∈ [0x0C#6, 0x10#6, 0x14#6, 0x18#6, 0x1C#6] ∧ 0x00000000#32 ≠ 0x00000001#32 ∧
    0x00000101#32 ≠ 0x00000001#32 ∧
    0x3C#6 ∈ [0x00#6, 0x20#6, 0x24#6, 0x28#6, 0x2C#6, 0x30#6, 0x34#6, 0x38#6, 0x3C#6] := by decide

/-- UnreachedAccessesDoNothing: a half word, a misaligned word, the first and the last reserved offset, and the edges
of the reserved fields. -/
theorem witness_UnreachedAccessesDoNothing :
    AccessSize.half ≠ .word ∧ (0x05#6).toNat % 4 ≠ 0 ∧ 0x2C ≤ (0x2C#6).toNat ∧ 0x2C ≤ (0x3F#6).toNat ∧
    0x28#6 ∈ [0x00#6, 0x20#6, 0x24#6, 0x28#6] ∧ 16 ≤ 16 ∧ 8 ≤ 8 ∧ ((2 ≤ 2 ∧ 2 < 8) ∨ 14 ≤ 2) ∧
    ((2 ≤ 14 ∧ 14 < 8) ∨ 14 ≤ 14) := by decide

/-- HostMemoryPort: the last address, idle and busy. -/
theorem witness_HostMemoryPort :
    0xFFF < base.memBytes ∧ base.op = .idle ∧ 0xFFF < packing.memBytes ∧ packing.op ≠ .idle ∧ 0xFFE ≠ 0xFFF := by
  decide

/-- AccessOutsideTheBlockIsRefused: the first address outside. -/
theorem witness_AccessOutsideTheBlockIsRefused : base.memBytes ≤ 0x1000 := by decide

/-- WaitPollsStatus, busy and idle. -/
theorem witness_WaitPollsStatus :
    ({ packing with program := [.wait] } : State).program = .wait :: [] ∧ packing.op ≠ .idle ∧
    ({ base with program := [.wait] } : State).program = .wait :: [] ∧ base.op = .idle := by decide

/-- ErrorsArePrecise: a PACK of a width that is no multiple of 8 (V90), a PACK while busy, and a
micro-step. -/
theorem witness_ErrorsArePrecise :
    let s : State := { base with width := 12, height := 8 }
    s.op = .idle ∧ exec .pack s = .next (after (exec .pack s)) ∧ s.errFlag .dim = false ∧
    (after (exec .pack s)).errFlag .dim = true ∧ Err.cmd ≠ .dim ∧
    packing.op ≠ .idle ∧ Instr.pack ≠ .srst ∧ engineStep packing = .next (after (engineStep packing)) := by
  refine ⟨rfl, rfl, rfl, rfl, by decide, by decide, by decide, rfl⟩

/-- OneErrorInOrder: each check fails by one, the checks before it pass at their limit. -/
theorem witness_OneErrorInOrder :
    let d1 : State := { base with width := 9, height := 8 }
    let d2 : State := { base with width := 8, height := 9 }
    let r1 : State := { base with width := 8, height := 8, src := 0xFC1 }
    let r2 : State := { base with width := 8, height := 8, src := 0xFC0, dst := 0xFF9 }
    let ov : State := { base with width := 8, height := 8, dst := 0x3F }
    let e1 : State := { base with src := 0x1001 }
    let e2 : State := { base with dst := 0xFFF, length := 1 }
    let eo : State := { base with src := 0x100, dst := 0xFF, length := 1 }
    let wh := fun u : State => u.width.toNat * u.height.toNat
    (packing.op ≠ .idle ∧ 0x00000000#32 ≠ 0x00000001#32) ∧ (base.op = .idle ∧ ∀ i, decode 0x00000024#32 ≠ .ok i) ∧
    (d1.op = .idle ∧ d1.width.toNat % 8 ≠ 0) ∧ (d2.op = .idle ∧ d2.height.toNat % 8 ≠ 0) ∧
    (r1.op = .idle ∧ r1.width.toNat % 8 = 0 ∧ r1.height.toNat % 8 = 0 ∧ r1.memBytes < r1.src.toNat + wh r1) ∧
    (r2.op = .idle ∧ r2.src.toNat + wh r2 ≤ r2.memBytes ∧ r2.memBytes < r2.dst.toNat + wh r2 / 8) ∧
    (ov.op = .idle ∧ ov.src.toNat + wh ov ≤ ov.memBytes ∧ ov.dst.toNat + wh ov / 8 ≤ ov.memBytes ∧
      Overlap ov.src.toNat (wh ov) ov.dst.toNat (wh ov / 8)) ∧
    (e1.op = .idle ∧ e1.memBytes < e1.src.toNat + e1.length.toNat) ∧
    (e2.op = .idle ∧ e2.memBytes < e2.dst.toNat + encLength e2.length.toNat) ∧
    (eo.op = .idle ∧ eo.src.toNat + eo.length.toNat ≤ eo.memBytes ∧
      eo.dst.toNat + encLength eo.length.toNat ≤ eo.memBytes ∧
      Overlap eo.src.toNat eo.length.toNat eo.dst.toNat (encLength eo.length.toNat)) := by
  refine ⟨by decide, ⟨rfl, fun i h => ?_⟩, by decide, by decide, by decide, by decide, by decide, by decide,
    by decide, by decide⟩
  cases h

/-- NopOnlySetsDone: idle, busy, and a word with OPC = 0x00 that is not NOP's. -/
theorem witness_NopOnlySetsDone :
    base.op = .idle ∧ packing.op ≠ .idle ∧ decode 0x00000000#32 = .ok .nop ∧
    (0x00000100#32).extractLsb' 0 8 = 0x00#8 ∧ 0x00000100#32 ≠ 0x00000000#32 := by
  refine ⟨rfl, by decide, rfl, by decide, by decide⟩

/-- DispatchDoneAndBusy: a busy and an idle block, a started command, and one that finds ERR_BUSY set. -/
theorem witness_DispatchDoneAndBusy :
    Instr.nop ≠ .srst ∧ packing.op ≠ .idle ∧ packReady.op = .idle ∧ packing.op = .pack ∧
    (after (exec .nop { base with errBusy := true })).errBusy = true := by decide

/-- MultiStepCommandsStart: the regions end at MEM_BYTES, or touch (V101). -/
theorem witness_MultiStepCommandsStart :
    let s : State := { base with width := 8, height := 8, src := 0xFC0, dst := 0xFB8 }
    let wh := s.width.toNat * s.height.toNat
    let u : State := { base with src := 0xFFF, dst := 0xFFD, length := 1 }
    s.op = .idle ∧ s.width.toNat % 8 = 0 ∧ s.height.toNat % 8 = 0 ∧ s.src.toNat + wh ≤ s.memBytes ∧
    s.dst.toNat + wh / 8 ≤ s.memBytes ∧ ¬Overlap s.src.toNat wh s.dst.toNat (wh / 8) ∧
    u.op = .idle ∧ u.src.toNat + u.length.toNat ≤ u.memBytes ∧
    u.dst.toNat + encLength u.length.toNat ≤ u.memBytes ∧
    ¬Overlap u.src.toNat u.length.toNat u.dst.toNat (encLength u.length.toNat) := by decide

/-- EinitStartsAStream. -/
theorem witness_EinitStartsAStream :
    base.op = .idle ∧ exec .einit base = .next (after (exec .einit base)) := by
  refine ⟨rfl, rfl⟩

/-- EbyteFeedsOneByte: the last address that fits, for one character and for two, and the first that does not. -/
theorem witness_EbyteFeedsOneByte :
    let one : State := { base with dst := 0xFFF }
    let two : State := { base with dst := 0xFFC, encCount := 2, phase := 2 }
    let out : State := { base with dst := 0xFFF, phase := 2 }
    let next := fun u : State => u.dst.toNat + u.encCount.toNat
    (one.op = .idle ∧ Config.MemBytesOk one.memBytes ∧
      next one + (if one.phase = 2 then 2 else 1) ≤ one.memBytes ∧
      (encStep one.phase one.leftover 0x4D).1[0]? = some 19) ∧
    (two.op = .idle ∧ Config.MemBytesOk two.memBytes ∧
      next two + (if two.phase = 2 then 2 else 1) ≤ two.memBytes) ∧
    (out.op = .idle ∧ out.memBytes < next out + (if out.phase = 2 then 2 else 1)) ∧
    decode 0x00004D21#32 = .ok (.ebyte 0x4D#8) := by
  refine ⟨by decide, by decide, by decide, rfl⟩

/-- EflushEndsTheStream: PHASE 0; a tail at the last address; a tail at the first address outside. -/
theorem witness_EflushEndsTheStream :
    let fits : State := { base with phase := 1, dst := 0xFFF }
    let out : State := { base with phase := 2, dst := 0x1000 }
    let t := after (exec .eflush base)
    (base.op = .idle ∧ base.phase = 0) ∧
    (fits.op = .idle ∧ fits.phase ≠ 0 ∧ fits.dst.toNat + fits.encCount.toNat < fits.memBytes) ∧
    (out.op = .idle ∧ out.phase ≠ 0 ∧ out.memBytes ≤ out.dst.toNat + out.encCount.toNat) ∧
    exec .eflush base = .next t ∧ exec .eflush t = .next (after (exec .eflush t)) := by
  refine ⟨by decide, by decide, by decide, rfl, rfl⟩

/-- PackMicroStep: the last row, whose byte and pixels are in range; the moves of the traverser; the completion. -/
theorem witness_PackMicroStep :
    let s : State := { packing with pkCount := 7, tr := 7 }
    let u : State := { packing with width := 16, tr := 7 }
    let v : State := { packing with pkCount := 8 }
    let more := fun x : State => x.op = .pack ∧ x.pkCount.toNat < x.width.toNat * x.height.toNat / 8 ∧
      x.src.toNat + (x.tsy + x.tr) * x.width.toNat + x.tsx + 7 < x.memBytes ∧
      x.dst.toNat + x.pkCount.toNat < x.memBytes
    (more packing ∧ packing.tr + 1 ≠ 8) ∧ (more s ∧ s.tr + 1 = 8 ∧ s.tsx + 8 = s.width.toNat) ∧
    (more u ∧ u.tr + 1 = 8 ∧ u.tsx + 8 ≠ u.width.toNat) ∧
    (v.op = .pack ∧ v.width.toNat * v.height.toNat / 8 ≤ v.pkCount.toNat) := by
  refine ⟨⟨⟨?_, ?_, ?_, ?_⟩, ?_⟩, ⟨⟨?_, ?_, ?_, ?_⟩, ?_, ?_⟩, ⟨⟨?_, ?_, ?_, ?_⟩, ?_, ?_⟩, ?_, ?_⟩ <;> decide

/-- AscanMicroStep: the last pixel, and the completion. -/
theorem witness_AscanMicroStep :
    let s : State := { scanning with aj := 63 }
    let t : State := { scanning with aj := 64 }
    (s.op = .ascan ∧ s.aj < s.width.toNat * s.height.toNat ∧ s.src.toNat + s.aj < s.memBytes) ∧
    (t.op = .ascan ∧ t.width.toNat * t.height.toNat ≤ t.aj) := by decide

/-- EncodeMicroStep: the last byte, the completion at PHASE 0, and the flush of a tail at the last address. -/
theorem witness_EncodeMicroStep :
    let s : State := { encoding with ek := 3, encCount := 4 }
    let u : State := { encoding with ek := 4, phase := 1, encCount := 0xEFB }
    let v : State := { encoding with ek := 4 }
    (s.op = .encode ∧ Config.MemBytesOk s.memBytes ∧ s.ek.toNat < s.length.toNat ∧
      s.src.toNat + s.ek.toNat < s.memBytes ∧
      s.dst.toNat + s.encCount.toNat + (if s.phase = 2 then 2 else 1) ≤ s.memBytes) ∧
    (v.op = .encode ∧ Config.MemBytesOk v.memBytes ∧ v.length.toNat ≤ v.ek.toNat ∧ v.phase = 0) ∧
    (u.op = .encode ∧ Config.MemBytesOk u.memBytes ∧ u.length.toNat ≤ u.ek.toNat ∧ u.phase ≠ 0 ∧
      u.dst.toNat + u.encCount.toNat < u.memBytes) := by decide

/-- TraversalVisitsEveryPixelOnce: the last visited index of a 16×8 plane. -/
theorem witness_TraversalVisitsEveryPixelOnce : 16 % 8 = 0 ∧ 8 % 8 = 0 ∧ 127 < 16 * 8 := by decide

/-- PackedPlaneClosedForm: an empty plane (V14) and a 16×8 one. -/
theorem witness_PackedPlaneClosedForm : 0 % 8 = 0 ∧ 8 % 8 = 0 ∧ 16 % 8 = 0 := by decide

/-- UnpackInvertsPack: the last pixel of a 16×8 plane. -/
theorem witness_UnpackInvertsPack : 16 % 8 = 0 ∧ 8 % 8 = 0 ∧ 15 < 16 ∧ 7 < 8 := by decide

/-- AlphabetCodes: the ends of the ranges. -/
theorem witness_AlphabetCodes :
    (25#6).toNat ≤ 25 ∧ (26 ≤ (26#6).toNat ∧ (51#6).toNat ≤ 51) ∧ (52 ≤ (52#6).toNat ∧ (61#6).toNat ≤ 61) ∧
    (62#6).toNat = 62 ∧ (63#6).toNat = 63 ∧ charCode 0 = charCode 0 := by decide

/-- EncStepArithmetic: the greatest leftover of PHASE 2, and of PHASE 0. -/
theorem witness_EncStepArithmetic :
    (15#6).toNat < 4 ^ (2 : Fin 3).val ∧ (2 : Fin 3).val = 2 ∧ (0#6).toNat < 4 ^ (0 : Fin 3).val ∧
    (0 : Fin 3).val < 2 := by decide

/-- EncodingInjectiveWithShortTail: one byte, and two. -/
theorem witness_EncodingInjectiveWithShortTail :
    [0xFF#8].length = [0xFF#8].length ∧ enc [0xFF#8] = enc [0xFF#8] ∧ (enc [0xFF#8]).getLast? = some 3 ∧
    [0xFF#8].length % 3 = 1 ∧ (enc [0xFF#8, 0xFF#8]).getLast? = some 15 ∧ [0xFF#8, 0xFF#8].length % 3 = 2 := by decide

/-! ### Witnesses: invariants and whole runs -/

theorem packing_inv : packing.Inv := by
  refine ⟨by decide, by decide +kernel, by decide, by decide, ?_, ?_, ?_⟩
  · intro _
    refine ⟨by decide, by decide, by decide, by decide, by decide, by decide, by decide⟩
  · intro h; cases h
  · intro h; cases h

/-- PowerOnMeetsInvariant: the least and the greatest MEM_BYTES. -/
theorem witness_PowerOnMeetsInvariant : Config.MemBytesOk 1 ∧ Config.MemBytesOk (2 ^ 32 - 1) := by decide

/-- StepKeepsInvariant: a PACK in progress, whose engine moves. -/
theorem witness_StepKeepsInvariant : packing.Inv ∧ step packing = .next (after (step packing)) :=
  ⟨packing_inv, rfl⟩

/-- NoStepFaults: a PACK in progress. -/
theorem witness_NoStepFaults : packing.Inv := packing_inv

/-- WellFormedHostIsNeverStopped: the last address of the memory. -/
theorem witness_WellFormedHostIsNeverStopped :
    ({ base with program := [.memWrite 0xFFF 1] } : State).Inv ∧
    ({ base with program := [.memWrite 0xFFF 1] } : State).HostWellFormed := by
  refine ⟨?_, by simp [State.HostWellFormed, HostAction.WellFormed, base, State.powerOn]⟩
  refine ⟨by decide, by decide, by decide, by decide, ?_, ?_, ?_⟩ <;> (intro h; cases h)

/-- HostTurnKeepsTheCommand: a NOP during PACK. -/
theorem witness_HostTurnKeepsTheCommand :
    let s := packing.withCommand 0
    s.turn = .host ∧ s.op ≠ .idle ∧ s.program.head? ≠ some (.regWrite .word 0x04 0x00000001#32) ∧
    step s = .next (after (step s)) := by
  refine ⟨rfl, by decide, by decide, rfl⟩

/-- PackerStateWriters: a PACK micro-step counts, an ASCAN micro-step finds the byte FE, and SRST clears both. -/
theorem witness_PackerStateWriters :
    let u : State := { scanning with mem := [(0, 0xFE#8)] }
    let v := ({ packing with pkCount := 3, alphaPresent := true }).withCommand 1
    (step packing = .next (after (step packing)) ∧ (after (step packing)).pkCount ≠ packing.pkCount) ∧
    (step u = .next (after (step u)) ∧ (after (step u)).alphaPresent ≠ u.alphaPresent) ∧
    (step v = .next (after (step v)) ∧ (after (step v)).pkCount ≠ v.pkCount ∧
      (after (step v)).alphaPresent ≠ v.alphaPresent) := by
  refine ⟨⟨rfl, by decide⟩, ⟨rfl, by decide⟩, rfl, by decide, by decide⟩

/-- EncoderStateWriters: an ENCODE micro-step, and EBYTE #0x4D from the host. -/
theorem witness_EncoderStateWriters :
    let u := base.withCommand 0x4D21
    (step encoding = .next (after (step encoding)) ∧ (after (step encoding)).encCount ≠ encoding.encCount) ∧
    (step u = .next (after (step u)) ∧ (after (step u)).phase ≠ u.phase) := by
  refine ⟨⟨rfl, by decide⟩, rfl, by decide⟩

/-- FlagsAreSticky: V81 clears ERR_DIM and DONE; an accepted PACK clears DONE. -/
theorem witness_FlagsAreSticky :
    let s : State := { base with done := true, errDim := true, program := [.regWrite .word 0x08 0xFFFFFFFF] }
    let u := ({ packReady with done := true }).withCommand 0x10
    (step s = .next (after (step s)) ∧ s.errFlag .dim = true ∧ (after (step s)).errFlag .dim = false ∧
      s.done = true ∧ (after (step s)).done = false) ∧
    (step u = .next (after (step u)) ∧ u.done = true ∧ (after (step u)).done = false) := by
  refine ⟨⟨rfl, rfl, by decide, rfl, by decide⟩, rfl, rfl, by decide⟩

/-- ConfigWriters: a write to LENGTH. -/
theorem witness_ConfigWriters :
    let s : State := { base with program := [.regWrite .word 0x1C 7] }
    step s = .next (after (step s)) ∧ (after (step s)).length ≠ s.length := by
  refine ⟨rfl, by decide⟩

/-- MemoryWriters: the first PACK micro-step over a byte 0, the memory port, and EBYTE #0x4D. -/
theorem witness_MemoryWriters :
    let s : State := { packing with mem := cells 0 (List.replicate 64 0xFF#8 ++ [0x00#8]) }
    let u : State := { base with mem := [(0xFFF, 0#8)], program := [.memWrite 0xFFF 1] }
    let v := ({ base with mem := [(0, 0#8)] }).withCommand 0x4D21
    (step s = .next (after (step s)) ∧ (after (step s)).memRead 0x40 ≠ s.memRead 0x40) ∧
    (step u = .next (after (step u)) ∧ (after (step u)).memRead 0xFFF ≠ u.memRead 0xFFF) ∧
    (step v = .next (after (step v)) ∧ (after (step v)).memRead 0 ≠ v.memRead 0) := by
  refine ⟨⟨rfl, by decide +kernel⟩, ⟨rfl, by decide⟩, rfl, by decide⟩

/-- V110 as a run: three micro-steps, a NOP from the host, five micro-steps, and no turn fixed after that. -/
def packInterleaved : State :=
  { packReady with
    program := [cmd .nop]
    schedule := [.engine, .engine, .engine, .host, .engine, .engine, .engine, .engine, .engine] }

/-- The state before the completion micro-step of that run. -/
def packLast : State := (runWhile .pack 9 (after (exec .pack packInterleaved))).getD base

/-- PackWritesThePackedPlane; the run ends as V110 and V63 say (STATUS 0x82, the packed bytes FF). -/
theorem witness_PackWritesThePackedPlane :
    packInterleaved.op = .idle ∧ exec .pack packInterleaved = .next (after (exec .pack packInterleaved)) ∧
    (after (exec .pack packInterleaved)).op = .pack ∧
    RunsUnder .pack 9 (after (exec .pack packInterleaved)) packLast ∧ packLast.op = .pack ∧
    packLast.turn = .engine ∧ step packLast = .next (after (step packLast)) ∧ (after (step packLast)).op = .idle ∧
    (after (step packLast)).statusWord = 0x82#32 ∧ (after (step packLast)).memRead 0x47 = 0xFF#8 := by
  refine ⟨rfl, rfl, by decide +kernel, runsUnder_of_runWhile _ _ _ _ (by decide +kernel), by decide +kernel,
    by decide +kernel, next_of_nextOf (by decide +kernel), by decide +kernel, by decide +kernel, by decide +kernel⟩

/-- The state of an ASCAN of the same plane before its completion. -/
def ascanLast : State := (runWhile .ascan 64 scanning).getD base

/-- AscanFindsANonOpaquePixel, with V65's plane. -/
theorem witness_AscanFindsANonOpaquePixel :
    packReady.op = .idle ∧ exec .ascan packReady = .next scanning ∧ scanning.op = .ascan ∧
    RunsUnder .ascan 64 scanning ascanLast ∧ ascanLast.op = .ascan ∧ ascanLast.turn = .engine ∧
    step ascanLast = .next (after (step ascanLast)) ∧ (after (step ascanLast)).op = .idle ∧
    (after (step ascanLast)).statusWord = 0x02#32 := by
  refine ⟨rfl, rfl, by decide +kernel, runsUnder_of_runWhile _ _ _ _ (by decide +kernel), by decide +kernel,
    by decide +kernel, next_of_nextOf (by decide +kernel), by decide +kernel, by decide +kernel⟩

/-- The state of V115 before its fifth micro-step. -/
def encodeLast : State := (runWhile .encode 4 encoding).getD base

/-- EncodeWritesTheEncoding, with V115's input; the last character is the flush's `D`. -/
theorem witness_EncodeWritesTheEncoding :
    Config.MemBytesOk encodeReady.memBytes ∧ encodeReady.op = .idle ∧ exec .encode encodeReady = .next encoding ∧
    encoding.op = .encode ∧ RunsUnder .encode 4 encoding encodeLast ∧ encodeLast.op = .encode ∧
    encodeLast.turn = .engine ∧ step encodeLast = .next (after (step encodeLast)) ∧
    (after (step encodeLast)).op = .idle ∧ (after (step encodeLast)).memRead 0x109 = 0x44#8 := by
  refine ⟨by decide, rfl, rfl, by decide +kernel, runsUnder_of_runWhile _ _ _ _ (by decide +kernel),
    by decide +kernel, by decide +kernel, next_of_nextOf (by decide +kernel), by decide +kernel, by decide +kernel⟩

/-- ByteStreamWritesTheEncoding: the two characters of one byte end at MEM_BYTES. -/
theorem witness_ByteStreamWritesTheEncoding :
    let s : State := { base with dst := 0xFFE, program := [cmd (.ebyte 0xFF), cmd .eflush] }
    s.op = .idle ∧ s.schedule = [] ∧ s.phase = 0 ∧ s.leftover = 0 ∧ Config.MemBytesOk s.memBytes ∧
    s.program = [0xFF#8].map (fun b => cmd (.ebyte b)) ++ cmd .eflush :: [] ∧
    s.charAddr + encLength [0xFF#8].length ≤ s.memBytes := by decide

/-- MicroStepCounts: each command started, its turns all the engine's. -/
theorem witness_MicroStepCounts :
    let p : State := { packReady with schedule := List.replicate 9 .engine }
    let a : State := { packReady with schedule := List.replicate 65 .engine }
    let e : State := { encodeReady with schedule := List.replicate 5 .engine }
    (p.op = .idle ∧ exec .pack p = .next (after (exec .pack p)) ∧ (after (exec .pack p)).op = .pack ∧
      (after (exec .pack p)).schedule = List.replicate (8 * 8 / 8 + 1) .engine ++ []) ∧
    (a.op = .idle ∧ exec .ascan a = .next (after (exec .ascan a)) ∧ (after (exec .ascan a)).op = .ascan ∧
      (after (exec .ascan a)).schedule = List.replicate (8 * 8 + 1) .engine ++ []) ∧
    (e.op = .idle ∧ exec .encode e = .next (after (exec .encode e)) ∧ (after (exec .encode e)).op = .encode ∧
      Config.MemBytesOk e.memBytes ∧ (after (exec .encode e)).schedule = List.replicate (4 + 1) .engine ++ []) := by
  refine ⟨⟨rfl, rfl, ?_, ?_⟩, ⟨rfl, rfl, ?_, ?_⟩, rfl, rfl, ?_, ?_, ?_⟩ <;> decide +kernel

/-- AbortedPackLeavesAPrefix: V112, three micro-steps. -/
theorem witness_AbortedPackLeavesAPrefix :
    let u := (runWhile .pack 3 packing).getD base
    packReady.op = .idle ∧ exec .pack packReady = .next packing ∧ packing.op = .pack ∧
    RunsUnder .pack 3 packing u ∧ u.op = .pack ∧ u.pkCount = 3 := by
  refine ⟨rfl, rfl, by decide, runsUnder_of_runWhile _ _ _ _ (by decide +kernel), by decide +kernel,
    by decide +kernel⟩

end Sys2Proof.Tests
end

section
/-! The register port (10_state.md): what a word access at an offset reaches, which writes a busy block ignores, the
values after power-on, and with these the obligations on register reads and on writes to a busy block. -/

namespace Sys2Proof.Machine

/-! ### Word accesses by register -/

/-- A word write where a register stands is a store to that register. -/
theorem regWrite_word_of_regAt {off : RegOffset} {r : Reg} (h : regAt off = some r) (v : Word) (s : State) :
    regWrite .word off v s = regStore r v s := by simp [regWrite, regAccessed, h]

/-- A word write where no register stands does nothing (10_state.md R42). -/
theorem regWrite_word_of_regAt_none {off : RegOffset} (h : regAt off = none) (v : Word) (s : State) :
    regWrite .word off v s = .next s := by simp [regWrite, regAccessed, h]

@[simp] theorem regWrite_word_offset (r : Reg) (v : Word) (s : State) :
    regWrite .word r.offset v s = regStore r v s := regWrite_word_of_regAt (regAt_offset r) v s

@[simp] theorem State.regRead_word_offset (s : State) (r : Reg) : s.regRead .word r.offset = s.regValue r := by
  simp [State.regRead]

/-! ### Kinds of registers -/

/-- The configuration registers, which a busy block protects (10_state.md R43). -/
def Reg.isConfig : Reg → Bool
  | .src | .dst | .width | .height | .length => true
  | .id | .cmd | .status | .pkCount | .encCount | .encState => false

/-- The read-only registers, whose writes are ignored without error (10_state.md R42). -/
def Reg.isReadOnly : Reg → Bool
  | .id | .pkCount | .encCount | .encState => true
  | .cmd | .status | .src | .dst | .width | .height | .length => false

theorem State.configWrite_busy (s : State) (store : State → State) (hb : s.busy = true) :
    s.configWrite store = s.setErr .busy := by simp [State.configWrite, hb]

/-- A store to a configuration register of a busy block only sets ERR_BUSY (10_state.md R43). -/
theorem regStore_config_busy {r : Reg} (hr : r.isConfig = true) (v : Word) {s : State} (hb : s.busy = true) :
    regStore r v s = .next (s.setErr .busy) := by
  cases r with
  | src | dst | width | height | length => exact congrArg _ (s.configWrite_busy _ hb)
  | id | cmd | status | pkCount | encCount | encState => cases hr

/-- A store to a read-only register does nothing, busy or not (10_state.md R42). -/
theorem regStore_readOnly {r : Reg} (hr : r.isReadOnly = true) (v : Word) (s : State) :
    regStore r v s = .next s := by
  cases r with
  | id | pkCount | encCount | encState => rfl
  | cmd | status | src | dst | width | height | length => cases hr

theorem regWrite_config_busy {off : RegOffset} (hoff : (regAt off).any Reg.isConfig = true) (v : Word) {s : State}
    (hb : s.busy = true) : regWrite .word off v s = .next (s.setErr .busy) := by
  obtain ⟨r, hat, hr⟩ := (Option.any_eq_true _ _).1 hoff
  rw [regWrite_word_of_regAt hat, regStore_config_busy hr v hb]

/-- A word write at a reserved offset or to a read-only register does nothing, busy or not (10_state.md R42). -/
theorem regWrite_ignored {off : RegOffset} (hoff : (regAt off).all Reg.isReadOnly = true) (v : Word) (s : State) :
    regWrite .word off v s = .next s := by
  cases hat : regAt off with
  | none => exact regWrite_word_of_regAt_none hat v s
  | some r =>
    have hr : r.isReadOnly = true := by simpa [hat] using hoff
    rw [regWrite_word_of_regAt hat, regStore_readOnly hr]

/-! ### Writes to CMD -/

/-- A word is its three fields, RSVD, IMM8 and OPC (30_encoding.md R70). -/
theorem append_fields (w : Word) : rsvdField w ++ imm8Field w ++ opcField w = w := by
  have hhigh : rsvdField w ++ imm8Field w = w.extractLsb' 8 24 :=
    BitVec.extractLsb'_append_extractLsb'_eq_extractLsb' (by decide)
  have hall : w.extractLsb' 8 24 ++ opcField w = w.extractLsb' 0 32 :=
    BitVec.extractLsb'_append_extractLsb'_eq_extractLsb' (by decide)
  rw [hhigh, hall, BitVec.extractLsb'_eq_self]

theorem plainOpcode_eq_srst {opc : Byte} (h : plainOpcode opc = some .srst) : opc = 0x01#8 := by
  by_contra hne
  unfold plainOpcode at h
  split_ifs at h <;> cases h

/-- SRST is the one word 0x00000001 (30_encoding.md R72). -/
theorem eq_one_of_decode_srst {w : Word} (h : decode w = .ok .srst) : w = 0x00000001#32 := by
  unfold decode at h
  split_ifs at h with hrsvd hebyte himm
  · cases h
  · split at h
    · cases h
    · rename_i i hi
      cases h
      rw [← append_fields w, not_not.1 hrsvd, himm, plainOpcode_eq_srst hi]
      rfl
  · split at h <;> cases h

/-- A busy block ignores every word but SRST's, reserved words included (10_state.md R43). -/
theorem cmdWrite_busy {w : Word} (hw : w ≠ 0x00000001#32) {s : State} (hb : s.busy = true) :
    cmdWrite w s = .next (s.setErr .busy) := by
  unfold cmdWrite
  split
  · rename_i i hi
    have hne : i ≠ .srst := by
      rintro rfl
      exact hw (eq_one_of_decode_srst hi)
    exact exec_busy i s hne hb
  · rw [if_pos hb]

/-- The word 0x00000001 resets the block, busy or not (43_control.md R171). -/
theorem cmdWrite_srst (s : State) : cmdWrite 0x00000001#32 s = .next s.softReset := rfl

/-- Settles O16: each offset is looked up in the register map, and each kind of register has its rule for writes. -/
theorem busyWritesAreIgnored : Obligations.BusyWritesAreIgnored := by
  intro s v hop
  have hb : s.busy = true := s.busy_iff.2 hop
  refine ⟨fun off hoff => ?_, fun hv => ?_, ⟨s.softReset, ?_, rfl, rfl, rfl⟩, ⟨s.clearStatus v, ?_, rfl, rfl⟩,
    fun off hoff => ?_⟩
  · have hcfg : (regAt off).any Reg.isConfig = true := by revert off; decide
    exact regWrite_config_busy hcfg v hb
  · exact (regWrite_word_offset .cmd v s).trans (cmdWrite_busy hv hb)
  · exact (regWrite_word_offset .cmd _ s).trans (cmdWrite_srst s)
  · exact regWrite_word_offset .status v s
  · have hro : (regAt off).all Reg.isReadOnly = true := by revert off; decide
    exact regWrite_ignored hro v s

/-! ### Power-on -/

@[simp] theorem flagAt_false (i : Nat) : flagAt false i = 0 := by simp [flagAt]

theorem State.powerOn_statusWord (n : Nat) : (State.powerOn n).statusWord = 0 := by
  simp [State.statusWord, State.powerOn, State.busy]

theorem State.powerOn_encStateWord (n : Nat) : (State.powerOn n).encStateWord = 0 := by
  simp [State.encStateWord, State.powerOn]

/-- Every register but ID reads 0 after power-on (10_state.md R40). -/
theorem State.powerOn_regValue (n : Nat) {r : Reg} (hr : r ≠ .id) : (State.powerOn n).regValue r = 0 := by
  cases r with
  | id => exact absurd rfl hr
  | status => exact State.powerOn_statusWord n
  | encState => exact State.powerOn_encStateWord n
  | cmd | src | dst | width | height | length | pkCount | encCount => rfl

/-- Settles O8: the registers by `powerOn_regValue`, the internal state as `powerOn` lists it. -/
theorem powerOnValues : Obligations.PowerOnValues := by
  intro n
  exact ⟨rfl, fun _ hr => State.powerOn_regValue n hr, State.powerOn_statusWord n, rfl, rfl, rfl, rfl, rfl, rfl, rfl,
    rfl, fun _ => rfl⟩

/-! ### Register reads -/

/-- Settles O11: a word read at a register's offset is that register's value; WIDTH and HEIGHT read zero-extended. -/
theorem registerReadsReturnTheValue : Obligations.RegisterReadsReturnTheValue := by
  refine ⟨fun _ _ _ => rfl, fun s => ?_⟩
  have hwidth : (s.regRead .word Reg.width.offset).toNat = s.width.toNat := by
    rw [State.regRead_word_offset]
    exact BitVec.toNat_setWidth_of_le (by decide)
  have hheight : (s.regRead .word Reg.height.offset).toNat = s.height.toNat := by
    rw [State.regRead_word_offset]
    exact BitVec.toNat_setWidth_of_le (by decide)
  exact ⟨s.regRead_word_offset .id, s.regRead_word_offset .cmd, s.regRead_word_offset .src,
    s.regRead_word_offset .dst, hwidth, hheight, s.regRead_word_offset .length, s.regRead_word_offset .pkCount,
    s.regRead_word_offset .encCount, s.regRead_word_offset .status, s.regRead_word_offset .encState⟩

end Sys2Proof.Machine
end

section
/-! The host memory port (20_memory.md R59): what a write inside the block does to an idle and to a busy block, what a
read inside the block answers, and with these the obligation on the port. -/

namespace Sys2Proof.Machine

/-- An idle block stores the byte. -/
theorem memPortWrite_idle {s : State} {a : Nat} (ha : a < s.memBytes) (hidle : s.busy = false) (b : Byte) :
    memPortWrite a b s = .next (s.memWrite a b) := by simp [memPortWrite, ha, hidle]

/-- A busy block drops the byte and sets ERR_BUSY. -/
theorem memPortWrite_busy {s : State} {a : Nat} (ha : a < s.memBytes) (hb : s.busy = true) (b : Byte) :
    memPortWrite a b s = .next (s.setErr .busy) := by simp [memPortWrite, ha, hb]

/-- A read answers the byte's current value, busy or not. -/
theorem memPortRead_inside {s : State} {a : Nat} (ha : a < s.memBytes) :
    memPortRead a s = .next { s with hostRead := some (.byte (s.memRead a)) } := by simp [memPortRead, ha]

/-- Settles O18: the port's three cases inside the block, and read after write for the idle write's frame. -/
theorem hostMemoryPort : Obligations.HostMemoryPort := by
  intro s a b ha
  refine ⟨fun hidle => ⟨s.memWrite a b, ?_, rfl, ?_, fun a' hne => ?_⟩, fun hbusy => ?_, ?_⟩
  · exact memPortWrite_idle ha (s.not_busy_iff.2 hidle) b
  · exact s.memRead_memWrite_same a b
  · exact s.memRead_memWrite_other a a' b hne
  · exact memPortWrite_busy ha (s.busy_iff.2 hbusy) b
  · exact memPortRead_inside ha

end Sys2Proof.Machine
end

section
/-! The command decoder (30_encoding.md R70 to R73): what decodes to what, field by field, how the rows of the opcode
map read in those fields, what a reserved word does, and with these the obligations on the opcode map and on reserved
words. -/

namespace Sys2Proof.Machine

/-! ### The decoder by fields -/

/-- The codes of the seven commands without an immediate (30_encoding.md R72). -/
theorem exists_plainOpcode_iff (opc : Byte) :
    (∃ i, plainOpcode opc = some i) ↔ opc ∈ [0x00#8, 0x01#8, 0x10#8, 0x11#8, 0x20#8, 0x22#8, 0x23#8] := by
  rw [← Option.isSome_iff_exists]
  revert opc
  decide

theorem plainOpcode_ne_ebyte (opc imm : Byte) : plainOpcode opc ≠ some (.ebyte imm) := by
  intro h
  unfold plainOpcode at h
  split_ifs at h <;> cases h

/-- The match value of a command without an immediate is its code, with IMM8 and RSVD 0. -/
theorem matchBits_of_plainOpcode {opc : Byte} {i : Instr} (h : plainOpcode opc = some i) :
    i.row.matchBits = 0#16 ++ 0#8 ++ opc := by
  unfold plainOpcode at h
  split_ifs at h <;> cases h <;> subst opc <;> rfl

/-- What decodes to a command: RSVD is 0, and either OPC is EBYTE's and IMM8 is the operand, or IMM8 is 0 and OPC is
the command's code (30_encoding.md R70 to R73). -/
theorem decode_eq_ok_iff (w : Word) (i : Instr) :
    decode w = .ok i ↔ rsvdField w = 0#16 ∧
      ((opcField w = 0x21#8 ∧ i = .ebyte (imm8Field w)) ∨
        (imm8Field w = 0#8 ∧ plainOpcode (opcField w) = some i)) := by
  unfold decode
  by_cases hrsvd : rsvdField w = 0#16
  · by_cases hebyte : opcField w = 0x21#8
    · have hplain : plainOpcode 0x21#8 = none := rfl
      simp [hrsvd, hebyte, hplain, eq_comm]
    · cases hplain : plainOpcode (opcField w) with
      | none => simp [hrsvd, hebyte]
      | some j => by_cases himm : imm8Field w = 0#8 <;> simp [hrsvd, hebyte, himm]
  · simp [hrsvd]

theorem decode_eq_ok_ebyte_iff (w : Word) (b : Byte) :
    decode w = .ok (.ebyte b) ↔ (rsvdField w = 0#16 ∧ opcField w = 0x21#8) ∧ b = imm8Field w := by
  simp [decode_eq_ok_iff, plainOpcode_ne_ebyte, and_assoc]

/-- The three conditions under which a word is a command: the grounds of 30_encoding.md R73, none of which holds. -/
theorem exists_decode_eq_ok_iff (w : Word) :
    (∃ i, decode w = .ok i) ↔
      opcField w ∈ [0x00#8, 0x01#8, 0x10#8, 0x11#8, 0x20#8, 0x21#8, 0x22#8, 0x23#8] ∧
        rsvdField w = 0#16 ∧ (imm8Field w = 0#8 ∨ opcField w = 0x21#8) := by
  have hcode : opcField w ∈ [0x00#8, 0x01#8, 0x10#8, 0x11#8, 0x20#8, 0x21#8, 0x22#8, 0x23#8] ↔
      opcField w = 0x21#8 ∨ ∃ i, plainOpcode (opcField w) = some i := by
    rw [exists_plainOpcode_iff]
    simp only [List.mem_cons, List.not_mem_nil]
    tauto
  simp only [decode_eq_ok_iff, exists_and_left, exists_or, exists_eq, hcode]
  tauto

/-! ### The rows of the opcode map -/

theorem ebyte_row_mask_ne_allOnes (b : Byte) : (Instr.row (.ebyte b)).mask ≠ BitVec.allOnes 32 :=
  show 0xFFFF00FF#32 ≠ BitVec.allOnes 32 by decide

/-- A command whose row masks no bit out is decoded from its row's match value. -/
theorem decode_matchBits {i : Instr} (hmask : i.row.mask = BitVec.allOnes 32) : decode i.row.matchBits = .ok i := by
  cases i with
  | ebyte b => exact absurd hmask (ebyte_row_mask_ne_allOnes b)
  | nop | srst | pack | ascan | einit | eflush | encode => rfl

/-- A command whose row masks no bit out is decoded exactly from the words its row selects (30_encoding.md R72). -/
theorem decode_eq_ok_iff_selects {i : Instr} (hmask : i.row.mask = BitVec.allOnes 32) (w : Word) :
    decode w = .ok i ↔ i.row.Selects w := by
  rw [OpcodeRow.Selects, hmask, BitVec.and_allOnes]
  constructor
  · intro h
    obtain ⟨hrsvd, ⟨-, rfl⟩ | ⟨himm, hplain⟩⟩ := (decode_eq_ok_iff w i).1 h
    · exact absurd hmask (ebyte_row_mask_ne_allOnes _)
    · calc w = rsvdField w ++ imm8Field w ++ opcField w := (append_fields w).symm
        _ = 0#16 ++ 0#8 ++ opcField w := by rw [hrsvd, himm]
        _ = i.row.matchBits := (matchBits_of_plainOpcode hplain).symm
  · rintro rfl
    exact decode_matchBits hmask

/-- Two words are equal when their three fields are (30_encoding.md R70). -/
theorem word_eq_iff_fields (v w : Word) :
    v = w ↔ rsvdField v = rsvdField w ∧ imm8Field v = imm8Field w ∧ opcField v = opcField w := by
  refine ⟨by rintro rfl; exact ⟨rfl, rfl, rfl⟩, fun ⟨hrsvd, himm, hopc⟩ => ?_⟩
  rw [← append_fields v, hrsvd, himm, hopc, append_fields]

/-- EBYTE's row leaves IMM8 out: it fixes RSVD and OPC only (30_encoding.md R72). -/
theorem ebyte_row_selects_iff (b : Byte) (w : Word) :
    (Instr.row (.ebyte b)).Selects w ↔ rsvdField w = 0#16 ∧ opcField w = 0x21#8 := by
  have hrsvd : rsvdField (w &&& 0xFFFF00FF#32) = rsvdField w :=
    BitVec.extractLsb'_and.trans BitVec.and_allOnes
  have himm : imm8Field (w &&& 0xFFFF00FF#32) = 0#8 :=
    BitVec.extractLsb'_and.trans BitVec.and_zero
  have hopc : opcField (w &&& 0xFFFF00FF#32) = opcField w :=
    BitVec.extractLsb'_and.trans BitVec.and_allOnes
  calc w &&& 0xFFFF00FF#32 = 0x00000021#32
      ↔ rsvdField w = 0#16 ∧ 0#8 = 0#8 ∧ opcField w = 0x21#8 := by rw [word_eq_iff_fields, hrsvd, himm, hopc]; rfl
    _ ↔ rsvdField w = 0#16 ∧ opcField w = 0x21#8 := by simp

theorem multiStep_eq_true_iff (i : Instr) : i.multiStep = true ↔ i = .pack ∨ i = .ascan ∨ i = .encode := by
  cases i <;> simp [Instr.multiStep]

/-- Settles O3: the full-mask rows by `decode_eq_ok_iff_selects`, EBYTE's by its two fixed fields. -/
theorem opcodeMapSelects : Obligations.OpcodeMapSelects := by
  intro w
  refine ⟨decode_eq_ok_iff_selects (i := .nop) rfl w, decode_eq_ok_iff_selects (i := .srst) rfl w,
    decode_eq_ok_iff_selects (i := .pack) rfl w, decode_eq_ok_iff_selects (i := .ascan) rfl w,
    decode_eq_ok_iff_selects (i := .einit) rfl w, ?ebyteRow, decode_eq_ok_iff_selects (i := .eflush) rfl w,
    decode_eq_ok_iff_selects (i := .encode) rfl w, fun b h => ((decode_eq_ok_ebyte_iff w b).1 h).2,
    fun i _ => multiStep_eq_true_iff i⟩
  case ebyteRow =>
    simp only [decode_eq_ok_ebyte_iff, exists_and_left, exists_eq, and_true]
    exact (ebyte_row_selects_iff 0 w).symm

/-! ### Reserved words -/

/-- A reserved word raises ERR_CMD on an idle block (30_encoding.md R73). -/
theorem cmdWrite_reserved_idle {w : Word} (hw : ∀ i, decode w ≠ .ok i) {s : State} (hidle : s.busy = false) :
    cmdWrite w s = .next (s.raise .cmd) := by
  unfold cmdWrite
  split
  · rename_i i hi
    exact absurd hi (hw i)
  · simp [hidle]

/-- Settles O4: the grounds negate `exists_decode_eq_ok_iff`; a busy block ignores every word that is not SRST's. -/
theorem reservedWordsRaiseErrCmd : Obligations.ReservedWordsRaiseErrCmd := by
  intro w s opc reserved
  have hreserved : reserved ↔ ∀ i, decode w ≠ .ok i := by
    rw [← not_exists, exists_decode_eq_ok_iff, not_and_or, not_and_or, not_or]
    rfl
  refine ⟨hreserved, fun hr hidle => ?_, fun hr hbusy => ?_⟩
  · exact (regWrite_word_offset .cmd w s).trans
      (cmdWrite_reserved_idle (hreserved.1 hr) (s.not_busy_iff.2 hidle))
  · have hw : w ≠ 0x00000001#32 := by
      rintro rfl
      exact hreserved.1 hr .srst rfl
    exact (regWrite_word_offset .cmd w s).trans (cmdWrite_busy hw (s.busy_iff.2 hbusy))

end Sys2Proof.Machine
end

section
/-! The Bit-Packer's micro-steps (41_bitpacker.md R100, R106, R108): the threshold, the traverser's three moves, the
byte of a tile row bit by bit, what PACK and ASCAN do in one micro-step, and with these the obligations on them. -/

namespace Sys2Proof.Machine

/-! ### The threshold -/

/-- T(p) with its constant written out. -/
theorem threshold_eq_decide (p : Byte) : threshold p = decide (127 ≤ p.toNat) := rfl

/-- Settles O33: the threshold reads as an unsigned comparison, from which the three vectors follow. -/
theorem thresholdAt127 : Obligations.ThresholdAt127 := by
  refine ⟨fun p => ?_, ?_, ?_, ?_⟩
  · rw [threshold_eq_decide, decide_eq_true_iff]
  all_goals rw [threshold_eq_decide]; decide

/-! ### The traverser (R106) -/

/-- Inside a tile, the next row. -/
theorem State.advanceTile_row {s : State} (htr : s.tr + 1 ≠ 8) : s.advanceTile = { s with tr := s.tr + 1 } := by
  simp [State.advanceTile, htr]

/-- After a tile's last row, the next tile to the right. -/
theorem State.advanceTile_right {s : State} (htr : s.tr + 1 = 8) (hx : s.tsx + 8 ≠ s.planeW) :
    s.advanceTile = { s with tr := 0, tsx := s.tsx + 8 } := by
  simp [State.advanceTile, htr, hx]

/-- After the last tile of a row of tiles, the first tile of the next one. -/
theorem State.advanceTile_down {s : State} (htr : s.tr + 1 = 8) (hx : s.tsx + 8 = s.planeW) :
    s.advanceTile = { s with tr := 0, tsx := 0, tsy := s.tsy + 8 } := by
  simp [State.advanceTile, htr, hx]

/-- The move writes TR, TSX and TSY, and nothing else. -/
theorem State.advanceTile_eq (s : State) : s.advanceTile =
    { s with tr := s.advanceTile.tr, tsx := s.advanceTile.tsx, tsy := s.advanceTile.tsy } := by
  by_cases htr : s.tr + 1 = 8
  · by_cases hx : s.tsx + 8 = s.planeW
    · rw [State.advanceTile_down htr hx]
    · rw [State.advanceTile_right htr hx]
  · rw [State.advanceTile_row htr]

/-- The move writes no byte. -/
@[simp] theorem State.memRead_advanceTile (s : State) (a : Nat) : s.advanceTile.memRead a = s.memRead a :=
  State.memRead_congr _ _ s.advanceTile_mem a

/-! ### One tile row -/

/-- Bit i of a tile row's byte is the threshold of the i-th pixel from the right (R103, R106). -/
theorem State.tileRowByte_getLsbD (s : State) {i : Nat} (hi : i < 8) :
    s.tileRowByte.getLsbD i =
      decide (127 ≤ (s.memRead (s.pixelAddr s.tsx (s.tsy + s.tr) + 7 - i)).toNat) := by
  have haddr : s.pixelAddr (s.tsx + 7 - i) (s.tsy + s.tr) = s.pixelAddr s.tsx (s.tsy + s.tr) + 7 - i := by
    simp only [State.pixelAddr]; omega
  rw [State.tileRowByte, packBits_getLsbD, decide_eq_true hi, Bool.true_and, State.plane, haddr, threshold_eq_decide]

/-- The store and the count of a PACK micro-step, before the traverser moves (R106). -/
def State.storeTileRow (s : State) : State :=
  { s.memWrite (s.packedAddr s.pkCount.toNat) s.tileRowByte with pkCount := s.pkCount + 1 }

@[simp] theorem State.memRead_storeTileRow_same (s : State) :
    s.storeTileRow.memRead (s.packedAddr s.pkCount.toNat) = s.tileRowByte :=
  s.memRead_memWrite_same _ _

theorem State.memRead_storeTileRow_other (s : State) {a : Nat} (ha : a ≠ s.packedAddr s.pkCount.toNat) :
    s.storeTileRow.memRead a = s.memRead a :=
  s.memRead_memWrite_other _ _ _ ha

/-! ### The micro-steps by case -/

theorem engineStep_pack {s : State} (hop : s.op = .pack) : engineStep s = packStep s := by simp [engineStep, hop]

theorem engineStep_ascan {s : State} (hop : s.op = .ascan) : engineStep s = ascanStep s := by simp [engineStep, hop]

/-- A tile row is left to pack, and its accesses lie in the buffer memory. -/
theorem packStep_row {s : State} (hmore : s.pkCount.toNat < s.packedLen) (hok : s.PackAccessOk) :
    packStep s = .next s.storeTileRow.advanceTile := by
  simp only [packStep, if_pos hmore, if_pos hok]
  rfl

theorem packStep_complete {s : State} (hend : s.packedLen ≤ s.pkCount.toNat) : packStep s = .next s.complete :=
  if_neg (Nat.not_lt.2 hend)

/-- A pixel is left to scan, and it lies in the buffer memory. -/
theorem ascanStep_pixel {s : State} (hmore : s.aj < s.planeW * s.planeH) (hok : s.src.toNat + s.aj < s.memBytes) :
    ascanStep s = .next { s with
      alphaPresent := s.alphaPresent || decide (s.memRead (s.src.toNat + s.aj) ≠ 0xFF#8), aj := s.aj + 1 } := by
  simp only [ascanStep, if_pos hmore, if_pos hok]

theorem ascanStep_complete {s : State} (hend : s.planeW * s.planeH ≤ s.aj) : ascanStep s = .next s.complete :=
  if_neg (Nat.not_lt.2 hend)

/-- Settles O31: one pixel, or the completion. -/
theorem ascanMicroStep : Obligations.AscanMicroStep := by
  intro s hop
  refine ⟨fun hmore hok => ?_, fun hend => ?_⟩
  · exact (engineStep_ascan hop).trans (ascanStep_pixel hmore hok)
  · exact (engineStep_ascan hop).trans (ascanStep_complete hend)

/-- Settles O30: the tile row's byte at DST + PK_COUNT and no other, the traverser's move by its three cases, and the
frame from `advanceTile_eq`; or the completion. -/
theorem packMicroStep : Obligations.PackMicroStep := by
  intro s hop
  refine ⟨fun hmore hrow hout => ⟨s.storeTileRow.advanceTile, ?_, fun i hi => ?_, fun a ha => ?_, fun htr => ?_,
    fun htr hx => ?_, fun htr hx => ?_, ?_⟩, fun hend => ?_⟩
  · exact (engineStep_pack hop).trans (packStep_row hmore ⟨hrow, hout⟩)
  · rw [State.memRead_advanceTile]
    exact (congrArg (·.getLsbD i) s.memRead_storeTileRow_same).trans (s.tileRowByte_getLsbD hi)
  · exact (State.memRead_advanceTile _ a).trans (s.memRead_storeTileRow_other ha)
  · rw [State.advanceTile_row (s := s.storeTileRow) htr]; exact ⟨rfl, rfl, rfl⟩
  · rw [State.advanceTile_right (s := s.storeTileRow) htr hx]; exact ⟨rfl, rfl, rfl⟩
  · rw [State.advanceTile_down (s := s.storeTileRow) htr hx]; exact ⟨rfl, rfl, rfl⟩
  · rw [State.advanceTile_mem]; exact s.storeTileRow.advanceTile_eq
  · exact (engineStep_pack hop).trans (packStep_complete hend)

end Sys2Proof.Machine
end

section
/-! The Base64 encoder's single-step commands and micro-step (42_b64encoder.md R130, R142 to R146): the alphabet by
ranges, the command words, what one byte and the end of a stream do to an idle block's state and memory, the ENCODE
micro-step by case, and with these the obligations on them. -/

namespace Sys2Proof.Machine

/-! ### The alphabet (R130) -/

/-- The alphabet's table, as numbers. -/
theorem charCode_toNat (c : Index) : (charCode c).toNat =
    if c.toNat < 26 then 0x41 + c.toNat
    else if c.toNat < 52 then 0x61 + (c.toNat - 26)
    else if c.toNat < 62 then 0x30 + (c.toNat - 52)
    else if c.toNat = 62 then 0x2B
    else 0x2F := by
  simp only [charCode]
  split_ifs <;> simp only [BitVec.toNat_ofNat] <;> omega

theorem charCode_ne_equals (c : Index) : charCode c ≠ 0x3D#8 := by
  intro h
  have hcode : (charCode c).toNat = 0x3D := by rw [h]; rfl
  rw [charCode_toNat] at hcode
  split_ifs at hcode <;> omega

/-- The ranges of the table do not meet, so a code names its index. -/
theorem charCode_injective : Function.Injective charCode := by
  intro c d h
  have hcode : (charCode c).toNat = (charCode d).toNat := congrArg BitVec.toNat h
  rw [charCode_toNat, charCode_toNat] at hcode
  apply BitVec.eq_of_toNat_eq
  have hc := c.isLt
  have hd := d.isLt
  split_ifs at hcode <;> omega

/-- Settles O37: each range reads its line of the table. -/
theorem alphabetCodes : Obligations.AlphabetCodes := by
  refine ⟨fun c => ⟨fun h => ?upper, fun h h' => ?lower, fun h h' => ?digit, fun h => ?plus, fun h => ?slash,
    charCode_ne_equals c⟩, fun _ _ h => charCode_injective h⟩
  case upper => rw [charCode_toNat, if_pos (by omega)]
  case lower => rw [charCode_toNat, if_neg (by omega), if_pos (by omega)]
  case digit => rw [charCode_toNat, if_neg (by omega), if_neg (by omega), if_pos (by omega)]
  case plus =>
    obtain rfl : c = 62#6 := BitVec.eq_of_toNat_eq h
    rfl
  case slash =>
    obtain rfl : c = 63#6 := BitVec.eq_of_toNat_eq h
    rfl

/-! ### The command words -/

/-- A command whose row masks no bit out has one word, its row's match value (30_encoding.md R72). -/
theorem decode_eq_ok_iff_eq_matchBits {i : Instr} (hmask : i.row.mask = BitVec.allOnes 32) (w : Word) :
    decode w = .ok i ↔ w = i.row.matchBits := by
  rw [decode_eq_ok_iff_selects hmask, OpcodeRow.Selects, hmask, BitVec.and_allOnes]

/-- EBYTE's word carries its operand in IMM8 (30_encoding.md R71). -/
theorem imm8Field_encode_ebyte (b : Byte) : imm8Field (encode (.ebyte b)) = b := by
  have hcode : imm8Field 0x00000021#32 = 0#8 := rfl
  have hoperand : imm8Field (b.setWidth 32 <<< 8) = b := by
    ext i hi
    have hbyte : 8 + i < 32 := by omega
    simp [imm8Field, hi, hbyte]
  calc imm8Field (encode (.ebyte b))
      = imm8Field 0x00000021#32 ||| imm8Field (b.setWidth 32 <<< 8) := BitVec.extractLsb'_or
    _ = b := by rw [hcode, hoperand, BitVec.zero_or]

/-- EBYTE's words are those of the encoder: its row's two fixed fields, and the operand in IMM8 (30_encoding.md
R71, R72). -/
theorem decode_eq_ok_ebyte_iff_eq_encode (w : Word) (b : Byte) :
    decode w = .ok (.ebyte b) ↔ w = encode (.ebyte b) := by
  obtain ⟨-, hrow⟩ := Laws.RowMatch.ebyte b
  have hsel : (Instr.row (.ebyte b)).Selects (encode (.ebyte b)) :=
    (hrow (Instr.row (.ebyte 0)) (by simp [opcodeRows])).2 rfl
  obtain ⟨hrsvd, hopc⟩ := (ebyte_row_selects_iff b _).1 hsel
  rw [decode_eq_ok_ebyte_iff, word_eq_iff_fields, hrsvd, hopc, imm8Field_encode_ebyte]
  tauto

/-! ### The stream's operations -/

/-- PHASE 0 has no tail: the end of the stream emits nothing (R144). -/
theorem State.flushStream_of_phase_zero {s : State} (hphase : s.phase = 0) : s.flushStream = s.setStream 0 0 := by
  simp [State.flushStream, encTail, hphase, State.emitAll]

/-- At any other PHASE the tail is the one character of LEFTOVER (R144). -/
theorem State.flushStream_of_phase_ne_zero {s : State} (hphase : s.phase ≠ 0) :
    s.flushStream = (s.emit s.leftover).setStream 0 0 := by
  simp [State.flushStream, encTail, hphase, State.emitAll]

theorem State.eflushOut_of_phase_zero {s : State} (hphase : s.phase = 0) : s.eflushOut = 0 := if_pos hphase

theorem State.eflushOut_of_phase_ne_zero {s : State} (hphase : s.phase ≠ 0) : s.eflushOut = 1 := if_neg hphase

/-- A due tail writes LEFTOVER's code at DST + ENC_COUNT and no other byte. -/
theorem State.memRead_flushStream_tail {s : State} (hphase : s.phase ≠ 0) :
    s.flushStream.memRead s.charAddr = charCode s.leftover ∧
      ∀ a, a ≠ s.charAddr → s.flushStream.memRead a = s.memRead a := by
  rw [State.flushStream_of_phase_ne_zero hphase]
  exact ⟨s.memRead_emit_same s.leftover, s.memRead_emit_other s.leftover⟩

/-- A byte's characters that fit leave ENC_COUNT below 2^32: MEM_BYTES is (00_scope.md R9). -/
theorem State.encCount_add_encStep_length_lt {s : State} (hsize : Config.MemBytesOk s.memBytes)
    (hfit : s.InRange s.charAddr s.ebyteOut) (b : Byte) :
    s.encCount.toNat + (encStep s.phase s.leftover b).1.length < 2 ^ 32 := by
  obtain ⟨-, hmax⟩ := hsize
  rw [State.encStep_length]
  simp only [State.InRange, State.charAddr] at hfit
  omega

/-- A byte's characters stand from DST + ENC_COUNT on, in EncStep's order. -/
theorem State.memRead_feedByte_at {s : State} (hsize : Config.MemBytesOk s.memBytes)
    (hfit : s.InRange s.charAddr s.ebyteOut) (b : Byte) (j : Nat) (c : Index)
    (hj : (encStep s.phase s.leftover b).1[j]? = some c) :
    (s.feedByte b).memRead (s.charAddr + j) = charCode c :=
  s.emitAll_memRead_at _ (State.encCount_add_encStep_length_lt hsize hfit b) j c hj

/-- A byte's characters leave every address outside their own. -/
theorem State.memRead_feedByte_outside {s : State} (hsize : Config.MemBytesOk s.memBytes)
    (hfit : s.InRange s.charAddr s.ebyteOut) (b : Byte) (a : Nat)
    (ha : a < s.charAddr ∨ s.charAddr + s.ebyteOut ≤ a) : (s.feedByte b).memRead a = s.memRead a := by
  rw [← s.encStep_length b] at ha
  exact s.emitAll_memRead_outside _ (State.encCount_add_encStep_length_lt hsize hfit b) a ha

/-- What a byte writes beside the memory: ENC_COUNT goes on by nout, PHASE and LEFTOVER are EncStep's. -/
theorem State.feedByte_eq_ebyteOut (s : State) (b : Byte) : s.feedByte b = { s with
    mem := (s.feedByte b).mem, encCount := s.encCount + BitVec.ofNat 32 s.ebyteOut,
    phase := (encStep s.phase s.leftover b).2.1, leftover := (encStep s.phase s.leftover b).2.2 } := by
  rw [← s.encStep_length b]
  exact s.feedByte_eq b

/-! ### The single-step commands on an idle block -/

theorem exec_einit_idle {s : State} (hidle : s.busy = false) :
    exec .einit s = .next { s with phase := 0, leftover := 0, encCount := 0, done := true } :=
  congrArg Host.Outcome.next (s.dispatchSingle_idle _ hidle)

/-- The dispatch's DONE <- 0 plays no part in EBYTE's range check. -/
theorem State.ebyte_inRange_setDone (s : State) (d : Bool) :
    (s.setDone d).InRange (s.setDone d).charAddr (s.setDone d).ebyteOut ↔ s.InRange s.charAddr s.ebyteOut := Iff.rfl

/-- EBYTE where its characters fit (R143). -/
theorem exec_ebyte_fits {s : State} (hidle : s.busy = false) (hfit : s.InRange s.charAddr s.ebyteOut) (b : Byte) :
    exec (.ebyte b) s = .next ((s.feedByte b).setDone true) := by
  rw [exec, execEbyte, State.dispatchSingle_idle _ _ hidle, if_pos ((s.ebyte_inRange_setDone false).2 hfit),
    State.feedByte_setDone, State.setDone_setDone]

/-- EBYTE where its characters do not fit (R143). -/
theorem exec_ebyte_range {s : State} (hidle : s.busy = false) (hfit : ¬s.InRange s.charAddr s.ebyteOut) (b : Byte) :
    exec (.ebyte b) s = .next (s.raise .range) := by
  rw [exec, execEbyte, State.dispatchSingle_idle _ _ hidle, if_neg (mt (s.ebyte_inRange_setDone false).1 hfit),
    State.raise_setDone, State.raise_setDone_true]

/-- A tail character is due and does not fit: the one ground on which EFLUSH is rejected (R144). -/
abbrev State.TailOutOfRange (s : State) : Prop := 0 < s.eflushOut ∧ ¬s.InRange s.charAddr 1

/-- The dispatch's DONE <- 0 plays no part in EFLUSH's range check. -/
theorem State.tailOutOfRange_setDone (s : State) (d : Bool) : (s.setDone d).TailOutOfRange ↔ s.TailOutOfRange :=
  Iff.rfl

theorem State.not_tailOutOfRange_of_phase_zero {s : State} (hphase : s.phase = 0) : ¬s.TailOutOfRange :=
  fun ⟨hdue, _⟩ => hdue.ne' (State.eflushOut_of_phase_zero hphase)

/-- Where a tail is due, it is out of range exactly from MEM_BYTES on. -/
theorem State.tailOutOfRange_iff {s : State} (hphase : s.phase ≠ 0) :
    s.TailOutOfRange ↔ s.memBytes ≤ s.charAddr := by
  simp only [State.TailOutOfRange, State.eflushOut_of_phase_ne_zero hphase, State.InRange]
  omega

/-- EFLUSH where no tail is due, or the tail fits (R144). -/
theorem exec_eflush_fits {s : State} (hidle : s.busy = false) (hfit : ¬s.TailOutOfRange) :
    exec .eflush s = .next (s.flushStream.setDone true) := by
  rw [exec, execEflush, State.dispatchSingle_idle _ _ hidle, if_neg (mt (s.tailOutOfRange_setDone false).1 hfit),
    State.flushStream_setDone, State.setDone_setDone]

/-- EFLUSH where a tail is due and does not fit (R144). -/
theorem exec_eflush_range {s : State} (hidle : s.busy = false) (hout : s.TailOutOfRange) :
    exec .eflush s = .next (s.raise .range) := by
  rw [exec, execEflush, State.dispatchSingle_idle _ _ hidle, if_pos ((s.tailOutOfRange_setDone false).2 hout),
    State.raise_setDone, State.raise_setDone_true]

/-- EFLUSH at PHASE 0 checks no range and writes no byte (R144). -/
theorem exec_eflush_of_phase_zero {s : State} (hidle : s.busy = false) (hphase : s.phase = 0) :
    exec .eflush s = .next { s with done := true, phase := 0, leftover := 0 } := by
  rw [exec_eflush_fits hidle (State.not_tailOutOfRange_of_phase_zero hphase),
    State.flushStream_of_phase_zero hphase]
  rfl

/-- A second EFLUSH changes nothing: after the first the stream is at PHASE 0 with no leftover, or the tail fits as
little as before. -/
theorem exec_eflush_eflush {s : State} (hidle : s.busy = false) {t u : State} (ht : exec .eflush s = .next t)
    (hu : exec .eflush t = .next u) : u = t := by
  by_cases hout : s.TailOutOfRange
  · obtain rfl : s.raise .range = t := Host.Outcome.next.inj ((exec_eflush_range hidle hout).symm.trans ht)
    have hagain : exec .eflush (s.raise .range) = .next (s.raise .range) := exec_eflush_range hidle hout
    exact Host.Outcome.next.inj (hu.symm.trans hagain)
  · obtain rfl : s.flushStream.setDone true = t := Host.Outcome.next.inj ((exec_eflush_fits hidle hout).symm.trans ht)
    have hidle' : (s.flushStream.setDone true).busy = false := by rw [s.flushStream_eq]; exact hidle
    have hagain : exec .eflush (s.flushStream.setDone true) = .next (s.flushStream.setDone true) :=
      exec_eflush_of_phase_zero hidle' rfl
    exact Host.Outcome.next.inj (hu.symm.trans hagain)

/-- Settles O27: the whole state after EINIT, which a second EINIT leaves as it is, and its one word. -/
theorem einitStartsAStream : Obligations.EinitStartsAStream := by
  refine ⟨fun s hop => ?_, decode_eq_ok_iff_eq_matchBits (i := .einit) rfl⟩
  have hidle : s.busy = false := s.not_busy_iff.2 hop
  refine ⟨exec_einit_idle hidle, fun t ht => ?_⟩
  obtain rfl := Host.Outcome.next.inj ((exec_einit_idle hidle).symm.trans ht)
  exact exec_einit_idle hidle

/-- Settles O28: a byte that fits is `feedByte` with its frame and its characters; one that does not is `raise`. -/
theorem ebyteFeedsOneByte : Obligations.EbyteFeedsOneByte := by
  refine ⟨decode_eq_ok_ebyte_iff_eq_encode, fun s b hop => ?_⟩
  have hidle : s.busy = false := s.not_busy_iff.2 hop
  refine ⟨fun hsize hfit => ⟨(s.feedByte b).setDone true, exec_ebyte_fits hidle hfit b, ?frame, s.encStep_length b,
    State.memRead_feedByte_at hsize hfit b, State.memRead_feedByte_outside hsize hfit b⟩, fun hout => ?range⟩
  case frame => exact congrArg (State.setDone · true) (s.feedByte_eq_ebyteOut b)
  case range => exact exec_ebyte_range hidle (Nat.not_le.2 hout) b

/-- Settles O29: PHASE 0, a tail that fits, a tail that does not, and the second EFLUSH. -/
theorem eflushEndsTheStream : Obligations.EflushEndsTheStream := by
  refine ⟨decode_eq_ok_iff_eq_matchBits (i := .eflush) rfl, fun s hop => ?_⟩
  have hidle : s.busy = false := s.not_busy_iff.2 hop
  refine ⟨exec_eflush_of_phase_zero hidle, fun hphase hfit => ?tail, fun hphase hout => ?range,
    fun t u => exec_eflush_eflush hidle⟩
  case tail =>
    have hin : ¬s.TailOutOfRange := mt (State.tailOutOfRange_iff hphase).1 (Nat.not_le.2 hfit)
    refine ⟨s.flushStream.setDone true, exec_eflush_fits hidle hin, ?_, State.memRead_flushStream_tail hphase⟩
    rw [State.flushStream_of_phase_ne_zero hphase]
    rfl
  case range => exact exec_eflush_range hidle ((State.tailOutOfRange_iff hphase).2 hout)

/-! ### The ENCODE micro-step (R146) -/

theorem engineStep_encode {s : State} (hop : s.op = .encode) : engineStep s = encodeStep s := by
  simp [engineStep, hop]

/-- A byte is left to encode, and its accesses lie in the buffer memory. -/
theorem encodeStep_byte {s : State} (hmore : s.ek.toNat < s.inputLen) (hin : s.inputAddr s.ek.toNat < s.memBytes)
    (hfit : s.InRange s.charAddr s.ebyteOut) :
    encodeStep s = .next { s.feedByte (s.memRead (s.inputAddr s.ek.toNat)) with ek := s.ek + 1 } := by
  simp only [encodeStep, if_pos hmore, if_pos (And.intro hin hfit)]
  rw [s.feedByte_eq]

/-- After the last byte, the flush and the completion in one micro-step. -/
theorem encodeStep_flush {s : State} (hend : s.inputLen ≤ s.ek.toNat)
    (hfit : s.eflushOut = 0 ∨ s.InRange s.charAddr s.eflushOut) : encodeStep s = .next s.flushStream.complete := by
  rw [encodeStep, if_neg (Nat.not_lt.2 hend), if_pos hfit]

/-- Settles O32: one byte through EncStep, or the flush, without a tail at PHASE 0 and with one elsewhere. -/
theorem encodeMicroStep : Obligations.EncodeMicroStep := by
  intro s hop hsize b
  refine ⟨fun hmore hin hfit => ?byte, fun hend hphase => ?noTail, fun hend hphase hfit => ?tail⟩
  case byte =>
    refine ⟨{ s.feedByte b with ek := s.ek + 1 }, ?_, ?_, State.memRead_feedByte_at hsize hfit b,
      State.memRead_feedByte_outside hsize hfit b⟩
    · exact (engineStep_encode hop).trans (encodeStep_byte hmore hin hfit)
    · exact congrArg (fun u : State => { u with ek := s.ek + 1 }) (s.feedByte_eq_ebyteOut b)
  case noTail =>
    rw [engineStep_encode hop, encodeStep_flush hend (.inl (State.eflushOut_of_phase_zero hphase)),
      State.flushStream_of_phase_zero hphase]
    rw [State.setStream, State.complete, ← hphase]
  case tail =>
    have htail : s.InRange s.charAddr s.eflushOut := by
      rw [State.eflushOut_of_phase_ne_zero hphase]
      exact hfit
    refine ⟨s.flushStream.complete, ?_, ?_, State.memRead_flushStream_tail hphase⟩
    · exact (engineStep_encode hop).trans (encodeStep_flush hend (.inr htail))
    · rw [State.flushStream_of_phase_ne_zero hphase]
      rfl

end Sys2Proof.Machine
end

section
/-! The control commands (43_control.md R170, R171): NOP on an idle and on a busy block, the words with NOP's OPC, the
STATUS and the memory that SRST leaves, and with these the obligations on the two commands. -/

namespace Sys2Proof.Machine

/-! ### NOP (R170) -/

/-- On an idle block the dispatch's DONE <- 0 is overwritten by DONE <- 1, all that NOP leaves behind. -/
theorem exec_nop_idle {s : State} (hidle : s.busy = false) : exec .nop s = .next (s.setDone true) :=
  congrArg Host.Outcome.next (s.dispatchSingle_idle id hidle)

/-- NOP is the one command with OPC 0x00 (30_encoding.md R72). -/
theorem eq_nop_of_decode {w : Word} {i : Instr} (hopc : opcField w = 0x00#8) (h : decode w = .ok i) : i = .nop := by
  obtain ⟨-, ⟨hebyte, -⟩ | ⟨-, hplain⟩⟩ := (decode_eq_ok_iff w i).1 h
  · exact absurd (hopc.symm.trans hebyte) (by decide)
  · rw [hopc] at hplain
    exact (Option.some.inj hplain).symm

/-- A word with OPC 0x00 and any other bit set is reserved (43_control.md R170). -/
theorem decode_ne_ok_of_opcField_zero {w : Word} (hopc : opcField w = 0x00#8) (hw : w ≠ 0x00000000#32) (i : Instr) :
    decode w ≠ .ok i := by
  intro h
  obtain rfl := eq_nop_of_decode hopc h
  exact hw ((decode_eq_ok_iff_eq_matchBits (i := .nop) rfl w).1 h)

/-- Settles O23: NOP through the dispatch, idle and busy; its one word; the other words with its OPC are reserved. -/
theorem nopOnlySetsDone : Obligations.NopOnlySetsDone := by
  refine ⟨fun s hop => ?idle, fun s hop => ?busy, decode_eq_ok_iff_eq_matchBits (i := .nop) rfl,
    fun s w hop hopc hw => ?reserved⟩
  case idle => exact exec_nop_idle (s.not_busy_iff.2 hop)
  case busy => exact exec_busy .nop s (by decide) (s.busy_iff.2 hop)
  case reserved =>
    exact (regWrite_word_offset .cmd w s).trans
      (cmdWrite_reserved_idle (decode_ne_ok_of_opcField_zero hopc hw) (s.not_busy_iff.2 hop))

/-! ### SRST (R171) -/

/-- Of STATUS only DONE, bit 1, is left set. -/
theorem State.softReset_statusWord (s : State) : s.softReset.statusWord = 0x00000002#32 := by
  have hidle : s.softReset.busy = false := s.softReset.not_busy_iff.2 s.softReset_op
  simp [State.statusWord, hidle, flagAt]

@[simp] theorem State.memRead_softReset (s : State) (a : Nat) : s.softReset.memRead a = s.memRead a :=
  State.memRead_congr s s.softReset s.softReset_mem a

/-- Settles O24: `exec` answers `softReset` in every state, whose fields are those of the statement; its one word. -/
theorem srstResetsTheEngine : Obligations.SrstResetsTheEngine :=
  ⟨fun s => ⟨s.softReset, rfl, s.softReset_statusWord, rfl, s.memRead_softReset⟩,
    decode_eq_ok_iff_eq_matchBits (i := .srst) rfl⟩

end Sys2Proof.Machine
end

section
/-! Errors (60_exceptions.md R182, R183): the error flags under each operation, what a command and a micro-step do to
them, the first acceptance check that fails, and with these the obligations on errors. -/

namespace Sys2Proof.Machine

/-! ### The error flags -/

/-- The flag of a cause is one of five fields of the state. -/
theorem State.errFlag_congr {s t : State} (hcmd : t.errCmd = s.errCmd) (hdim : t.errDim = s.errDim)
    (hrange : t.errRange = s.errRange) (hoverlap : t.errOverlap = s.errOverlap) (hbusy : t.errBusy = s.errBusy)
    (e : Err) : t.errFlag e = s.errFlag e := by
  cases e with
  | cmd => exact hcmd
  | dim => exact hdim
  | range => exact hrange
  | overlap => exact hoverlap
  | busy => exact hbusy

@[simp] theorem State.errFlag_setDone (s : State) (d : Bool) (e : Err) : (s.setDone d).errFlag e = s.errFlag e :=
  State.errFlag_congr rfl rfl rfl rfl rfl e

@[simp] theorem State.errFlag_complete (s : State) (e : Err) : s.complete.errFlag e = s.errFlag e :=
  State.errFlag_congr rfl rfl rfl rfl rfl e

@[simp] theorem State.errFlag_advanceTile (s : State) (e : Err) : s.advanceTile.errFlag e = s.errFlag e :=
  State.errFlag_congr s.advanceTile_errCmd s.advanceTile_errDim s.advanceTile_errRange s.advanceTile_errOverlap
    s.advanceTile_errBusy e

@[simp] theorem State.errFlag_feedByte (s : State) (b : Byte) (e : Err) : (s.feedByte b).errFlag e = s.errFlag e := by
  rw [s.feedByte_eq]
  exact State.errFlag_congr rfl rfl rfl rfl rfl e

@[simp] theorem State.errFlag_flushStream (s : State) (e : Err) : s.flushStream.errFlag e = s.errFlag e := by
  rw [s.flushStream_eq]
  exact State.errFlag_congr rfl rfl rfl rfl rfl e

@[simp] theorem State.errFlag_softReset (s : State) (e : Err) : s.softReset.errFlag e = false := by cases e <;> rfl

/-- Of the registers, `raise` writes DONE and the error flags only (R182). -/
theorem State.raise_eq (s : State) (e : Err) : s.raise e = { s with
    done := true, errCmd := (s.raise e).errCmd, errDim := (s.raise e).errDim, errRange := (s.raise e).errRange,
    errOverlap := (s.raise e).errOverlap, errBusy := (s.raise e).errBusy } := by
  cases e <;> rfl

/-! ### Which steps set an error flag -/

/-- A command of an idle block is rejected by `raise`, or sets no error flag. -/
theorem exec_raises_or_sets_no_errFlag {i : Instr} {s t : State} (hidle : s.busy = false)
    (h : exec i s = .next t) : (∃ e, t = s.raise e) ∨ ∀ e, t.errFlag e = true → s.errFlag e = true := by
  obtain ⟨-, hb, -⟩ | ⟨-, rfl⟩ | ⟨-, hcases⟩ := exec_cases i s t h
  · exact absurd hb (by simp [hidle])
  · exact .inr (by simp)
  obtain ⟨e, -, rfl⟩ | hdone := hcases
  · exact .inl ⟨e, rfl⟩
  have hsame : ∀ e, t.errFlag e = s.errFlag e := by
    intro e
    obtain ⟨-, rfl⟩ | ⟨-, -, rfl⟩ | ⟨-, -, rfl⟩ | ⟨-, rfl⟩ | ⟨b, -, -, rfl⟩ | ⟨-, -, rfl⟩ | ⟨-, -, rfl⟩ := hdone
    · exact s.errFlag_setDone true e
    · exact State.errFlag_congr rfl rfl rfl rfl rfl e
    · exact State.errFlag_congr rfl rfl rfl rfl rfl e
    · exact State.errFlag_congr rfl rfl rfl rfl rfl e
    · exact ((s.feedByte b).errFlag_setDone true e).trans (s.errFlag_feedByte b e)
    · exact (s.flushStream.errFlag_setDone true e).trans (s.errFlag_flushStream e)
    · exact State.errFlag_congr rfl rfl rfl rfl rfl e
  exact .inr fun e he => (hsame e).symm.trans he

/-- A command of an idle block that sets a new error flag was rejected by `raise` (R182). -/
theorem exec_eq_raise_of_new_errFlag {i : Instr} {s t : State} {e : Err} (hidle : s.busy = false)
    (h : exec i s = .next t) (hold : s.errFlag e = false) (hnew : t.errFlag e = true) : t = s.raise e := by
  obtain ⟨e', rfl⟩ | hno := exec_raises_or_sets_no_errFlag hidle h
  · have he : e = e' := by simpa [s.raise_errFlag, hold] using hnew
    rw [he]
  · exact absurd (hold.symm.trans (hno e hnew)) (by decide)

/-- No error arises after a command is accepted (R182). -/
theorem errFlag_engineStep {s t : State} (h : engineStep s = .next t) (e : Err) : t.errFlag e = s.errFlag e := by
  obtain ⟨-, rfl⟩ | ⟨-, hpack⟩ | ⟨-, hascan⟩ | ⟨-, hencode⟩ := engineStep_cases s t h
  · rfl
  · obtain ⟨-, -, rfl⟩ | ⟨-, rfl⟩ := packStep_cases s t hpack
    · exact (State.errFlag_advanceTile _ e).trans (State.errFlag_congr rfl rfl rfl rfl rfl e)
    · exact s.errFlag_complete e
  · obtain ⟨-, -, rfl⟩ | ⟨-, rfl⟩ := ascanStep_cases s t hascan
    · exact State.errFlag_congr rfl rfl rfl rfl rfl e
    · exact s.errFlag_complete e
  · obtain ⟨-, -, -, rfl⟩ | ⟨-, -, rfl⟩ := encodeStep_cases s t hencode
    · exact (State.errFlag_congr rfl rfl rfl rfl rfl e).trans (s.errFlag_feedByte _ e)
    · exact (s.flushStream.errFlag_complete e).trans (s.errFlag_flushStream e)

/-- Settles O21: `raise` itself, the commands of an idle and of a busy block, the micro-steps. -/
theorem errorsArePrecise : Obligations.ErrorsArePrecise := by
  refine ⟨fun s e => ⟨?flag, s.raise_done e, fun e' hne => ?others, s.raise_eq e⟩,
    fun i s t e hop => exec_eq_raise_of_new_errFlag (s.not_busy_iff.2 hop),
    fun i s hop hi => exec_busy i s hi (s.busy_iff.2 hop), fun s t e h => errFlag_engineStep h e⟩
  case flag => simp [s.raise_errFlag]
  case others => simp [s.raise_errFlag, hne]

/-! ### The first check that fails (41_bitpacker.md R110, 42_b64encoder.md R145) -/

theorem State.planeCheck_dim {s : State} (hdim : s.planeW % 8 ≠ 0 ∨ s.planeH % 8 ≠ 0) (withDst : Bool) :
    s.planeCheck withDst = some .dim := if_pos hdim

theorem State.planeCheck_src {s : State} (hw : s.planeW % 8 = 0) (hh : s.planeH % 8 = 0)
    (hsrc : ¬s.InRange s.src.toNat (s.planeW * s.planeH)) (withDst : Bool) :
    s.planeCheck withDst = some .range := by
  simp only [State.planeCheck, hw, hh, ne_eq, not_true, or_self, if_false, if_pos hsrc]

theorem State.planeCheck_dst {s : State} (hw : s.planeW % 8 = 0) (hh : s.planeH % 8 = 0)
    (hsrc : s.InRange s.src.toNat (s.planeW * s.planeH))
    (hdst : ¬s.InRange s.dst.toNat (s.planeW * s.planeH / 8)) : s.planeCheck true = some .range := by
  simp only [State.planeCheck, hw, hh, hsrc, ne_eq, not_true, or_self, if_false, if_pos (And.intro trivial hdst)]

theorem State.planeCheck_overlap {s : State} (hw : s.planeW % 8 = 0) (hh : s.planeH % 8 = 0)
    (hsrc : s.InRange s.src.toNat (s.planeW * s.planeH)) (hdst : s.InRange s.dst.toNat (s.planeW * s.planeH / 8))
    (hover : Overlap s.src.toNat (s.planeW * s.planeH) s.dst.toNat (s.planeW * s.planeH / 8)) :
    s.planeCheck true = some .overlap := by
  simp only [State.planeCheck, hw, hh, hsrc, hdst, ne_eq, not_true, or_self, and_false, if_false,
    if_pos (And.intro trivial hover)]

/-- ENCODE reports ERR_RANGE for its source and for its destination alike. -/
theorem State.encodeCheck_range {s : State}
    (hout : ¬s.InRange s.src.toNat s.inputLen ∨ ¬s.InRange s.dst.toNat (encLength s.inputLen)) :
    s.encodeCheck = some .range := by
  by_cases hsrc : s.InRange s.src.toNat s.inputLen
  · have hdst := hout.resolve_left (not_not.2 hsrc)
    simp only [State.encodeCheck, hsrc, not_true, if_false, if_pos hdst]
  · exact if_pos hsrc

theorem State.encodeCheck_overlap {s : State} (hsrc : s.InRange s.src.toNat s.inputLen)
    (hdst : s.InRange s.dst.toNat (encLength s.inputLen))
    (hover : Overlap s.src.toNat s.inputLen s.dst.toNat (encLength s.inputLen)) : s.encodeCheck = some .overlap := by
  simp only [State.encodeCheck, hsrc, hdst, not_true, if_false, if_pos hover]

/-! ### Rejected commands -/

/-- The dispatch's DONE <- 0 plays no part in the plane's checks. -/
theorem State.planeCheck_setDone (s : State) (d withDst : Bool) :
    (s.setDone d).planeCheck withDst = s.planeCheck withDst := rfl

/-- The dispatch's DONE <- 0 plays no part in ENCODE's checks. -/
theorem State.encodeCheck_setDone (s : State) (d : Bool) : (s.setDone d).encodeCheck = s.encodeCheck := rfl

theorem exec_pack_rejected {s : State} {e : Err} (hidle : s.busy = false) (hcheck : s.planeCheck true = some e) :
    exec .pack s = .next (s.raise e) := by
  rw [exec, execPack, State.dispatch_idle _ _ hidle]
  simp only [State.planeCheck_setDone, hcheck, State.raise_setDone]

theorem exec_ascan_rejected {s : State} {e : Err} (hidle : s.busy = false) (hcheck : s.planeCheck false = some e) :
    exec .ascan s = .next (s.raise e) := by
  rw [exec, execAscan, State.dispatch_idle _ _ hidle]
  simp only [State.planeCheck_setDone, hcheck, State.raise_setDone]

theorem exec_encode_rejected {s : State} {e : Err} (hidle : s.busy = false) (hcheck : s.encodeCheck = some e) :
    exec .encode s = .next (s.raise e) := by
  rw [exec, execEncode, State.dispatch_idle _ _ hidle]
  simp only [State.encodeCheck_setDone, hcheck, State.raise_setDone]

/-- Settles O22: a busy block, a reserved word, then the first check that fails of PACK and ASCAN and of ENCODE. -/
theorem oneErrorInOrder : Obligations.OneErrorInOrder := by
  refine ⟨fun s w hop hw => ?busy, fun s w hop hreserved => ?reserved, ?plane, ?encode⟩
  case busy => exact (regWrite_word_offset .cmd w s).trans (cmdWrite_busy hw (s.busy_iff.2 hop))
  case reserved =>
    exact (regWrite_word_offset .cmd w s).trans (cmdWrite_reserved_idle hreserved (s.not_busy_iff.2 hop))
  case plane =>
    intro s hop w h src dst
    have hidle : s.busy = false := s.not_busy_iff.2 hop
    refine ⟨fun hdim => ⟨?_, ?_⟩, fun hw hh => ⟨fun hsrc => ⟨?_, ?_⟩, fun hsrc hdst => ?_, fun hsrc hdst hover => ?_⟩⟩
    · exact exec_pack_rejected hidle (State.planeCheck_dim hdim true)
    · exact exec_ascan_rejected hidle (State.planeCheck_dim hdim false)
    · exact exec_pack_rejected hidle (State.planeCheck_src hw hh (Nat.not_le.2 hsrc) true)
    · exact exec_ascan_rejected hidle (State.planeCheck_src hw hh (Nat.not_le.2 hsrc) false)
    · exact exec_pack_rejected hidle (State.planeCheck_dst hw hh hsrc (Nat.not_le.2 hdst))
    · exact exec_pack_rejected hidle (State.planeCheck_overlap hw hh hsrc hdst hover)
  case encode =>
    intro s hop n src dst
    have hidle : s.busy = false := s.not_busy_iff.2 hop
    refine ⟨fun hout => ?_, fun hsrc hdst hover => ?_⟩
    · exact exec_encode_rejected hidle (State.encodeCheck_range (hout.imp Nat.not_le.2 Nat.not_le.2))
    · exact exec_encode_rejected hidle (State.encodeCheck_overlap hsrc hdst hover)

end Sys2Proof.Machine
end

section
/-! Words and commands both ways (30_encoding.md R70 to R75): decoder and encoder are inverse to each other, the words
of the opcode map, the assembler's lines, and with these the obligations on encoding. -/

namespace Sys2Proof.Machine

/-! ### Decoder and encoder -/

/-- A command whose row masks no bit out is encoded as its row's match value. -/
theorem encode_eq_matchBits {i : Instr} (hmask : i.row.mask = BitVec.allOnes 32) : encode i = i.row.matchBits := by
  cases i with
  | ebyte b => exact absurd hmask (ebyte_row_mask_ne_allOnes b)
  | nop | srst | pack | ascan | einit | eflush | encode => rfl

/-- A word decodes to a command exactly when the command is encoded as that word. -/
theorem decode_eq_ok_iff_encode_eq (w : Word) (i : Instr) : decode w = .ok i ↔ encode i = w := by
  have hplain (hmask : i.row.mask = BitVec.allOnes 32) : decode w = .ok i ↔ encode i = w := by
    rw [decode_eq_ok_iff_eq_matchBits hmask, encode_eq_matchBits hmask, eq_comm]
  cases i with
  | ebyte b => rw [decode_eq_ok_ebyte_iff_eq_encode, eq_comm]
  | nop | srst | pack | ascan | einit | eflush | encode => exact hplain rfl

@[simp] theorem decode_encode (i : Instr) : decode (encode i) = .ok i := (decode_eq_ok_iff_encode_eq _ i).2 rfl

/-- Settles O2: the plain commands by their rows' match values, EBYTE by its fields. -/
theorem decodeEncodeAgree : Obligations.DecodeEncodeAgree := decode_eq_ok_iff_encode_eq

/-- Settles O1: each word is evaluated. -/
theorem tableWordsDecode : Obligations.TableWordsDecode := by
  refine ⟨?_, ?_, ?_, ?_, ?_, ?_, ?_, ?_, ?_, ?_⟩ <;> rfl

/-! ### The assembler (R75) -/

/-- EBYTE with a number in range is accepted, and its word carries the number in IMM8. -/
theorem assemble_ebyte {n : Nat} (hn : n ≤ 255) :
    assemble ⟨"EBYTE", some n⟩ = .ok (.ebyte (BitVec.ofNat 8 n)) := by
  simp [assemble, hn]

/-- EBYTE with a number out of range is refused. -/
theorem assemble_ebyte_outOfRange {n : Nat} (hn : 255 < n) :
    assemble ⟨"EBYTE", some n⟩ = .error .immediateOutOfRange := by
  simp [assemble, Nat.not_le.2 hn]

theorem setWidth_ofNat_byte {n : Nat} (hn : n ≤ 255) : (BitVec.ofNat 8 n).setWidth 32 = BitVec.ofNat 32 n := by
  apply BitVec.eq_of_toNat_eq
  simp only [BitVec.toNat_setWidth, BitVec.toNat_ofNat]
  omega

/-- A plain mnemonic is accepted alone and refused with an operand. -/
theorem assemble_plain {m : String} {i : Instr} (hne : m ≠ "EBYTE") (hm : plainMnemonic m = some i) :
    assemble ⟨m, none⟩ = .ok i ∧ ∀ n, assemble ⟨m, some n⟩ = .error .unexpectedOperand := by
  simp [assemble, hne, hm]

/-- Settles O5: EBYTE in and out of range, then the seven plain mnemonics of the table one by one. -/
theorem assemblerGivesTheWords : Obligations.AssemblerGivesTheWords := by
  refine ⟨fun n hn => ⟨_, assemble_ebyte hn, ?_⟩, fun n hn => assemble_ebyte_outOfRange hn, fun p hp => ?_⟩
  · rw [encode, setWidth_ofNat_byte hn]
  · have hrow : ∃ i, p.1 ≠ "EBYTE" ∧ plainMnemonic p.1 = some i ∧ encode i = p.2 := by
      simp only [List.mem_cons, List.not_mem_nil, or_false] at hp
      obtain rfl | rfl | rfl | rfl | rfl | rfl | rfl := hp
      · exact ⟨.nop, by decide, rfl, rfl⟩
      · exact ⟨.srst, by decide, rfl, rfl⟩
      · exact ⟨.pack, by decide, rfl, rfl⟩
      · exact ⟨.ascan, by decide, rfl, rfl⟩
      · exact ⟨.einit, by decide, rfl, rfl⟩
      · exact ⟨.eflush, by decide, rfl, rfl⟩
      · exact ⟨.encode, by decide, rfl, rfl⟩
    obtain ⟨i, hne, hi, hword⟩ := hrow
    obtain ⟨halone, hwith⟩ := assemble_plain hne hi
    exact ⟨⟨i, halone, hword⟩, hwith⟩

end Sys2Proof.Machine
end

section
/-! The register port, continued (10_state.md R26, R34, R41 to R43): STATUS and ENC_STATE bit by bit, accesses that
reach no register, stores to the configuration registers, and with these the obligations on them. -/

namespace Sys2Proof.Machine

/-! ### STATUS (R26) -/

/-- A flag stands at its own bit and nowhere else. -/
theorem flagAt_getLsbD (b : Bool) {i : Nat} (hi : i < 32) (j : Nat) :
    (flagAt b i).getLsbD j = (decide (j = i) && b) := by
  by_cases hj : j = i
  · subst hj
    simp [flagAt, hi]
  · by_cases hlt : j < i
    · simp [flagAt, hj, hlt]
    · have hpos : 1 ≤ j - i := by omega
      simp [flagAt, hj, BitVec.getLsbD_of_ge _ _ hpos]

/-- The field of STATUS that stands at a bit (R26); bits 31:8 are zero. -/
def State.statusBit (s : State) : Nat → Bool
  | 0 => s.busy
  | 1 => s.done
  | 2 => s.alphaPresent
  | 3 => s.errCmd
  | 4 => s.errDim
  | 5 => s.errRange
  | 6 => s.errOverlap
  | 7 => s.errBusy
  | _ + 8 => false

theorem State.statusBit_of_ge (s : State) {i : Nat} (hi : 8 ≤ i) : s.statusBit i = false := by
  obtain ⟨k, rfl⟩ := Nat.exists_eq_add_of_le' hi
  rfl

/-- STATUS as it reads, bit by bit. -/
theorem State.statusWord_getLsbD (s : State) (i : Nat) : s.statusWord.getLsbD i = s.statusBit i := by
  simp only [State.statusWord, BitVec.getLsbD_or, flagAt_getLsbD _ (show 0 < 32 by decide),
    flagAt_getLsbD _ (show 1 < 32 by decide), flagAt_getLsbD _ (show 2 < 32 by decide),
    flagAt_getLsbD _ (show 3 < 32 by decide), flagAt_getLsbD _ (show 4 < 32 by decide),
    flagAt_getLsbD _ (show 5 < 32 by decide), flagAt_getLsbD _ (show 6 < 32 by decide),
    flagAt_getLsbD _ (show 7 < 32 by decide)]
  rcases Nat.lt_or_ge i 8 with hi | hi
  · interval_cases i <;> simp [State.statusBit]
  · have hne : ∀ k, k < 8 → i ≠ k := by omega
    simp [State.statusBit_of_ge s hi, hne]

/-- Settles O12: each bit of the word is its field. -/
theorem statusReadsBitByBit : Obligations.StatusReadsBitByBit := by
  intro s v
  have hbit (i : Nat) : v.getLsbD i = s.statusBit i :=
    (congrArg (·.getLsbD i) (s.regRead_word_offset .status)).trans (s.statusWord_getLsbD i)
  exact ⟨hbit 0, hbit 1, hbit 2, hbit 3, hbit 4, hbit 5, hbit 6, hbit 7,
    fun i hi => (hbit i).trans (s.statusBit_of_ge hi)⟩

/-- Write 1 to clear reaches DONE and the error flags. -/
theorem State.clearStatus_statusBit_w1c (s : State) (v : Word) {i : Nat} (hi : i ∈ [1, 3, 4, 5, 6, 7]) :
    (s.clearStatus v).statusBit i = (s.statusBit i && !v.getLsbD i) := by
  simp only [List.mem_cons, List.not_mem_nil, or_false] at hi
  obtain rfl | rfl | rfl | rfl | rfl | rfl := hi <;> rfl

/-- Write 1 to clear leaves BUSY, ALPHA_PRESENT and the reserved bits. -/
theorem State.clearStatus_statusBit_readOnly (s : State) (v : Word) {i : Nat} (hi : i ∉ [1, 3, 4, 5, 6, 7]) :
    (s.clearStatus v).statusBit i = s.statusBit i := by
  match i with
  | 0 | 2 | _ + 8 => rfl
  | 1 | 3 | 4 | 5 | 6 | 7 => exact absurd hi (by simp)

/-- Settles O13: the write is `clearStatus`, read through the bits of STATUS. -/
theorem statusWriteOneToClear : Obligations.StatusWriteOneToClear := by
  intro s v
  refine ⟨s.clearStatus v, regWrite_word_offset .status v s, fun i hi => ?_, fun i hi => ?_, rfl⟩
  · rw [State.statusWord_getLsbD, State.statusWord_getLsbD, s.clearStatus_statusBit_w1c v hi]
  · rw [State.statusWord_getLsbD, State.statusWord_getLsbD, s.clearStatus_statusBit_readOnly v hi]

/-! ### ENC_STATE (R34) -/

/-- The four fields of ENC_STATE: PHASE, reserved, LEFTOVER, reserved. -/
theorem State.encStateWord_fields (s : State) :
    s.encStateWord.extractLsb' 0 2 = BitVec.ofNat 2 s.phase.val ∧ s.encStateWord.extractLsb' 2 6 = 0 ∧
      s.encStateWord.extractLsb' 8 6 = s.leftover ∧ s.encStateWord.extractLsb' 14 18 = 0 := by
  unfold State.encStateWord
  generalize s.phase = p
  generalize s.leftover = lo
  revert p lo
  decide

/-- A bit of a word inside a field that reads 0 is 0. -/
theorem getLsbD_of_extractLsb'_eq_zero {w : Word} {start len i : Nat} (h : w.extractLsb' start len = 0)
    (hlow : start ≤ i) (hhigh : i < start + len) : w.getLsbD i = false := by
  have hbit := congrArg (·.getLsbD (i - start)) h
  have hin : i - start < len := by omega
  simpa [BitVec.getLsbD_extractLsb', hin, Nat.add_sub_cancel' hlow] using hbit

/-- Bits 7:2 and 31:14 of ENC_STATE are reserved. -/
theorem State.encStateWord_getLsbD_reserved (s : State) {i : Nat} (hi : (2 ≤ i ∧ i < 8) ∨ 14 ≤ i) :
    s.encStateWord.getLsbD i = false := by
  obtain ⟨-, hmiddle, -, htop⟩ := s.encStateWord_fields
  obtain ⟨hlow, hhigh⟩ | hge := hi
  · exact getLsbD_of_extractLsb'_eq_zero hmiddle hlow hhigh
  · rcases Nat.lt_or_ge i 32 with hlt | hout
    · exact getLsbD_of_extractLsb'_eq_zero htop hge hlt
    · exact BitVec.getLsbD_of_ge _ i hout

/-- Settles O14: the fields of the word read; PHASE is below 3. -/
theorem encStateReadsPhaseAndLeftover : Obligations.EncStateReadsPhaseAndLeftover := by
  intro s v r
  have hr : r = s.encStateWord := s.regRead_word_offset .encState
  obtain ⟨hphase, hmiddle, hleftover, htop⟩ := s.encStateWord_fields
  have hlt : s.phase.val < 3 := s.phase.isLt
  have hval : (r.extractLsb' 0 2).toNat = s.phase.val := by
    rw [hr, hphase, BitVec.toNat_ofNat]
    omega
  refine ⟨hval, ?_, hr ▸ hmiddle, hr ▸ hleftover, hr ▸ htop, regWrite_word_offset .encState v s⟩
  rw [hval]
  exact hlt.ne

/-! ### Accesses that reach no register (R41, R42) -/

theorem regWrite_unreached {size : AccessSize} {off : RegOffset} (h : regAccessed size off = none) (v : Word)
    (s : State) : regWrite size off v s = .next s ∧ s.regRead size off = 0 := by
  simp [regWrite, State.regRead, h]

/-- A narrow access and one at an offset that is no multiple of 4 reach no register. -/
theorem regAccessed_narrow_or_misaligned {size : AccessSize} {off : RegOffset}
    (h : size ≠ .word ∨ off.toNat % 4 ≠ 0) : regAccessed size off = none := by
  have hoff : ∀ off : RegOffset, off.toNat % 4 ≠ 0 → regAt off = none := by decide
  unfold regAccessed
  split_ifs with hsize
  · exact hoff off (h.resolve_left (not_not.2 hsize))
  · rfl

/-- No register stands at the reserved offsets 0x2C and above. -/
theorem regAccessed_reserved {off : RegOffset} (h : 0x2C ≤ off.toNat) (size : AccessSize) :
    regAccessed size off = none := by
  have hoff : 0x2C ≤ off.toNat → regAt off = none := by revert off; decide
  simp [regAccessed, hoff h]

/-- WIDTH and HEIGHT store bits 15:0 only. -/
theorem setWidth_and_low16 (v : Word) : (v &&& 0x0000FFFF#32).setWidth 16 = v.setWidth 16 := by
  rw [BitVec.setWidth_and]
  exact BitVec.and_allOnes

/-- A write to STATUS looks at bits 7:0 only. -/
theorem State.clearStatus_and_low8 (s : State) (v : Word) : s.clearStatus (v &&& 0x000000FF#32) = s.clearStatus v := by
  simp [State.clearStatus]

/-- Settles O17: unreached and read-only offsets, the reserved bits of each register read, and the bits each register
written looks at. -/
theorem unreachedAccessesDoNothing : Obligations.UnreachedAccessesDoNothing := by
  intro s size off v
  have hwide (x : BitVec 16) (i : Nat) (hi : 16 ≤ i) : (x.setWidth 32).getLsbD i = false := by
    rw [BitVec.getLsbD_setWidth, BitVec.getLsbD_of_ge x i hi, Bool.and_false]
  refine ⟨fun h => regWrite_unreached (regAccessed_narrow_or_misaligned h) v s,
    fun h => regWrite_unreached (regAccessed_reserved h size) v s, fun ro hro => ?readOnly, fun i hi => ⟨?_, ?_⟩,
    fun i hi => ?status, fun i hi => ?encState, ?width, ?height, ?clear⟩
  case readOnly =>
    by_cases hsize : size = .word
    · subst hsize
      have hignored : (regAt ro).all Reg.isReadOnly = true := by revert ro; decide
      exact regWrite_ignored hignored v s
    · exact (regWrite_unreached (regAccessed_narrow_or_misaligned (.inl hsize)) v s).1
  case status =>
    exact (congrArg (·.getLsbD i) (s.regRead_word_offset .status)).trans
      ((s.statusWord_getLsbD i).trans (s.statusBit_of_ge hi))
  case encState =>
    exact (congrArg (·.getLsbD i) (s.regRead_word_offset .encState)).trans (s.encStateWord_getLsbD_reserved hi)
  case width =>
    refine (regWrite_word_offset .width v s).trans (Eq.trans ?_ (regWrite_word_offset .width _ s).symm)
    simp only [regStore, setWidth_and_low16]
  case height =>
    refine (regWrite_word_offset .height v s).trans (Eq.trans ?_ (regWrite_word_offset .height _ s).symm)
    simp only [regStore, setWidth_and_low16]
  case clear =>
    refine (regWrite_word_offset .status v s).trans (Eq.trans ?_ (regWrite_word_offset .status _ s).symm)
    simp only [regStore, State.clearStatus_and_low8]
  · exact (congrArg (·.getLsbD i) (s.regRead_word_offset .width)).trans (hwide s.width i hi)
  · exact (congrArg (·.getLsbD i) (s.regRead_word_offset .height)).trans (hwide s.height i hi)

/-! ### Stores to the configuration registers (R27 to R31) -/

theorem State.configWrite_idle (s : State) (store : State → State) (hidle : s.busy = false) :
    s.configWrite store = store s := by simp [State.configWrite, hidle]

/-- WIDTH and HEIGHT read back their low 16 bits, zero-extended. -/
theorem setWidth_setWidth_low16 (v : Word) : (v.setWidth 16).setWidth 32 = v &&& 0x0000FFFF#32 := by
  apply BitVec.eq_of_toNat_eq
  rw [BitVec.toNat_setWidth, BitVec.toNat_setWidth, BitVec.toNat_and]
  have hmask : v.toNat &&& (0x0000FFFF#32).toNat = v.toNat % 2 ^ 16 := Nat.and_two_pow_sub_one_eq_mod v.toNat 16
  rw [hmask]
  omega

/-- Settles O15: each store is `configWrite` on an idle block; the read-back by `setWidth_setWidth_low16`. -/
theorem configWritesStoreWhenIdle : Obligations.ConfigWritesStoreWhenIdle := by
  intro s v hop
  have hidle : s.busy = false := s.not_busy_iff.2 hop
  have hstore (r : Reg) (f : State → State) (hr : regStore r v s = .next (s.configWrite f)) :
      regWrite .word r.offset v s = .next (f s) := by
    rw [regWrite_word_offset, hr, s.configWrite_idle f hidle]
  have hlow : v.setWidth 16 = v.extractLsb' 0 16 := BitVec.setWidth_eq_extractLsb' (by decide)
  have hwidth : regWrite .word 0x14 v s = .next { s with width := v.setWidth 16 } := hstore .width _ rfl
  have hheight : regWrite .word 0x18 v s = .next { s with height := v.setWidth 16 } := hstore .height _ rfl
  refine ⟨hstore .src _ rfl, hstore .dst _ rfl, hlow ▸ hwidth, hlow ▸ hheight, hstore .length _ rfl,
    fun t ht => ?_, fun t ht => ?_⟩
  · obtain rfl := Host.Outcome.next.inj (hwidth.symm.trans ht)
    exact (State.regRead_word_offset _ .width).trans (setWidth_setWidth_low16 v)
  · obtain rfl := Host.Outcome.next.inj (hheight.symm.trans ht)
    exact (State.regRead_word_offset _ .height).trans (setWidth_setWidth_low16 v)

/-! ### The memory port outside the block, and WAIT -/

/-- Settles O19: both accesses take the branch outside the block. -/
theorem accessOutsideTheBlockIsRefused : Obligations.AccessOutsideTheBlockIsRefused := by
  intro s a b ha
  have hout : ¬a < s.memBytes := Nat.not_lt.2 ha
  exact ⟨if_neg hout, if_neg hout⟩

/-- Settles O20: the poll writes the last read, and puts the WAIT back while BUSY. -/
theorem waitPollsStatus : Obligations.WaitPollsStatus := by
  intro s rest hp
  refine ⟨waitPoll { s with program := rest }, ?_, rfl, fun hop => ?_, fun hop => ?_, rfl⟩
  · simp only [hostStep, hp, hostAct]
  · exact if_pos (s.busy_iff.2 hop)
  · exact if_neg (Bool.eq_false_iff.1 (s.not_busy_iff.2 hop))

end Sys2Proof.Machine
end

section
/-! One step and one command (10_state.md R35, 20_memory.md R61, 43_control.md R172): whose turn a step is, how a
command word comes to run, the two resets, what a command leaves in OP and DONE, how the multi-step commands start, and with
these the obligations on them. -/

namespace Sys2Proof.Machine

/-! ### Whose turn it is (R61) -/

theorem State.turn_of_schedule_cons {s : State} {turn : Turn} {rest : List Turn} (h : s.schedule = turn :: rest) :
    s.turn = turn := by simp [State.turn, h]

/-- With no turn fixed, an idle block's host moves. -/
theorem State.turn_of_idle {s : State} (h : s.schedule = []) (hidle : s.busy = false) : s.turn = .host := by
  simp [State.turn, h, hidle]

theorem State.takeTurn_of_schedule_cons {s : State} {turn : Turn} {rest : List Turn}
    (h : s.schedule = turn :: rest) : s.takeTurn = { s with schedule := rest } := by simp [State.takeTurn, h]

/-- Where no turn is fixed, none is taken off. -/
theorem State.takeTurn_of_schedule_nil {s : State} (h : s.schedule = []) : s.takeTurn = s := by
  have htail : s.schedule.tail = s.schedule := by rw [h]; rfl
  rw [State.takeTurn, htail]

theorem step_hardReset {s : State} (h : s.turn = .hardReset) : step s = .next s.takeTurn.hardReset := by
  simp [step, h]

/-- A host with something left to do takes its first action. -/
theorem hostStep_cons {s : State} {a : HostAction} {rest : List HostAction} (h : s.program = a :: rest) :
    hostStep s = hostAct a { s with program := rest } := by simp [hostStep, h]

theorem hostStep_nil {s : State} (h : s.program = []) : hostStep s = .next s := by simp [hostStep, h]

/-- The idle engine has no step (10_state.md R35). -/
theorem engineStep_idle {s : State} (hop : s.op = .idle) : engineStep s = .next s := by simp [engineStep, hop]

/-- Settles O7: the agent from the schedule or, without one, from OP. -/
theorem stepIsOneAgentsTurn : Obligations.StepIsOneAgentsTurn := by
  refine fun s rest => ⟨fun h => ?_, fun h => ?_, fun h hop => ?_, fun h hop => ?_, engineStep_idle, hostStep_nil⟩
  · rw [step_engine s (State.turn_of_schedule_cons h), State.takeTurn_of_schedule_cons h]
  · rw [step_host s (State.turn_of_schedule_cons h), State.takeTurn_of_schedule_cons h]
  · rw [step_engine s (s.turn_of_busy h (s.busy_iff.2 hop)), State.takeTurn_of_schedule_nil h]
  · rw [step_host s (State.turn_of_idle h (s.not_busy_iff.2 hop)), State.takeTurn_of_schedule_nil h]

/-! ### How a command comes to run -/

theorem cmdWrite_of_decode {w : Word} {i : Instr} (h : decode w = .ok i) (s : State) : cmdWrite w s = exec i s := by
  simp [cmdWrite, h]

/-- The host's write of a command's word to CMD runs the command. -/
theorem hostAct_command {w : Word} {i : Instr} (h : decode w = .ok i) (s : State) :
    hostAct (.command w) s = exec i s :=
  (regWrite_word_offset .cmd w s).trans (cmdWrite_of_decode h s)

/-- A host's turn whose first action is a command's write runs the command on the state with both taken off. -/
theorem step_command {s : State} {w : Word} {i : Instr} {rest : List HostAction} (hturn : s.turn = .host)
    (hprog : s.program = .command w :: rest) (h : decode w = .ok i) :
    step s = exec i { s.takeTurn with program := rest } := by
  rw [step_host s hturn, hostStep_cons (s := s.takeTurn) hprog, hostAct_command h]

/-- The word that `withFetchWord` places is run by the next step. -/
theorem step_withFetchWord {s : State} {nbits w : Nat} {i : Instr}
    (h : decode (BitVec.ofNat 32 (w % 2 ^ nbits)) = .ok i) : step (s.withFetchWord nbits w) = exec i s :=
  step_command (s := s.withFetchWord nbits w) rfl rfl h

theorem decode_of_decodeTableWord {nbits w : Nat} {i : Instr} (h : decodeTableWord nbits w = some i) :
    decode (BitVec.ofNat 32 (w % 2 ^ nbits)) = .ok i := by
  simp only [decodeTableWord] at h
  split_ifs at h
  cases hd : decode (BitVec.ofNat 32 (w % 2 ^ nbits)) with
  | ok j =>
    rw [hd] at h
    rw [Option.some.inj h]
  | error e =>
    rw [hd] at h
    cases h

/-- Settles O6: the host's write to CMD, as it stands in the program or as `withFetchWord` places it. -/
theorem stepRunsTheWrittenCommand : Obligations.StepRunsTheWrittenCommand :=
  ⟨fun _ _ _ _ hturn hprog h => step_command hturn hprog h,
    fun _ _ _ h => step_withFetchWord (decode_of_decodeTableWord h)⟩

/-! ### The resets -/

/-- Settles O9: the step is `hardReset`, which lists its fields and keeps the memory. -/
theorem hardResetAnyTime : Obligations.HardResetAnyTime := by
  intro s rest h
  refine ⟨State.hardReset { s with schedule := rest }, ?_, rfl, rfl, fun _ => rfl⟩
  rw [step_hardReset (State.turn_of_schedule_cons h), State.takeTurn_of_schedule_cons h]

/-- Settles O10: power-on lists no byte, and the two resets keep the list. -/
theorem unwrittenBytesAreFree : Obligations.UnwrittenBytesAreFree :=
  ⟨fun _ _ => rfl, fun s a => ⟨State.memRead_congr s s.hardReset s.hardReset_mem a, s.memRead_softReset a⟩⟩

/-! ### What a command leaves in OP, DONE and ERR_BUSY (R172) -/

@[simp] theorem State.feedByte_op (s : State) (b : Byte) : (s.feedByte b).op = s.op := by
  rw [s.feedByte_eq]

@[simp] theorem State.flushStream_op (s : State) : s.flushStream.op = s.op := by
  rw [s.flushStream_eq]

/-- ERR_BUSY is not among the errors of an idle block's command. -/
theorem errBusy_of_exec_idle {i : Instr} {s t : State} (hidle : s.busy = false) (h : exec i s = .next t)
    (ht : t.errBusy = true) : s.errBusy = true := by
  obtain ⟨-, hbusy, -⟩ | ⟨-, rfl⟩ | ⟨-, hcases⟩ := exec_cases i s t h
  · exact absurd hbusy (by simp [hidle])
  · exact absurd ht (by simp)
  obtain ⟨e, he, rfl⟩ | ⟨-, rfl⟩ | ⟨-, -, rfl⟩ | ⟨-, -, rfl⟩ | ⟨-, rfl⟩ | ⟨b, -, -, rfl⟩ | ⟨-, -, rfl⟩ |
    ⟨-, -, rfl⟩ := hcases
  · have hflag : (s.errBusy || decide (Err.busy = e)) = true := (s.raise_errFlag e .busy).symm.trans ht
    simpa [he.symm] using hflag
  · exact ht
  · exact ht
  · exact ht
  · exact ht
  · exact (s.errFlag_feedByte b .busy).symm.trans ht
  · exact (s.errFlag_flushStream .busy).symm.trans ht
  · exact ht

/-- An idle block ends a command with DONE, or starts a multi-step one without it. -/
theorem exec_idle_done_or_started {i : Instr} {s t : State} (hop : s.op = .idle) (h : exec i s = .next t) :
    (t.done = true ∧ t.op = .idle) ∨ (t.done = false ∧ t.op ≠ .idle ∧ i.multiStep = true) := by
  obtain ⟨-, hbusy, -⟩ | ⟨-, rfl⟩ | ⟨-, hcases⟩ := exec_cases i s t h
  · exact absurd hop (s.busy_iff.1 hbusy)
  · exact .inl ⟨rfl, rfl⟩
  obtain ⟨e, -, rfl⟩ | ⟨-, rfl⟩ | ⟨rfl, -, rfl⟩ | ⟨rfl, -, rfl⟩ | ⟨-, rfl⟩ | ⟨b, -, -, rfl⟩ | ⟨-, -, rfl⟩ |
    ⟨rfl, -, rfl⟩ := hcases
  · exact .inl ⟨s.raise_done e, (s.raise_op e).trans hop⟩
  · exact .inl ⟨rfl, hop⟩
  · exact .inr ⟨rfl, by simp, rfl⟩
  · exact .inr ⟨rfl, by simp, rfl⟩
  · exact .inl ⟨rfl, hop⟩
  · exact .inl ⟨rfl, (s.feedByte_op b).trans hop⟩
  · exact .inl ⟨rfl, s.flushStream_op.trans hop⟩
  · exact .inr ⟨rfl, by simp, rfl⟩

/-- Settles O25: a busy block by `exec_busy`, an idle one by `exec_idle_done_or_started`. -/
theorem dispatchDoneAndBusy : Obligations.DispatchDoneAndBusy := by
  refine ⟨fun i s hi hop => exec_busy i s hi (s.busy_iff.2 hop), fun i s hop => ?_⟩
  obtain ⟨t, ht⟩ := exec_next i s
  refine ⟨t, ht, ?_, ?_, errBusy_of_exec_idle (s.not_busy_iff.2 hop) ht⟩
  · obtain ⟨hdone, hidle⟩ | ⟨hdone, hbusy, -⟩ := exec_idle_done_or_started hop ht
    · exact iff_of_true hdone hidle
    · exact iff_of_false (Bool.eq_false_iff.1 hdone) hbusy
  · obtain ⟨-, hidle⟩ | ⟨-, -, hmulti⟩ := exec_idle_done_or_started hop ht
    · exact fun hne => absurd hidle hne
    · exact fun _ => hmulti

/-! ### The start of the multi-step commands (R105, R107, R145) -/

theorem exec_pack_accepted {s : State} (hidle : s.busy = false) (hcheck : s.planeCheck true = none) :
    exec .pack s = .next (s.setDone false).startPack := by
  rw [exec, execPack, State.dispatch_idle _ _ hidle]
  simp only [State.planeCheck_setDone, hcheck]

theorem exec_ascan_accepted {s : State} (hidle : s.busy = false) (hcheck : s.planeCheck false = none) :
    exec .ascan s = .next (s.setDone false).startAscan := by
  rw [exec, execAscan, State.dispatch_idle _ _ hidle]
  simp only [State.planeCheck_setDone, hcheck]

theorem exec_encode_accepted {s : State} (hidle : s.busy = false) (hcheck : s.encodeCheck = none) :
    exec .encode s = .next (s.setDone false).startEncode := by
  rw [exec, execEncode, State.dispatch_idle _ _ hidle]
  simp only [State.encodeCheck_setDone, hcheck]

/-- Settles O26: the conditions are the three commands' checks, and a start writes the fields listed. -/
theorem multiStepCommandsStart : Obligations.MultiStepCommandsStart := by
  intro s hop wh
  have hidle : s.busy = false := s.not_busy_iff.2 hop
  refine ⟨fun hw hh hsrc => ⟨?ascan, fun hdst hover => ?pack⟩, fun hsrc hdst hover => ?encode⟩
  case ascan => exact exec_ascan_accepted hidle (s.planeCheck_false_eq_none.2 ⟨hw, hh, hsrc⟩)
  case pack => exact exec_pack_accepted hidle (s.planeCheck_true_eq_none.2 ⟨hw, hh, hsrc, hdst, hover⟩)
  case encode => exact exec_encode_accepted hidle (s.encodeCheck_eq_none.2 ⟨hsrc, hdst, hover⟩)

end Sys2Proof.Machine
end

section
/-! What a turn writes, said once: which state differs from another in the status flags and the host's fields alone,
which inputs neither a command nor a micro-step writes, and the five kinds of a host turn. -/

namespace Sys2Proof.Machine

/-! ### Status flags and host's fields -/

/-- `s` with DONE, the error flags and the host's own fields of `t`. -/
def State.withStatusOf (s t : State) : State :=
  { s with
    done := t.done, errCmd := t.errCmd, errDim := t.errDim, errRange := t.errRange, errOverlap := t.errOverlap,
    errBusy := t.errBusy, program := t.program, schedule := t.schedule, hostRead := t.hostRead }

/-- From `s` to `t` only DONE, the error flags and the host's own fields have changed. -/
def State.StatusOnly (s t : State) : Prop := t = s.withStatusOf t

theorem State.StatusOnly.trans {s t u : State} (hst : s.StatusOnly t) (htu : t.StatusOnly u) : s.StatusOnly u := by
  have hpast : t.withStatusOf u = s.withStatusOf u := by rw [hst]; rfl
  exact Eq.trans htu hpast

theorem State.StatusOnly.op {s t : State} (h : s.StatusOnly t) : t.op = s.op := by rw [h]; rfl

theorem State.StatusOnly.memRead {s t : State} (h : s.StatusOnly t) (a : Nat) : t.memRead a = s.memRead a := by
  rw [h]; rfl

theorem State.statusOnly_setErr (s : State) (e : Err) : s.StatusOnly (s.setErr e) := by cases e <;> rfl

theorem State.statusOnly_raise (s : State) (e : Err) : s.StatusOnly (s.raise e) := by cases e <;> rfl

theorem State.statusOnly_takeTurn (s : State) : s.StatusOnly s.takeTurn := rfl

/-- A flag that is set stays set where one more is. -/
theorem State.errFlag_setErr (s : State) (e e' : Err) : (s.setErr e).errFlag e' = (s.errFlag e' || decide (e' = e)) :=
  s.raise_errFlag e e'

/-! ### The inputs of a command -/

/-- From `s` to `t` the operands, the size of the memory and what host and agents still have to do are the same. -/
structure State.KeepsInputs (s t : State) : Prop where
  src : t.src = s.src
  dst : t.dst = s.dst
  width : t.width = s.width
  height : t.height = s.height
  length : t.length = s.length
  memBytes : t.memBytes = s.memBytes
  program : t.program = s.program
  schedule : t.schedule = s.schedule

theorem State.KeepsInputs.refl (s : State) : s.KeepsInputs s := ⟨rfl, rfl, rfl, rfl, rfl, rfl, rfl, rfl⟩

theorem State.KeepsInputs.trans {s t u : State} (hst : s.KeepsInputs t) (htu : t.KeepsInputs u) : s.KeepsInputs u :=
  ⟨htu.src.trans hst.src, htu.dst.trans hst.dst, htu.width.trans hst.width, htu.height.trans hst.height,
    htu.length.trans hst.length, htu.memBytes.trans hst.memBytes, htu.program.trans hst.program,
    htu.schedule.trans hst.schedule⟩

theorem State.keepsInputs_setDone (s : State) (d : Bool) : s.KeepsInputs (s.setDone d) :=
  ⟨rfl, rfl, rfl, rfl, rfl, rfl, rfl, rfl⟩

theorem State.keepsInputs_raise (s : State) (e : Err) : s.KeepsInputs (s.raise e) := by
  cases e <;> exact ⟨rfl, rfl, rfl, rfl, rfl, rfl, rfl, rfl⟩

theorem State.keepsInputs_setErr (s : State) (e : Err) : s.KeepsInputs (s.setErr e) := by
  cases e <;> exact ⟨rfl, rfl, rfl, rfl, rfl, rfl, rfl, rfl⟩

theorem State.keepsInputs_complete (s : State) : s.KeepsInputs s.complete := ⟨rfl, rfl, rfl, rfl, rfl, rfl, rfl, rfl⟩

theorem State.keepsInputs_feedByte (s : State) (b : Byte) : s.KeepsInputs (s.feedByte b) := by
  rw [s.feedByte_eq]
  exact ⟨rfl, rfl, rfl, rfl, rfl, rfl, rfl, rfl⟩

theorem State.keepsInputs_flushStream (s : State) : s.KeepsInputs s.flushStream := by
  rw [s.flushStream_eq]
  exact ⟨rfl, rfl, rfl, rfl, rfl, rfl, rfl, rfl⟩

theorem State.keepsInputs_advanceTile (s : State) : s.KeepsInputs s.advanceTile := by
  rw [s.advanceTile_eq]
  exact ⟨rfl, rfl, rfl, rfl, rfl, rfl, rfl, rfl⟩

theorem State.keepsInputs_storeTileRow (s : State) : s.KeepsInputs s.storeTileRow :=
  ⟨rfl, rfl, rfl, rfl, rfl, rfl, rfl, rfl⟩

/-- No command writes its inputs. -/
theorem exec_keepsInputs {i : Instr} {s t : State} (h : exec i s = .next t) : s.KeepsInputs t := by
  obtain ⟨-, -, rfl⟩ | ⟨-, rfl⟩ | ⟨-, hcases⟩ := exec_cases i s t h
  · exact s.keepsInputs_setErr .busy
  · exact ⟨rfl, rfl, rfl, rfl, rfl, rfl, rfl, rfl⟩
  obtain ⟨e, -, rfl⟩ | ⟨-, rfl⟩ | ⟨-, -, rfl⟩ | ⟨-, -, rfl⟩ | ⟨-, rfl⟩ | ⟨b, -, -, rfl⟩ | ⟨-, -, rfl⟩ |
    ⟨-, -, rfl⟩ := hcases
  · exact s.keepsInputs_raise e
  · exact s.keepsInputs_setDone true
  · exact ⟨rfl, rfl, rfl, rfl, rfl, rfl, rfl, rfl⟩
  · exact ⟨rfl, rfl, rfl, rfl, rfl, rfl, rfl, rfl⟩
  · exact ⟨rfl, rfl, rfl, rfl, rfl, rfl, rfl, rfl⟩
  · exact (s.keepsInputs_feedByte b).trans (State.keepsInputs_setDone _ true)
  · exact s.keepsInputs_flushStream.trans (State.keepsInputs_setDone _ true)
  · exact ⟨rfl, rfl, rfl, rfl, rfl, rfl, rfl, rfl⟩

/-- What a PACK micro-step can do, with the store named. -/
theorem packStep_next {s t : State} (h : packStep s = .next t) :
    (s.pkCount.toNat < s.packedLen ∧ t = s.storeTileRow.advanceTile) ∨
      (s.packedLen ≤ s.pkCount.toNat ∧ t = s.complete) := by
  obtain ⟨hmore, hok, -⟩ | ⟨hend, rfl⟩ := packStep_cases s t h
  · exact .inl ⟨hmore, (Host.Outcome.next.inj ((packStep_row hmore hok).symm.trans h)).symm⟩
  · exact .inr ⟨Nat.not_lt.1 hend, rfl⟩

/-- The state after the byte of an ENCODE micro-step (R146). -/
def State.encodeByte (s : State) : State :=
  { s.feedByte (s.memRead (s.inputAddr s.ek.toNat)) with ek := s.ek + 1 }

theorem State.keepsInputs_encodeByte (s : State) : s.KeepsInputs s.encodeByte := by
  obtain ⟨hsrc, hdst, hwidth, hheight, hlength, hbytes, hprog, hsched⟩ :=
    s.keepsInputs_feedByte (s.memRead (s.inputAddr s.ek.toNat))
  exact ⟨hsrc, hdst, hwidth, hheight, hlength, hbytes, hprog, hsched⟩

/-- What an ENCODE micro-step can do, with the byte named. -/
theorem encodeStep_next {s t : State} (h : encodeStep s = .next t) :
    (s.ek.toNat < s.inputLen ∧ t = s.encodeByte) ∨
      (s.inputLen ≤ s.ek.toNat ∧ (s.eflushOut = 0 ∨ s.InRange s.charAddr s.eflushOut) ∧
        t = s.flushStream.complete) := by
  obtain ⟨hmore, -, -, rfl⟩ | ⟨hend, hfit, rfl⟩ := encodeStep_cases s t h
  · exact .inl ⟨hmore, rfl⟩
  · exact .inr ⟨Nat.not_lt.1 hend, hfit, rfl⟩

/-- No micro-step writes its command's inputs. -/
theorem engineStep_keepsInputs {s t : State} (h : engineStep s = .next t) : s.KeepsInputs t := by
  obtain ⟨-, rfl⟩ | ⟨-, hpack⟩ | ⟨-, hascan⟩ | ⟨-, hencode⟩ := engineStep_cases s t h
  · exact State.KeepsInputs.refl _
  · obtain ⟨-, rfl⟩ | ⟨-, rfl⟩ := packStep_next hpack
    · exact s.keepsInputs_storeTileRow.trans (State.keepsInputs_advanceTile _)
    · exact s.keepsInputs_complete
  · obtain ⟨-, -, rfl⟩ | ⟨-, rfl⟩ := ascanStep_cases s t hascan
    · exact ⟨rfl, rfl, rfl, rfl, rfl, rfl, rfl, rfl⟩
    · exact s.keepsInputs_complete
  · obtain ⟨-, rfl⟩ | ⟨-, -, rfl⟩ := encodeStep_next hencode
    · exact s.keepsInputs_encodeByte
    · exact s.keepsInputs_flushStream.trans (State.keepsInputs_complete _)

/-! ### The host's turn -/

/-- The state on which the host's action works: the turn and the action are taken off. -/
def State.actionTaken (s : State) : State := { s.takeTurn with program := s.program.tail }

theorem State.statusOnly_actionTaken (s : State) : s.StatusOnly s.actionTaken := rfl

@[simp] theorem State.errFlag_actionTaken (s : State) (e : Err) : s.actionTaken.errFlag e = s.errFlag e := by
  cases e <;> rfl

/-- The kinds of a host turn from `s` to `t`, each with the action that makes it. -/
inductive State.HostTurn (s t : State) : Prop
  /-- Nothing but flags newly set and the host's fields. -/
  | quiet (hstatus : s.StatusOnly t) (hflags : ∀ e, s.errFlag e = true → t.errFlag e = true)
      (hdone : s.done = true → t.done = true) (hprog : ∀ a ∈ t.program, a ∈ s.program)
  /-- A write to STATUS. -/
  | clear (v : Word) (ha : s.program.head? = some (wreg .status v)) (ht : t = s.actionTaken.clearStatus v)
  /-- A write to a configuration register of an idle block. -/
  | config (a : HostAction) (ha : s.program.head? = some a) (hidle : s.op = .idle)
      (hcfg : s.actionTaken.ConfigStored a t)
  /-- A memory-port write to an idle block. -/
  | memory (addr : Nat) (b : Byte) (ha : s.program.head? = some (.memWrite addr b)) (hidle : s.op = .idle)
      (hin : addr < s.memBytes) (ht : t = s.actionTaken.memWrite addr b)
  /-- A command's word to CMD. -/
  | command (i : Instr) (ha : s.program.head? = some (cmd i)) (hx : exec i s.actionTaken = .next t)

/-- Each host action is of one kind. -/
theorem State.HostTurn.of_hostAct {s t : State} {a : HostAction} (ha : s.program.head? = some a)
    (h : hostAct a s.actionTaken = .next t) : s.HostTurn t := by
  have hquiet {u : State} (hstatus : s.actionTaken.StatusOnly u)
      (hflags : ∀ e, s.actionTaken.errFlag e = true → u.errFlag e = true)
      (hdone : s.actionTaken.done = true → u.done = true) (hprog : u.program = s.program.tail) : s.HostTurn u :=
    .quiet (s.statusOnly_actionTaken.trans hstatus) (fun e he => hflags e ((s.errFlag_actionTaken e).trans he)) hdone
      fun b hb => List.mem_of_mem_tail (hprog ▸ hb)
  obtain rfl | ⟨r, rfl⟩ | ⟨rfl, rfl⟩ | ⟨hbusy, rfl⟩ | ⟨v, rfl, rfl⟩ | ⟨hidle, hcfg⟩ |
    ⟨hidle, addr, b, hin, rfl, rfl⟩ | ⟨hidle, rfl⟩ | ⟨w, i, rfl, hi, hx⟩ := hostAct_cases a s.actionTaken t h
  · exact hquiet rfl (fun _ he => he) id rfl
  · exact hquiet rfl (fun e he => by cases e <;> exact he) id rfl
  · refine .quiet rfl (fun e he => by cases e <;> exact he) id fun b hb => ?_
    have hprog : s.program = .wait :: s.program.tail := (List.cons_head?_tail ha).symm
    simp only [waitPoll] at hb
    split_ifs at hb
    · rw [hprog]
      exact hb
    · exact List.mem_of_mem_tail hb
  · refine hquiet (State.statusOnly_setErr _ .busy) (fun e he => ?_) id rfl
    rw [State.errFlag_setErr, he, Bool.true_or]
  · exact .clear v ha rfl
  · exact .config a ha (s.not_busy_iff.1 hidle) hcfg
  · exact .memory addr b ha (s.not_busy_iff.1 hidle) hin rfl
  · refine hquiet (State.statusOnly_raise _ .cmd) (fun e he => ?_) (fun _ => rfl) rfl
    rw [State.raise_errFlag, he, Bool.true_or]
  · obtain rfl := (decode_eq_ok_iff_encode_eq w i).1 hi
    exact .command i ha hx

/-- What a turn of the host can do. -/
theorem hostTurn_of_step {s t : State} (hturn : s.turn = .host) (h : step s = .next t) : s.HostTurn t := by
  rw [step_host s hturn] at h
  obtain ⟨-, rfl⟩ | ⟨a, rest, hprog, hact⟩ := hostStep_cases _ _ h
  · exact .quiet rfl (fun e he => by cases e <;> exact he) id fun _ hb => hb
  · have hprog' : s.program = a :: rest := hprog
    have hhead : s.program.head? = some a := by rw [hprog']; rfl
    have htaken : s.actionTaken = { s.takeTurn with program := rest } := by
      rw [State.actionTaken, hprog', List.tail_cons]
    exact .of_hostAct hhead (htaken ▸ hact)

theorem State.statusOnly_clearStatus (s : State) (v : Word) : s.StatusOnly (s.clearStatus v) := rfl

/-- A host turn on a busy block is SRST's, or changes only flags and the host's fields (10_state.md R43). -/
theorem State.HostTurn.of_busy {s t : State} (h : s.HostTurn t) (hop : s.op ≠ .idle) :
    (s.program.head? = some (cmd .srst) ∧ t = s.actionTaken.softReset) ∨ s.StatusOnly t := by
  cases h with
  | quiet hstatus => exact .inr hstatus
  | clear v _ ht => exact .inr (s.statusOnly_actionTaken.trans (ht ▸ State.statusOnly_clearStatus _ v))
  | config a _ hidle => exact absurd hidle hop
  | memory addr b _ hidle => exact absurd hidle hop
  | command i ha hx =>
    by_cases hi : i = .srst
    · subst hi
      exact .inl ⟨ha, (Host.Outcome.next.inj hx).symm⟩
    · obtain rfl := Host.Outcome.next.inj ((exec_busy i s.actionTaken hi (s.busy_iff.2 hop)).symm.trans hx)
      exact .inr (s.statusOnly_actionTaken.trans (State.statusOnly_setErr _ .busy))

end Sys2Proof.Machine
end

section
/-! The invariant of the block (10_state.md R33, R36 to R38; 20_memory.md R50): a running PACK, ASCAN and ENCODE through
their micro-steps, the encoder's stream, the invariant through every step, and with these the obligations on it. -/

namespace Sys2Proof.Machine

/-! ### Commands in progress depend on their inputs only -/

theorem State.KeepsInputs.planeW {s t : State} (h : s.KeepsInputs t) : t.planeW = s.planeW :=
  congrArg BitVec.toNat h.width

theorem State.KeepsInputs.planeH {s t : State} (h : s.KeepsInputs t) : t.planeH = s.planeH :=
  congrArg BitVec.toNat h.height

theorem State.KeepsInputs.packedLen {s t : State} (h : s.KeepsInputs t) : t.packedLen = s.packedLen := by
  simp only [State.packedLen, h.planeW, h.planeH]

theorem State.KeepsInputs.inputLen {s t : State} (h : s.KeepsInputs t) : t.inputLen = s.inputLen :=
  congrArg BitVec.toNat h.length

theorem State.KeepsInputs.planeCheck {s t : State} (h : s.KeepsInputs t) (withDst : Bool) :
    t.planeCheck withDst = s.planeCheck withDst := by
  simp only [State.planeCheck, State.InRange, h.planeW, h.planeH, h.src, h.dst, h.memBytes]

theorem State.KeepsInputs.encodeCheck {s t : State} (h : s.KeepsInputs t) : t.encodeCheck = s.encodeCheck := by
  simp only [State.encodeCheck, State.InRange, h.inputLen, h.src, h.dst, h.memBytes]

/-! ### PACK in progress (R36, R106) -/

/-- For whole tiles the packed bytes are the tiles' rows, eight a tile. -/
theorem packedLen_eq_tiles {w h : Nat} (hw : w % 8 = 0) (hh : h % 8 = 0) : w * h / 8 = h / 8 * (w / 8) * 8 := by
  obtain ⟨a, rfl⟩ := Nat.dvd_of_mod_eq_zero hw
  obtain ⟨b, rfl⟩ := Nat.dvd_of_mod_eq_zero hh
  have hprod : 8 * a * (8 * b) = 8 * (b * a * 8) := by ring
  rw [hprod, Nat.mul_div_cancel_left _ (by decide), Nat.mul_div_cancel_left _ (by decide),
    Nat.mul_div_cancel_left _ (by decide)]

/-- While a byte is left to write, the traverser stands on a tile of the plane. -/
theorem State.PackRunning.onTile {s : State} (h : s.PackRunning) (hmore : s.pkCount.toNat < s.packedLen) :
    s.tsx + 8 ≤ s.planeW ∧ s.tsy + 8 ≤ s.planeH := by
  obtain ⟨hw, hh, -⟩ := s.planeCheck_true_eq_none.1 h.checked
  have hlen : s.packedLen = s.planeH / 8 * (s.planeW / 8) * 8 := packedLen_eq_tiles hw hh
  have hx := h.tileX
  have hy := h.tileY
  have hpos : 0 < s.planeW := by
    by_contra hzero
    have hw0 : s.planeW / 8 = 0 := by omega
    rw [hlen, hw0] at hmore
    omega
  have hin := h.inRow hpos
  refine ⟨by omega, ?_⟩
  by_contra hout
  have hrows : s.planeH / 8 * (s.planeW / 8) ≤ s.tsy / 8 * (s.planeW / 8) := Nat.mul_le_mul_right _ (by omega)
  have hat := h.position
  omega

/-- A pixel address inside the plane's rows lies in the region of the plane. -/
theorem pixelOffset_lt {w h x y : Nat} (hx : x < w) (hy : y < h) : y * w + x < w * h :=
  calc y * w + x < y * w + w := Nat.add_lt_add_left hx _
    _ = (y + 1) * w := (Nat.succ_mul y w).symm
    _ ≤ h * w := Nat.mul_le_mul_right w hy
    _ = w * h := Nat.mul_comm h w

/-- The accesses of a PACK micro-step lie in the regions that acceptance has checked. -/
theorem State.PackRunning.accessOk {s : State} (h : s.PackRunning) (hmore : s.pkCount.toNat < s.packedLen) :
    s.PackAccessOk := by
  obtain ⟨-, -, hsrc, hdst, -⟩ := s.planeCheck_true_eq_none.1 h.checked
  obtain ⟨hx, hy⟩ := h.onTile hmore
  have hrow := h.row
  have hpixel := pixelOffset_lt (w := s.planeW) (h := s.planeH) (x := s.tsx + 7) (y := s.tsy + s.tr) (by omega)
    (by omega)
  refine ⟨?_, ?_⟩
  · simp only [State.pixelAddr]; omega
  · simp only [State.packedAddr]
    have hlen : s.packedLen = s.planeW * s.planeH / 8 := rfl
    omega

/-- PK_COUNT does not wrap: the packed plane is shorter than 2^32. -/
theorem State.packedLen_lt (s : State) : s.packedLen < 2 ^ 32 := by
  have hprod : s.planeW * s.planeH ≤ 2 ^ 16 * 2 ^ 16 :=
    Nat.mul_le_mul s.width.isLt.le s.height.isLt.le
  have hlen : s.packedLen = s.planeW * s.planeH / 8 := rfl
  omega

theorem toNat_add_one {v : Word} (h : v.toNat + 1 < 2 ^ 32) : (v + 1).toNat = v.toNat + 1 := by
  rw [BitVec.toNat_add]
  exact Nat.mod_eq_of_lt h

theorem State.storeTileRow_pkCount_toNat {s : State} (hmore : s.pkCount.toNat < s.packedLen) :
    s.storeTileRow.pkCount.toNat = s.pkCount.toNat + 1 := by
  have hlen := s.packedLen_lt
  exact toNat_add_one (by omega)

/-- A PACK micro-step leaves the traverser where the next PK_COUNT says. -/
theorem State.PackRunning.advance {s : State} (h : s.PackRunning) (hmore : s.pkCount.toNat < s.packedLen) :
    s.storeTileRow.advanceTile.PackRunning := by
  obtain ⟨hw, hh, -⟩ := s.planeCheck_true_eq_none.1 h.checked
  obtain ⟨hxw, -⟩ := h.onTile hmore
  have hx := h.tileX
  have hy := h.tileY
  have hrow := h.row
  have hat := h.position
  have hcount := State.storeTileRow_pkCount_toNat hmore
  have hkeep := s.keepsInputs_storeTileRow.trans s.storeTileRow.keepsInputs_advanceTile
  have hchecked : s.storeTileRow.advanceTile.planeCheck true = none := (hkeep.planeCheck true).trans h.checked
  have hcounted : s.storeTileRow.advanceTile.pkCount.toNat ≤ s.storeTileRow.advanceTile.packedLen := by
    rw [hkeep.packedLen, State.advanceTile_pkCount, hcount]
    exact hmore
  by_cases htr : s.tr + 1 = 8
  · by_cases hlast : s.tsx + 8 = s.planeW
    · have hmove := State.advanceTile_down (s := s.storeTileRow) htr hlast
      rw [hmove] at hchecked hcounted ⊢
      refine ⟨hchecked, Nat.succ_pos 7, rfl, ?_, id, hcounted, ?_⟩
      · show (s.tsy + 8) % 8 = 0
        omega
      · show s.storeTileRow.pkCount.toNat = ((s.tsy + 8) / 8 * (s.planeW / 8) + 0 / 8) * 8 + 0
        have hrows : (s.tsy + 8) / 8 * (s.planeW / 8) = s.tsy / 8 * (s.planeW / 8) + s.planeW / 8 := by
          rw [Nat.add_div_right _ (by decide), Nat.succ_mul]
        rw [hcount, hrows]
        omega
    · have hmove := State.advanceTile_right (s := s.storeTileRow) htr hlast
      rw [hmove] at hchecked hcounted ⊢
      refine ⟨hchecked, Nat.succ_pos 7, ?_, hy, fun _ => ?_, hcounted, ?_⟩
      · show (s.tsx + 8) % 8 = 0
        omega
      · show s.tsx + 8 < s.planeW
        omega
      · show s.storeTileRow.pkCount.toNat = (s.tsy / 8 * (s.planeW / 8) + (s.tsx + 8) / 8) * 8 + 0
        rw [hcount]
        omega
  · have hmove := State.advanceTile_row (s := s.storeTileRow) htr
    rw [hmove] at hchecked hcounted ⊢
    refine ⟨hchecked, ?_, hx, hy, h.inRow, hcounted, ?_⟩
    · show s.tr + 1 < 8
      omega
    · show s.storeTileRow.pkCount.toNat = (s.tsy / 8 * (s.planeW / 8) + s.tsx / 8) * 8 + (s.tr + 1)
      rw [hcount]
      omega

/-- An accepted PACK stands at the first tile. -/
theorem State.packRunning_startPack {s : State} (hcheck : s.planeCheck true = none) :
    (s.setDone false).startPack.PackRunning :=
  ⟨hcheck, Nat.succ_pos 7, rfl, rfl, id, Nat.zero_le _, by simp⟩

/-! ### ASCAN in progress (R37, R108) -/

theorem State.AscanRunning.accessOk {s : State} (h : s.AscanRunning) (hmore : s.aj < s.planeW * s.planeH) :
    s.src.toNat + s.aj < s.memBytes := by
  obtain ⟨-, -, hsrc⟩ := s.planeCheck_false_eq_none.1 h.checked
  omega

theorem State.ascanRunning_startAscan {s : State} (hcheck : s.planeCheck false = none) :
    (s.setDone false).startAscan.AscanRunning :=
  ⟨hcheck, Nat.zero_le _⟩

/-! ### The stream (R33, R136) -/

/-- The part of the invariant that speaks of memory and stream, not of the command in progress. -/
structure State.StreamOk (s : State) : Prop where
  memSize : Config.MemBytesOk s.memBytes
  memForm : Memory.wf s.memBytes s.mem
  leftoverBound : s.leftover.toNat < 4 ^ s.phase.val
  encCountBound : s.encCount.toNat ≤ s.memBytes

theorem State.Inv.streamOk {s : State} (h : s.Inv) : s.StreamOk :=
  ⟨h.memSize, h.memForm, h.leftoverBound, h.encCountBound⟩

/-- With no command in progress the invariant is that of memory and stream. -/
theorem State.StreamOk.inv_of_idle {s : State} (h : s.StreamOk) (hop : s.op = .idle) : s.Inv where
  memSize := h.memSize
  memForm := h.memForm
  leftoverBound := h.leftoverBound
  encCountBound := h.encCountBound
  packRun hpack := absurd (hop.symm.trans hpack) (by decide)
  ascanRun hascan := absurd (hop.symm.trans hascan) (by decide)
  encodeRun hencode := absurd (hop.symm.trans hencode) (by decide)

theorem State.StreamOk.inv_of_pack {s : State} (h : s.StreamOk) (hop : s.op = .pack) (hrun : s.PackRunning) :
    s.Inv where
  memSize := h.memSize
  memForm := h.memForm
  leftoverBound := h.leftoverBound
  encCountBound := h.encCountBound
  packRun _ := hrun
  ascanRun hascan := absurd (hop.symm.trans hascan) (by decide)
  encodeRun hencode := absurd (hop.symm.trans hencode) (by decide)

theorem State.StreamOk.inv_of_ascan {s : State} (h : s.StreamOk) (hop : s.op = .ascan) (hrun : s.AscanRunning) :
    s.Inv where
  memSize := h.memSize
  memForm := h.memForm
  leftoverBound := h.leftoverBound
  encCountBound := h.encCountBound
  packRun hpack := absurd (hop.symm.trans hpack) (by decide)
  ascanRun _ := hrun
  encodeRun hencode := absurd (hop.symm.trans hencode) (by decide)

theorem State.StreamOk.inv_of_encode {s : State} (h : s.StreamOk) (hop : s.op = .encode) (hrun : s.EncodeRunning) :
    s.Inv where
  memSize := h.memSize
  memForm := h.memForm
  leftoverBound := h.leftoverBound
  encCountBound := h.encCountBound
  packRun hpack := absurd (hop.symm.trans hpack) (by decide)
  ascanRun hascan := absurd (hop.symm.trans hascan) (by decide)
  encodeRun _ := hrun

/-- ENC_COUNT counts the characters, as long as it does not wrap. -/
theorem State.emitAll_encCount_toNat {s : State} {out : List Index}
    (hw : s.encCount.toNat + out.length < 2 ^ 32) : (s.emitAll out).encCount.toNat = s.encCount.toNat + out.length := by
  rw [State.emitAll_encCount, BitVec.toNat_add, BitVec.toNat_ofNat]
  omega

theorem State.feedByte_encCount_toNat {s : State} (hsize : Config.MemBytesOk s.memBytes)
    (hfit : s.InRange s.charAddr s.ebyteOut) (b : Byte) :
    (s.feedByte b).encCount.toNat = s.encCount.toNat + s.ebyteOut := by
  have hcount := State.emitAll_encCount_toNat (State.encCount_add_encStep_length_lt hsize hfit b)
  rwa [s.encStep_length] at hcount

/-- A byte whose characters fit keeps memory and stream in order. -/
theorem State.StreamOk.feedByte {s : State} (h : s.StreamOk) (hfit : s.InRange s.charAddr s.ebyteOut) (b : Byte) :
    (s.feedByte b).StreamOk := by
  have hcount := State.feedByte_encCount_toNat h.memSize hfit b
  have hwrap := State.encCount_add_encStep_length_lt h.memSize hfit b
  have hroom : s.charAddr + (encStep s.phase s.leftover b).1.length ≤ s.memBytes := by
    rw [s.encStep_length]
    exact hfit
  have hform := s.emitAll_wf _ h.memForm hroom hwrap
  have hbytes := (s.keepsInputs_feedByte b).memBytes
  refine ⟨hbytes ▸ h.memSize, hbytes ▸ hform, encStep_leftover_lt s.phase s.leftover b, ?_⟩
  rw [hcount, hbytes]
  simp only [State.InRange, State.charAddr] at hfit
  omega

/-- The end of a stream whose tail fits keeps memory and stream in order. -/
theorem State.StreamOk.flushStream {s : State} (h : s.StreamOk)
    (hfit : s.eflushOut = 0 ∨ s.InRange s.charAddr s.eflushOut) : s.flushStream.StreamOk := by
  obtain ⟨hone, hmax⟩ := h.memSize
  have hbound := h.encCountBound
  have htail := s.encTail_length
  have hroom : s.eflushOut = 0 ∨ s.charAddr + s.eflushOut ≤ s.memBytes := hfit
  simp only [State.charAddr] at hroom
  have hcount : (s.emitAll (encTail s.phase s.leftover)).encCount.toNat = s.encCount.toNat + s.eflushOut := by
    rw [State.emitAll_encCount_toNat (by omega), htail]
  have hform : Memory.wf s.memBytes (s.emitAll (encTail s.phase s.leftover)).mem := by
    by_cases hphase : s.phase = 0
    · simpa [encTail, hphase, State.emitAll] using h.memForm
    · have hdue := State.eflushOut_of_phase_ne_zero hphase
      refine s.emitAll_wf _ h.memForm ?_ (by omega)
      simp only [State.charAddr]
      omega
  have hbytes := s.keepsInputs_flushStream.memBytes
  refine ⟨hbytes ▸ h.memSize, hbytes ▸ hform, Nat.one_pos, ?_⟩
  rw [hbytes]
  refine hcount.trans_le ?_
  omega

/-! ### ENCODE in progress (R38, R146) -/

theorem nextPhase_val (p : Fin 3) : (nextPhase p).val = (p.val + 1) % 3 := by
  revert p
  decide

/-- nout of a byte, by the bytes consumed before it: every third gives one character more. -/
theorem State.EncodeRunning.ebyteOut {s : State} (h : s.EncodeRunning) :
    s.ek.toNat + s.ek.toNat / 3 + s.ebyteOut = s.ek.toNat + 1 + (s.ek.toNat + 1) / 3 := by
  have hphase := h.phaseOf
  by_cases htwo : s.phase = 2
  · have hval : s.phase.val = 2 := congrArg Fin.val htwo
    have hout : s.ebyteOut = 2 := if_pos htwo
    omega
  · have hval : s.phase.val ≠ 2 := fun hval => htwo (Fin.ext hval)
    have hlt := s.phase.isLt
    have hout : s.ebyteOut = 1 := if_neg htwo
    omega

/-- nout of the flush: one character where a group is unfinished. -/
theorem State.EncodeRunning.eflushOut {s : State} (h : s.EncodeRunning) :
    s.eflushOut = if s.ek.toNat % 3 ≠ 0 then 1 else 0 := by
  rw [← h.phaseOf]
  by_cases hzero : s.phase = 0
  · rw [State.eflushOut_of_phase_zero hzero, hzero]
    rfl
  · have hval : s.phase.val ≠ 0 := fun hval => hzero (Fin.ext hval)
    rw [State.eflushOut_of_phase_ne_zero hzero, if_pos hval]

theorem encLength_mono {m n : Nat} (h : m ≤ n) : encLength m ≤ encLength n := by
  simp only [encLength]
  split_ifs <;> omega

/-- The characters of a byte left to encode fit, and the byte is in the memory. -/
theorem State.EncodeRunning.accessOk {s : State} (h : s.EncodeRunning) (hmore : s.ek.toNat < s.inputLen) :
    s.inputAddr s.ek.toNat < s.memBytes ∧ s.InRange s.charAddr s.ebyteOut := by
  obtain ⟨hsrc, hdst, -⟩ := s.encodeCheck_eq_none.1 h.checked
  have hout := h.ebyteOut
  have hwritten := h.written
  have hnext : s.ek.toNat + 1 + (s.ek.toNat + 1) / 3 ≤ encLength s.inputLen :=
    (Nat.le_add_right _ _).trans (encLength_mono hmore)
  simp only [State.inputAddr, State.InRange, State.charAddr]
  omega

/-- The tail of an ENCODE that has consumed its input fits. -/
theorem State.EncodeRunning.flushOk {s : State} (h : s.EncodeRunning) (hend : s.inputLen ≤ s.ek.toNat) :
    s.InRange s.charAddr s.eflushOut := by
  obtain ⟨-, hdst, -⟩ := s.encodeCheck_eq_none.1 h.checked
  have hall : s.ek.toNat = s.inputLen := Nat.le_antisymm h.counted hend
  have htotal : s.encCount.toNat + s.eflushOut = encLength s.inputLen := by
    rw [h.written, h.eflushOut, hall]
    rfl
  simp only [State.InRange, State.charAddr]
  omega

theorem State.encodeByte_ek_toNat {s : State} (hmore : s.ek.toNat < s.inputLen) :
    s.encodeByte.ek.toNat = s.ek.toNat + 1 := by
  have hlt : s.inputLen < 2 ^ 32 := s.length.isLt
  exact toNat_add_one (by omega)

/-- A byte of an ENCODE keeps it where EK says. -/
theorem State.EncodeRunning.advance {s : State} (h : s.EncodeRunning) (hsize : Config.MemBytesOk s.memBytes)
    (hmore : s.ek.toNat < s.inputLen) : s.encodeByte.EncodeRunning := by
  obtain ⟨-, hfit⟩ := h.accessOk hmore
  have hek := State.encodeByte_ek_toNat hmore
  have hkeep := s.keepsInputs_encodeByte
  refine ⟨hkeep.encodeCheck.trans h.checked, ?_, ?_, ?_⟩
  · rw [hek, hkeep.inputLen]
    exact hmore
  · have hphase : s.encodeByte.phase = nextPhase s.phase := encStep_phase s.phase s.leftover _
    rw [hphase, nextPhase_val, h.phaseOf, hek]
    omega
  · have hcount : s.encodeByte.encCount.toNat = s.encCount.toNat + s.ebyteOut :=
      State.feedByte_encCount_toNat hsize hfit _
    rw [hcount, h.written, h.ebyteOut, hek]

theorem State.encodeRunning_startEncode {s : State} (hcheck : s.encodeCheck = none) :
    (s.setDone false).startEncode.EncodeRunning :=
  ⟨hcheck, Nat.zero_le _, rfl, by simp⟩

/-! ### The invariant under each kind of step -/

theorem State.Inv.of_statusOnly {s t : State} (h : s.Inv) (hst : s.StatusOnly t) : t.Inv := by
  rw [hst]
  refine ⟨h.memSize, h.memForm, h.leftoverBound, h.encCountBound, fun hop => ?_, fun hop => ?_, fun hop => ?_⟩
  · obtain ⟨hchecked, hrow, hx, hy, hin, hcounted, hposition⟩ := h.packRun hop
    exact ⟨hchecked, hrow, hx, hy, hin, hcounted, hposition⟩
  · obtain ⟨hchecked, hcounted⟩ := h.ascanRun hop
    exact ⟨hchecked, hcounted⟩
  · obtain ⟨hchecked, hcounted, hphase, hwritten⟩ := h.encodeRun hop
    exact ⟨hchecked, hcounted, hphase, hwritten⟩

theorem State.Inv.packStep {s t : State} (h : s.Inv) (hop : s.op = .pack) (hstep : packStep s = .next t) : t.Inv := by
  have hrun := h.packRun hop
  obtain ⟨hmore, rfl⟩ | ⟨-, rfl⟩ := packStep_next hstep
  · obtain ⟨-, hout⟩ := hrun.accessOk hmore
    have hform := Memory.insert_wf _ _ _ s.tileRowByte h.memForm hout
    have hop' : s.storeTileRow.advanceTile.op = .pack := (State.advanceTile_op _).trans hop
    have hstream : s.storeTileRow.advanceTile.StreamOk := by
      rw [State.advanceTile_eq]
      exact ⟨h.memSize, hform, h.leftoverBound, h.encCountBound⟩
    exact hstream.inv_of_pack hop' (hrun.advance hmore)
  · exact State.StreamOk.inv_of_idle ⟨h.memSize, h.memForm, h.leftoverBound, h.encCountBound⟩ rfl

theorem State.Inv.ascanStep {s t : State} (h : s.Inv) (hop : s.op = .ascan) (hstep : ascanStep s = .next t) :
    t.Inv := by
  obtain ⟨hchecked, -⟩ := h.ascanRun hop
  obtain ⟨hmore, -, rfl⟩ | ⟨-, rfl⟩ := ascanStep_cases s t hstep
  · exact State.StreamOk.inv_of_ascan ⟨h.memSize, h.memForm, h.leftoverBound, h.encCountBound⟩ hop ⟨hchecked, hmore⟩
  · exact State.StreamOk.inv_of_idle ⟨h.memSize, h.memForm, h.leftoverBound, h.encCountBound⟩ rfl

theorem State.Inv.encodeStep {s t : State} (h : s.Inv) (hop : s.op = .encode) (hstep : encodeStep s = .next t) :
    t.Inv := by
  have hrun := h.encodeRun hop
  obtain ⟨hmore, rfl⟩ | ⟨-, hfit, rfl⟩ := encodeStep_next hstep
  · obtain ⟨-, hfit⟩ := hrun.accessOk hmore
    obtain ⟨hsize, hform, hleft, hcount⟩ := h.streamOk.feedByte hfit (s.memRead (s.inputAddr s.ek.toNat))
    have hop' : s.encodeByte.op = .encode := (s.feedByte_op _).trans hop
    exact State.StreamOk.inv_of_encode ⟨hsize, hform, hleft, hcount⟩ hop' (hrun.advance h.memSize hmore)
  · obtain ⟨hsize, hform, hleft, hcount⟩ := h.streamOk.flushStream hfit
    exact State.StreamOk.inv_of_idle ⟨hsize, hform, hleft, hcount⟩ rfl

theorem State.Inv.engineStep {s t : State} (h : s.Inv) (hstep : engineStep s = .next t) : t.Inv := by
  obtain ⟨-, rfl⟩ | ⟨hop, hpack⟩ | ⟨hop, hascan⟩ | ⟨hop, hencode⟩ := engineStep_cases s t hstep
  · exact h
  · exact h.packStep hop hpack
  · exact h.ascanStep hop hascan
  · exact h.encodeStep hop hencode

theorem State.Inv.exec {i : Instr} {s t : State} (h : s.Inv) (hx : exec i s = .next t) : t.Inv := by
  obtain ⟨-, -, rfl⟩ | ⟨-, rfl⟩ | ⟨hbusy, hcases⟩ := exec_cases i s t hx
  · exact h.of_statusOnly (s.statusOnly_setErr .busy)
  · exact State.StreamOk.inv_of_idle ⟨h.memSize, h.memForm, by simp, Nat.zero_le _⟩ rfl
  have hop : s.op = .idle := s.not_busy_iff.1 hbusy
  obtain ⟨e, -, rfl⟩ | ⟨-, rfl⟩ | ⟨-, hcheck, rfl⟩ | ⟨-, hcheck, rfl⟩ | ⟨-, rfl⟩ | ⟨b, -, hfit, rfl⟩ |
    ⟨-, hfit, rfl⟩ | ⟨-, hcheck, rfl⟩ := hcases
  · exact h.of_statusOnly (s.statusOnly_raise e)
  · exact h.of_statusOnly rfl
  · exact State.StreamOk.inv_of_pack ⟨h.memSize, h.memForm, h.leftoverBound, h.encCountBound⟩ rfl
      (State.packRunning_startPack hcheck)
  · exact State.StreamOk.inv_of_ascan ⟨h.memSize, h.memForm, h.leftoverBound, h.encCountBound⟩ rfl
      (State.ascanRunning_startAscan hcheck)
  · exact State.StreamOk.inv_of_idle ⟨h.memSize, h.memForm, by simp, Nat.zero_le _⟩ hop
  · exact ((h.streamOk.feedByte hfit b).inv_of_idle ((s.feedByte_op b).trans hop)).of_statusOnly rfl
  · have hfit' : s.eflushOut = 0 ∨ s.InRange s.charAddr s.eflushOut := by
      by_cases hphase : s.phase = 0
      · exact .inl (State.eflushOut_of_phase_zero hphase)
      · exact hfit.imp_right fun hin => by rwa [State.eflushOut_of_phase_ne_zero hphase]
    exact ((h.streamOk.flushStream hfit').inv_of_idle (s.flushStream_op.trans hop)).of_statusOnly rfl
  · exact State.StreamOk.inv_of_encode ⟨h.memSize, h.memForm, by simp, Nat.zero_le _⟩ rfl
      (State.encodeRunning_startEncode hcheck)

/-- A store to a configuration register of an idle block touches nothing the invariant speaks of. -/
theorem State.Inv.configStored {s t : State} {a : HostAction} (h : s.Inv) (hop : s.op = .idle)
    (hcfg : s.ConfigStored a t) : t.Inv := by
  obtain ⟨v, -, rfl⟩ | ⟨v, -, rfl⟩ | ⟨v, -, rfl⟩ | ⟨v, -, rfl⟩ | ⟨v, -, rfl⟩ := hcfg <;>
    exact State.StreamOk.inv_of_idle ⟨h.memSize, h.memForm, h.leftoverBound, h.encCountBound⟩ hop

theorem State.ConfigStored.memBytes {s t : State} {a : HostAction} (hcfg : s.ConfigStored a t) :
    t.memBytes = s.memBytes := by
  obtain ⟨v, -, rfl⟩ | ⟨v, -, rfl⟩ | ⟨v, -, rfl⟩ | ⟨v, -, rfl⟩ | ⟨v, -, rfl⟩ := hcfg <;> rfl

theorem State.HostTurn.memBytes {s t : State} (h : s.HostTurn t) : t.memBytes = s.memBytes := by
  cases h with
  | quiet hstatus => rw [hstatus]; rfl
  | clear v _ ht => rw [ht]; rfl
  | config a _ _ hcfg => exact hcfg.memBytes
  | memory addr b _ _ _ ht => rw [ht]; rfl
  | command i _ hx => exact (exec_keepsInputs hx).memBytes

theorem State.Inv.hostTurn {s t : State} (h : s.Inv) (hturn : s.HostTurn t) : t.Inv := by
  have htaken : s.actionTaken.Inv := h.of_statusOnly s.statusOnly_actionTaken
  cases hturn with
  | quiet hstatus => exact h.of_statusOnly hstatus
  | clear v _ ht => exact htaken.of_statusOnly (ht ▸ State.statusOnly_clearStatus _ v)
  | config a _ hop hcfg => exact htaken.configStored hop hcfg
  | memory addr b _ hop hin ht =>
    rw [ht]
    exact State.StreamOk.inv_of_idle
      ⟨h.memSize, Memory.insert_wf _ _ _ _ h.memForm hin, h.leftoverBound, h.encCountBound⟩ hop
  | command i _ hx => exact htaken.exec hx

theorem State.Inv.hardReset {s : State} (h : s.Inv) : s.hardReset.Inv :=
  State.StreamOk.inv_of_idle ⟨h.memSize, h.memForm, by simp, Nat.zero_le _⟩ rfl

theorem State.Inv.takeTurn {s : State} (h : s.Inv) : s.takeTurn.Inv := h.of_statusOnly s.statusOnly_takeTurn

/-- Settles O43: a host's turn by its kinds, a micro-step by its command, a hardware reset. -/
theorem stepKeepsInvariant : Obligations.StepKeepsInvariant := by
  intro s t h hstep
  obtain ⟨hturn, -⟩ | ⟨-, hengine⟩ | ⟨-, rfl⟩ := step_cases s t hstep
  · have hhost := hostTurn_of_step hturn hstep
    exact ⟨h.hostTurn hhost, hhost.memBytes⟩
  · exact ⟨h.takeTurn.engineStep hengine, (engineStep_keepsInputs hengine).memBytes⟩
  · exact ⟨h.takeTurn.hardReset, rfl⟩

/-- Settles O44: no byte is listed, the stream is at its start and no command is in progress. -/
theorem powerOnMeetsInvariant : Obligations.PowerOnMeetsInvariant := by
  have hpower (n : Nat) (hn : Config.MemBytesOk n) : (State.powerOn n).Inv :=
    State.StreamOk.inv_of_idle ⟨hn, ⟨.nil, by simp [State.powerOn]⟩, by simp [State.powerOn], Nat.zero_le _⟩ rfl
  exact ⟨hpower, hpower _ (by decide)⟩

/-! ### No step stops the block (60_exceptions.md R180) -/

/-- Every micro-step of a state with the invariant accesses bytes that exist. -/
theorem State.Inv.engineStep_next {s : State} (h : s.Inv) : ∃ t, Machine.engineStep s = .next t := by
  cases hop : s.op with
  | idle => exact ⟨s, engineStep_idle hop⟩
  | pack =>
    rw [engineStep_pack hop]
    rcases Nat.lt_or_ge s.pkCount.toNat s.packedLen with hmore | hend
    · exact ⟨_, packStep_row hmore ((h.packRun hop).accessOk hmore)⟩
    · exact ⟨_, packStep_complete hend⟩
  | ascan =>
    rw [engineStep_ascan hop]
    rcases Nat.lt_or_ge s.aj (s.planeW * s.planeH) with hmore | hend
    · exact ⟨_, ascanStep_pixel hmore ((h.ascanRun hop).accessOk hmore)⟩
    · exact ⟨_, ascanStep_complete hend⟩
  | encode =>
    rw [engineStep_encode hop]
    rcases Nat.lt_or_ge s.ek.toNat s.inputLen with hmore | hend
    · obtain ⟨hin, hfit⟩ := (h.encodeRun hop).accessOk hmore
      exact ⟨_, encodeStep_byte hmore hin hfit⟩
    · exact ⟨_, encodeStep_flush hend (.inr ((h.encodeRun hop).flushOk hend))⟩

/-- A register write always answers a next state. -/
theorem regStore_next (r : Reg) (v : Word) (s : State) : ∃ t, regStore r v s = .next t := by
  cases r with
  | cmd =>
    cases hd : decode v with
    | ok i => exact (exec_next i s).imp fun t ht => (cmdWrite_of_decode hd s).trans ht
    | error e => exact ⟨if s.busy then s.setErr .busy else s.raise .cmd, by simp [regStore, cmdWrite, hd]⟩
  | id | status | src | dst | width | height | length | pkCount | encCount | encState => exact ⟨_, rfl⟩

theorem regWrite_next (size : AccessSize) (off : RegOffset) (v : Word) (s : State) :
    ∃ t, regWrite size off v s = .next t := by
  cases hr : regAccessed size off with
  | none => exact ⟨s, (regWrite_unreached hr v s).1⟩
  | some r => exact (regStore_next r v s).imp fun t ht => by simp [regWrite, hr, ht]

/-- The one host access that has no next state is a memory-port access outside the block (R59). -/
theorem hostAct_next_or_refused (a : HostAction) (s : State) :
    (∃ t, hostAct a s = .next t) ∨ (hostAct a s = .refused .hostOutsideBlock ∧ ¬a.WellFormed s.memBytes) := by
  cases a with
  | regWrite size off v => exact .inl (regWrite_next size off v s)
  | regRead size off => exact .inl ⟨_, rfl⟩
  | memWrite addr b =>
    by_cases hin : addr < s.memBytes
    · exact .inl ⟨_, if_pos hin⟩
    · exact .inr ⟨if_neg hin, hin⟩
  | memRead addr =>
    by_cases hin : addr < s.memBytes
    · exact .inl ⟨_, if_pos hin⟩
    · exact .inr ⟨if_neg hin, hin⟩
  | wait => exact .inl ⟨_, rfl⟩

/-- A step of a state with the invariant answers a next state, or the host's next action is ill-formed. -/
theorem State.Inv.step_next_or_refused {s : State} (h : s.Inv) :
    (∃ t, step s = .next t) ∨ (step s = .refused .hostOutsideBlock ∧ ¬s.HostWellFormed) := by
  cases hturn : s.turn with
  | hardReset => exact .inl ⟨_, step_hardReset hturn⟩
  | engine =>
    rw [step_engine s hturn]
    exact .inl h.takeTurn.engineStep_next
  | host =>
    rw [step_host s hturn]
    cases hprog : s.program with
    | nil => exact .inl ⟨_, hostStep_nil (s := s.takeTurn) hprog⟩
    | cons a rest =>
      rw [hostStep_cons (s := s.takeTurn) hprog]
      refine (hostAct_next_or_refused a _).imp_right fun ⟨hrefused, hbad⟩ => ⟨hrefused, fun hwf => hbad (hwf a ?_)⟩
      rw [hprog]
      exact List.mem_cons_self

/-- Settles O45: a step answers a next state or a refusal. -/
theorem noStepFaults : Obligations.NoStepFaults := by
  intro s f h hfault
  obtain ⟨t, hnext⟩ | ⟨hrefused, -⟩ := h.step_next_or_refused
  · rw [hnext] at hfault
    cases hfault
  · rw [hrefused] at hfault
    cases hfault

theorem State.ConfigStored.program {s t : State} {a : HostAction} (hcfg : s.ConfigStored a t) :
    t.program = s.program := by
  obtain ⟨v, -, rfl⟩ | ⟨v, -, rfl⟩ | ⟨v, -, rfl⟩ | ⟨v, -, rfl⟩ | ⟨v, -, rfl⟩ := hcfg <;> rfl

/-- A host turn gives the host nothing new to do. -/
theorem State.HostTurn.program_subset {s t : State} (h : s.HostTurn t) : ∀ a ∈ t.program, a ∈ s.program := by
  have htail (hprog : t.program = s.program.tail) : ∀ a ∈ t.program, a ∈ s.program := fun a ha =>
    List.mem_of_mem_tail (hprog ▸ ha)
  cases h with
  | quiet _ _ _ hprog => exact hprog
  | clear v _ ht => exact htail (by rw [ht]; rfl)
  | config a _ _ hcfg => exact htail hcfg.program
  | memory addr b _ _ _ ht => exact htail (by rw [ht]; rfl)
  | command i _ hx => exact htail (exec_keepsInputs hx).program

/-- No step gives the host anything new to do. -/
theorem program_subset_of_step {s t : State} (h : step s = .next t) : ∀ a ∈ t.program, a ∈ s.program := by
  obtain ⟨hturn, -⟩ | ⟨-, hengine⟩ | ⟨-, rfl⟩ := step_cases s t h
  · exact (hostTurn_of_step hturn h).program_subset
  · exact fun a ha => (engineStep_keepsInputs hengine).program ▸ ha
  · exact fun _ ha => ha

/-- Settles O46: the one refusal is an ill-formed action's; the invariant, MEM_BYTES and the program are kept. -/
theorem wellFormedHostIsNeverStopped : Obligations.WellFormedHostIsNeverStopped := by
  intro s h hwf
  obtain ⟨t, hnext⟩ | ⟨-, hbad⟩ := h.step_next_or_refused
  · obtain ⟨hinv, hbytes⟩ := stepKeepsInvariant s t h hnext
    refine ⟨t, hnext, hinv, fun a ha => ?_⟩
    rw [hbytes]
    exact hwf a (program_subset_of_step hnext a ha)
  · exact absurd hwf hbad

end Sys2Proof.Machine
end

section
/-! Who writes what (10_state.md sections 3, 4 and 6; 20_memory.md sections 3 and 5; 60_exceptions.md R184): the fields
each command and each micro-step writes, and with these the obligations on the writers of each part of the state. -/

namespace Sys2Proof.Machine

/-! ### The fields a command or a micro-step writes -/

/-- From `s` to `t` at most the encoder's registers, the memory, OP and DONE have changed. -/
def State.StreamOnly (s t : State) : Prop :=
  t = { s with
    op := t.op, done := t.done, mem := t.mem, encCount := t.encCount, phase := t.phase, leftover := t.leftover,
    ek := t.ek }

theorem State.streamOnly_feedByte (s : State) (b : Byte) : s.StreamOnly (s.feedByte b) := by
  unfold State.StreamOnly
  rw [s.feedByte_eq]

theorem State.streamOnly_flushStream (s : State) : s.StreamOnly s.flushStream := by
  unfold State.StreamOnly
  rw [s.flushStream_eq]

theorem State.streamOnly_encodeByte (s : State) : s.StreamOnly s.encodeByte := by
  unfold State.StreamOnly
  rw [State.encodeByte, s.feedByte_eq]

/-- The commands of the encoder (42_b64encoder.md R142 to R145). -/
def isEncoderCommand : Instr → Bool
  | .einit | .ebyte _ | .eflush | .encode => true
  | .nop | .srst | .pack | .ascan => false

/-- The fields a command writes, by command. -/
theorem exec_writes {i : Instr} {s t : State} (h : exec i s = .next t) :
    s.StatusOnly t ∨ i = .srst ∨ (i = .pack ∧ t = (s.setDone false).startPack) ∨
      (i = .ascan ∧ t = (s.setDone false).startAscan) ∨ (isEncoderCommand i = true ∧ s.StreamOnly t) := by
  obtain ⟨-, -, rfl⟩ | ⟨hi, -⟩ | ⟨-, hcases⟩ := exec_cases i s t h
  · exact .inl (s.statusOnly_setErr .busy)
  · exact .inr (.inl hi)
  obtain ⟨e, -, rfl⟩ | ⟨-, rfl⟩ | ⟨hi, -, ht⟩ | ⟨hi, -, ht⟩ | ⟨rfl, rfl⟩ | ⟨b, rfl, -, rfl⟩ | ⟨rfl, -, rfl⟩ |
    ⟨rfl, -, rfl⟩ := hcases
  · exact .inl (s.statusOnly_raise e)
  · exact .inl rfl
  · exact .inr (.inr (.inl ⟨hi, ht⟩))
  · exact .inr (.inr (.inr (.inl ⟨hi, ht⟩)))
  · exact .inr (.inr (.inr (.inr ⟨rfl, rfl⟩)))
  · exact .inr (.inr (.inr (.inr ⟨rfl, congrArg (State.setDone · true) (s.streamOnly_feedByte b)⟩)))
  · exact .inr (.inr (.inr (.inr ⟨rfl, congrArg (State.setDone · true) s.streamOnly_flushStream⟩)))
  · exact .inr (.inr (.inr (.inr ⟨rfl, rfl⟩)))

/-- The fields a micro-step writes, by OP. -/
theorem engineStep_writes {s t : State} (h : engineStep s = .next t) :
    t = s ∨
    (s.op = .pack ∧ t = { s with
      op := t.op, done := t.done, mem := t.mem, pkCount := t.pkCount, tr := t.tr, tsx := t.tsx, tsy := t.tsy }) ∨
    (s.op = .ascan ∧ t = { s with op := t.op, done := t.done, alphaPresent := t.alphaPresent, aj := t.aj }) ∨
    (s.op = .encode ∧ s.StreamOnly t) := by
  obtain ⟨-, rfl⟩ | ⟨hop, hpack⟩ | ⟨hop, hascan⟩ | ⟨hop, hencode⟩ := engineStep_cases s t h
  · exact .inl rfl
  · refine .inr (.inl ⟨hop, ?_⟩)
    obtain ⟨-, rfl⟩ | ⟨-, rfl⟩ := packStep_next hpack
    · rw [State.advanceTile_eq]
      rfl
    · rfl
  · refine .inr (.inr (.inl ⟨hop, ?_⟩))
    obtain ⟨-, -, rfl⟩ | ⟨-, rfl⟩ := ascanStep_cases s t hascan <;> rfl
  · refine .inr (.inr (.inr ⟨hop, ?_⟩))
    obtain ⟨-, rfl⟩ | ⟨-, -, rfl⟩ := encodeStep_next hencode
    · exact s.streamOnly_encodeByte
    · exact congrArg State.complete s.streamOnly_flushStream

/-- The engine completes with DONE and else leaves it (R106, R108, R146). -/
theorem engineStep_keeps_done {s t : State} (h : engineStep s = .next t) (hdone : s.done = true) : t.done = true := by
  obtain ⟨-, rfl⟩ | ⟨-, hpack⟩ | ⟨-, hascan⟩ | ⟨-, hencode⟩ := engineStep_cases s t h
  · exact hdone
  · obtain ⟨-, rfl⟩ | ⟨-, rfl⟩ := packStep_next hpack
    · exact (State.advanceTile_done _).trans hdone
    · rfl
  · obtain ⟨-, -, rfl⟩ | ⟨-, rfl⟩ := ascanStep_cases s t hascan
    · exact hdone
    · rfl
  · obtain ⟨-, rfl⟩ | ⟨-, -, rfl⟩ := encodeStep_next hencode
    · rw [State.encodeByte, s.feedByte_eq]
      exact hdone
    · rfl

/-! ### A host turn during a command -/

/-- Settles O47: SRST's write is excluded, and every other turn is `StatusOnly`. -/
theorem hostTurnKeepsTheCommand : Obligations.HostTurnKeepsTheCommand := by
  intro s t hturn hop hhead hstep
  obtain ⟨hsrst, -⟩ | hstatus := (hostTurn_of_step hturn hstep).of_busy hop
  · exact absurd hsrst hhead
  · exact ⟨hstatus, hstatus.memRead⟩

/-! ### The results of the commands -/

/-- From `s` to `t` the registers in which commands leave their results are the same. -/
structure State.KeepsResults (s t : State) : Prop where
  pkCount : t.pkCount = s.pkCount
  alphaPresent : t.alphaPresent = s.alphaPresent
  phase : t.phase = s.phase
  leftover : t.leftover = s.leftover
  encCount : t.encCount = s.encCount

theorem State.StatusOnly.keepsResults {s t : State} (h : s.StatusOnly t) : s.KeepsResults t := by
  rw [h]
  exact ⟨rfl, rfl, rfl, rfl, rfl⟩

theorem State.ConfigStored.keepsResults {s t : State} {a : HostAction} (h : s.ConfigStored a t) :
    s.KeepsResults t := by
  obtain ⟨v, -, rfl⟩ | ⟨v, -, rfl⟩ | ⟨v, -, rfl⟩ | ⟨v, -, rfl⟩ | ⟨v, -, rfl⟩ := h <;>
    exact ⟨rfl, rfl, rfl, rfl, rfl⟩

/-- Of the host's turns only a command's write reaches the results. -/
theorem State.HostTurn.keepsResults_or_command {s t : State} (h : s.HostTurn t) :
    s.KeepsResults t ∨ ∃ i, s.program.head? = some (cmd i) ∧ exec i s.actionTaken = .next t := by
  cases h with
  | quiet hstatus => exact .inl hstatus.keepsResults
  | clear v _ ht => exact .inl (ht ▸ ⟨rfl, rfl, rfl, rfl, rfl⟩)
  | config a _ _ hcfg =>
    obtain ⟨hpk, halpha, hphase, hleft, hcount⟩ := hcfg.keepsResults
    exact .inl ⟨hpk, halpha, hphase, hleft, hcount⟩
  | memory addr b _ _ _ ht => exact .inl (ht ▸ ⟨rfl, rfl, rfl, rfl, rfl⟩)
  | command i ha hx => exact .inr ⟨i, ha, hx⟩

theorem exec_writes_pkCount {i : Instr} {s t : State} (h : exec i s = .next t) (hne : t.pkCount ≠ s.pkCount) :
    i = .pack ∨ i = .srst := by
  obtain hstatus | hi | ⟨hi, -⟩ | ⟨-, rfl⟩ | ⟨-, hstream⟩ := exec_writes h
  · exact absurd hstatus.keepsResults.pkCount hne
  · exact .inr hi
  · exact .inl hi
  · exact absurd rfl hne
  · exact absurd (by rw [hstream]) hne

theorem exec_writes_alphaPresent {i : Instr} {s t : State} (h : exec i s = .next t)
    (hne : t.alphaPresent ≠ s.alphaPresent) : i = .ascan ∨ i = .srst := by
  obtain hstatus | hi | ⟨-, rfl⟩ | ⟨hi, -⟩ | ⟨-, hstream⟩ := exec_writes h
  · exact absurd hstatus.keepsResults.alphaPresent hne
  · exact .inr hi
  · exact absurd rfl hne
  · exact .inl hi
  · exact absurd (by rw [hstream]) hne

theorem exec_writes_stream {i : Instr} {s t : State} (h : exec i s = .next t)
    (hne : t.phase ≠ s.phase ∨ t.leftover ≠ s.leftover ∨ t.encCount ≠ s.encCount) :
    i = .srst ∨ isEncoderCommand i = true := by
  have hchanged : ¬(t.phase = s.phase ∧ t.leftover = s.leftover ∧ t.encCount = s.encCount) := by tauto
  obtain hstatus | hi | ⟨-, rfl⟩ | ⟨-, rfl⟩ | ⟨hi, -⟩ := exec_writes h
  · obtain ⟨-, -, hphase, hleft, hcount⟩ := hstatus.keepsResults
    exact absurd ⟨hphase, hleft, hcount⟩ hchanged
  · exact .inl hi
  · exact absurd ⟨rfl, rfl, rfl⟩ hchanged
  · exact absurd ⟨rfl, rfl, rfl⟩ hchanged
  · exact .inr hi

/-- A result that a step changes was written by the engine, by a hardware reset, or by a command of the host. -/
theorem step_writes_results {α : Type} (f : State → α) (hf : ∀ {u v : State}, u.KeepsResults v → f v = f u)
    {s t : State} (h : step s = .next t) (hne : f t ≠ f s) :
    (s.turn = .engine ∧ engineStep s.takeTurn = .next t ∧ f t ≠ f s.takeTurn) ∨ s.turn = .hardReset ∨
      (s.turn = .host ∧ ∃ i, s.program.head? = some (cmd i) ∧ exec i s.actionTaken = .next t ∧
        f t ≠ f s.actionTaken) := by
  have htaken : f s.takeTurn = f s := hf ⟨rfl, rfl, rfl, rfl, rfl⟩
  have hacted : f s.actionTaken = f s := hf ⟨rfl, rfl, rfl, rfl, rfl⟩
  obtain ⟨hturn, -⟩ | ⟨hturn, hengine⟩ | ⟨hturn, -⟩ := step_cases s t h
  · obtain hkeep | ⟨i, ha, hx⟩ := (hostTurn_of_step hturn h).keepsResults_or_command
    · exact absurd (hf hkeep) hne
    · exact .inr (.inr ⟨hturn, i, ha, hx, by rwa [hacted]⟩)
  · exact .inl ⟨hturn, hengine, by rwa [htaken]⟩
  · exact .inr (.inl hturn)

/-- Settles O48: of the micro-steps PACK's writes PK_COUNT and ASCAN's ALPHA_PRESENT; of the commands likewise. -/
theorem packerStateWriters : Obligations.PackerStateWriters := by
  refine fun s t h => ⟨fun hne => ?_, fun hne => ?_⟩
  · obtain ⟨hturn, hengine, hne'⟩ | hreset | ⟨hturn, i, ha, hx, hne'⟩ :=
      step_writes_results State.pkCount State.KeepsResults.pkCount h hne
    · obtain rfl | ⟨hop, -⟩ | ⟨-, ht⟩ | ⟨-, hstream⟩ := engineStep_writes hengine
      · exact absurd rfl hne'
      · exact .inl ⟨hturn, hop⟩
      · exact absurd (by rw [ht]) hne'
      · exact absurd (by rw [hstream]) hne'
    · exact .inr (.inl hreset)
    · exact .inr (.inr ⟨hturn, i, exec_writes_pkCount hx hne', ha⟩)
  · obtain ⟨hturn, hengine, hne'⟩ | hreset | ⟨hturn, i, ha, hx, hne'⟩ :=
      step_writes_results State.alphaPresent State.KeepsResults.alphaPresent h hne
    · obtain rfl | ⟨-, ht⟩ | ⟨hop, -⟩ | ⟨-, hstream⟩ := engineStep_writes hengine
      · exact absurd rfl hne'
      · exact absurd (by rw [ht]) hne'
      · exact .inl ⟨hturn, hop⟩
      · exact absurd (by rw [hstream]) hne'
    · exact .inr (.inl hreset)
    · exact .inr (.inr ⟨hturn, i, exec_writes_alphaPresent hx hne', ha⟩)

/-- PHASE, LEFTOVER and ENC_COUNT. -/
def State.stream (s : State) : Fin 3 × Index × Word := (s.phase, s.leftover, s.encCount)

theorem State.stream_ne_iff (s t : State) :
    t.stream ≠ s.stream ↔ t.phase ≠ s.phase ∨ t.leftover ≠ s.leftover ∨ t.encCount ≠ s.encCount := by
  simp only [State.stream, ne_eq, Prod.mk.injEq]
  tauto

theorem State.KeepsResults.stream {s t : State} (h : s.KeepsResults t) : t.stream = s.stream := by
  simp only [State.stream, h.phase, h.leftover, h.encCount]

/-- Settles O49: of the micro-steps ENCODE's writes the stream, of the commands the encoder's and SRST. -/
theorem encoderStateWriters : Obligations.EncoderStateWriters := by
  intro s t h hne
  obtain ⟨hturn, hengine, hne'⟩ | hreset | ⟨hturn, i, ha, hx, hne'⟩ :=
    step_writes_results State.stream State.KeepsResults.stream h ((s.stream_ne_iff t).2 hne)
  · obtain rfl | ⟨-, ht⟩ | ⟨-, ht⟩ | ⟨hop, -⟩ := engineStep_writes hengine
    · exact absurd rfl hne'
    · exact absurd (by rw [ht]; rfl) hne'
    · exact absurd (by rw [ht]; rfl) hne'
    · exact .inl ⟨hturn, hop⟩
  · exact .inr (.inl hreset)
  · have hi := exec_writes_stream hx ((State.stream_ne_iff _ t).1 hne')
    refine .inr (.inr ⟨hturn, i, ?_, ?_, ?_, ha⟩) <;> rintro rfl <;> simp [isEncoderCommand] at hi

/-! ### The flags (R184) -/

/-- Write 1 to clear, by cause. -/
theorem State.errFlag_clearStatus (s : State) (v : Word) (e : Err) :
    (s.clearStatus v).errFlag e = (s.errFlag e && !v.getLsbD e.code) := by
  cases e <;> rfl

theorem State.ConfigStored.keepsFlags {s t : State} {a : HostAction} (h : s.ConfigStored a t) :
    (∀ e, t.errFlag e = s.errFlag e) ∧ t.done = s.done := by
  obtain ⟨v, -, rfl⟩ | ⟨v, -, rfl⟩ | ⟨v, -, rfl⟩ | ⟨v, -, rfl⟩ | ⟨v, -, rfl⟩ := h <;>
    exact ⟨fun e => by cases e <;> rfl, rfl⟩

/-- No command but SRST clears an error flag. -/
theorem exec_keeps_errFlag {i : Instr} {s t : State} (hi : i ≠ .srst) (h : exec i s = .next t) {e : Err}
    (he : s.errFlag e = true) : t.errFlag e = true := by
  obtain ⟨-, -, rfl⟩ | ⟨hsrst, -⟩ | ⟨-, hcases⟩ := exec_cases i s t h
  · rw [State.errFlag_setErr, he, Bool.true_or]
  · exact absurd hsrst hi
  obtain ⟨e', -, rfl⟩ | ⟨-, rfl⟩ | ⟨-, -, rfl⟩ | ⟨-, -, rfl⟩ | ⟨-, rfl⟩ | ⟨b, -, -, rfl⟩ | ⟨-, -, rfl⟩ |
    ⟨-, -, rfl⟩ := hcases
  · rw [State.raise_errFlag, he, Bool.true_or]
  · exact (s.errFlag_setDone true e).trans he
  · exact (State.errFlag_congr rfl rfl rfl rfl rfl e).trans he
  · exact (State.errFlag_congr rfl rfl rfl rfl rfl e).trans he
  · exact (State.errFlag_congr rfl rfl rfl rfl rfl e).trans he
  · exact (State.errFlag_setDone _ true e).trans ((s.errFlag_feedByte b e).trans he)
  · exact (State.errFlag_setDone _ true e).trans ((s.errFlag_flushStream e).trans he)
  · exact (State.errFlag_congr rfl rfl rfl rfl rfl e).trans he

/-- DONE is cleared by a command only where it starts. -/
theorem exec_clears_done {i : Instr} {s t : State} (h : exec i s = .next t) (hdone : s.done = true)
    (hclear : t.done = false) : s.op = .idle ∧ t.op ≠ .idle := by
  by_cases hop : s.op = .idle
  · obtain ⟨ht, -⟩ | ⟨-, hstarted, -⟩ := exec_idle_done_or_started hop h
    · exact absurd (ht.symm.trans hclear) (by decide)
    · exact ⟨hop, hstarted⟩
  · exfalso
    by_cases hi : i = .srst
    · subst hi
      obtain rfl : s.softReset = t := Host.Outcome.next.inj h
      exact absurd hclear (by simp)
    · obtain rfl := Host.Outcome.next.inj ((exec_busy i s hi (s.busy_iff.2 hop)).symm.trans h)
      exact absurd (hdone.symm.trans hclear) (by decide)

/-- A host turn clears an error flag only by SRST or write 1 to clear. -/
theorem State.HostTurn.clears_errFlag {s t : State} (h : s.HostTurn t) {e : Err} (he : s.errFlag e = true)
    (hclear : t.errFlag e = false) : s.program.head? = some (cmd .srst) ∨
      ∃ v : Word, s.program.head? = some (wreg .status v) ∧ v.getLsbD e.code = true := by
  have htaken : s.actionTaken.errFlag e = true := (s.errFlag_actionTaken e).trans he
  have hsame (hflag : t.errFlag e = true) : False := absurd (hflag.symm.trans hclear) (by decide)
  cases h with
  | quiet _ hflags => exact (hsame (hflags e he)).elim
  | clear v ha ht =>
    rw [ht, State.errFlag_clearStatus, htaken] at hclear
    exact .inr ⟨v, ha, by simpa using hclear⟩
  | config a _ _ hcfg =>
    obtain ⟨hflags, -⟩ := hcfg.keepsFlags
    exact (hsame ((hflags e).trans htaken)).elim
  | memory addr b _ _ _ ht =>
    rw [ht] at hsame
    exact (hsame ((State.errFlag_congr rfl rfl rfl rfl rfl e).trans htaken)).elim
  | command i ha hx =>
    by_cases hi : i = .srst
    · exact .inl (hi ▸ ha)
    · exact (hsame (exec_keeps_errFlag hi hx htaken)).elim

/-- A host turn clears DONE only by starting a command or by write 1 to clear. -/
theorem State.HostTurn.clears_done {s t : State} (h : s.HostTurn t) (hdone : s.done = true)
    (hclear : t.done = false) : (s.op = .idle ∧ t.op ≠ .idle) ∨
      ∃ v : Word, s.program.head? = some (wreg .status v) ∧ v.getLsbD 1 = true := by
  have hsame (hd : t.done = true) : False := absurd (hd.symm.trans hclear) (by decide)
  cases h with
  | quiet _ _ hkept => exact (hsame (hkept hdone)).elim
  | clear v ha ht =>
    have hw1c : (s.done && !v.getLsbD 1) = false := by rw [ht] at hclear; exact hclear
    exact .inr ⟨v, ha, by simpa [hdone] using hw1c⟩
  | config a _ _ hcfg =>
    obtain ⟨-, hkept⟩ := hcfg.keepsFlags
    exact (hsame (hkept.trans hdone)).elim
  | memory addr b _ _ _ ht => exact (hsame (ht ▸ hdone)).elim
  | command i _ hx => exact .inl (exec_clears_done (s := s.actionTaken) hx hdone hclear)

/-- Settles O50: the engine clears no flag, and the host's turns by their kinds. -/
theorem flagsAreSticky : Obligations.FlagsAreSticky := by
  refine fun s t h => ⟨fun e he hclear => ?_, fun hdone hclear => ?_⟩
  · obtain ⟨hturn, -⟩ | ⟨-, hengine⟩ | ⟨hturn, -⟩ := step_cases s t h
    · exact .inr ⟨hturn, (hostTurn_of_step hturn h).clears_errFlag he hclear⟩
    · have hkept : s.takeTurn.errFlag e = s.errFlag e := State.errFlag_congr rfl rfl rfl rfl rfl e
      rw [errFlag_engineStep hengine, hkept, he] at hclear
      cases hclear
    · exact .inl hturn
  · obtain ⟨hturn, -⟩ | ⟨-, hengine⟩ | ⟨hturn, -⟩ := step_cases s t h
    · exact .inr ⟨hturn, (hostTurn_of_step hturn h).clears_done hdone hclear⟩
    · rw [engineStep_keeps_done hengine hdone] at hclear
      cases hclear
    · exact .inl hturn

/-! ### The configuration registers (10_state.md R43) -/

/-- From `s` to `t` the configuration registers are the same. -/
def State.KeepsConfig (s t : State) : Prop :=
  t.src = s.src ∧ t.dst = s.dst ∧ t.width = s.width ∧ t.height = s.height ∧ t.length = s.length

theorem State.KeepsInputs.keepsConfig {s t : State} (h : s.KeepsInputs t) : s.KeepsConfig t :=
  ⟨h.src, h.dst, h.width, h.height, h.length⟩

theorem State.StatusOnly.keepsConfig {s t : State} (h : s.StatusOnly t) : s.KeepsConfig t := by
  rw [h]
  exact ⟨rfl, rfl, rfl, rfl, rfl⟩

/-- A store to a configuration register names it. -/
theorem State.ConfigStored.reg {s t : State} {a : HostAction} (h : s.ConfigStored a t) : ∃ (r : Reg) (v : Word),
    (r = .src ∨ r = .dst ∨ r = .width ∨ r = .height ∨ r = .length) ∧ a = wreg r v := by
  obtain ⟨v, ha, -⟩ | ⟨v, ha, -⟩ | ⟨v, ha, -⟩ | ⟨v, ha, -⟩ | ⟨v, ha, -⟩ := h
  · exact ⟨.src, v, by simp, ha⟩
  · exact ⟨.dst, v, by simp, ha⟩
  · exact ⟨.width, v, by simp, ha⟩
  · exact ⟨.height, v, by simp, ha⟩
  · exact ⟨.length, v, by simp, ha⟩

/-- Settles O51: of the kinds of a host turn only `config` stores, and no command or micro-step does. -/
theorem configWriters : Obligations.ConfigWriters := by
  intro s t h hne
  have hchanged : ¬s.KeepsConfig t := by
    unfold State.KeepsConfig
    tauto
  obtain ⟨hturn, -⟩ | ⟨-, hengine⟩ | ⟨hturn, -⟩ := step_cases s t h
  · refine .inr ⟨hturn, ?_⟩
    cases hostTurn_of_step hturn h with
    | quiet hstatus => exact absurd hstatus.keepsConfig hchanged
    | clear v _ ht => exact absurd (ht ▸ ⟨rfl, rfl, rfl, rfl, rfl⟩) hchanged
    | config a ha hop hcfg =>
      obtain ⟨r, v, hr, rfl⟩ := hcfg.reg
      exact ⟨hop, r, v, hr, ha⟩
    | memory addr b _ _ _ ht => exact absurd (ht ▸ ⟨rfl, rfl, rfl, rfl, rfl⟩) hchanged
    | command i _ hx => exact absurd (exec_keepsInputs hx).keepsConfig hchanged
  · exact absurd (engineStep_keepsInputs hengine).keepsConfig hchanged
  · exact .inl hturn

/-! ### The buffer memory (20_memory.md R56, R59, R60) -/

theorem State.ConfigStored.memRead {s t : State} {a : HostAction} (h : s.ConfigStored a t) (x : Nat) :
    t.memRead x = s.memRead x := by
  obtain ⟨v, -, rfl⟩ | ⟨v, -, rfl⟩ | ⟨v, -, rfl⟩ | ⟨v, -, rfl⟩ | ⟨v, -, rfl⟩ := h <;> rfl

/-- Of the commands EBYTE and EFLUSH write a byte, on an idle block. -/
theorem exec_writes_memory {i : Instr} {s t : State} (h : exec i s = .next t) {a : Nat}
    (hne : t.memRead a ≠ s.memRead a) : s.op = .idle ∧ ((∃ b, i = .ebyte b) ∨ i = .eflush) := by
  obtain ⟨-, -, rfl⟩ | ⟨-, rfl⟩ | ⟨hbusy, hcases⟩ := exec_cases i s t h
  · exact absurd ((s.statusOnly_setErr .busy).memRead a) hne
  · exact absurd (s.memRead_softReset a) hne
  refine ⟨s.not_busy_iff.1 hbusy, ?_⟩
  obtain ⟨e, -, rfl⟩ | ⟨-, rfl⟩ | ⟨-, -, rfl⟩ | ⟨-, -, rfl⟩ | ⟨-, rfl⟩ | ⟨b, hi, -, -⟩ | ⟨hi, -, -⟩ |
    ⟨-, -, rfl⟩ := hcases
  · exact absurd ((s.statusOnly_raise e).memRead a) hne
  · exact absurd rfl hne
  · exact absurd rfl hne
  · exact absurd rfl hne
  · exact absurd rfl hne
  · exact .inl ⟨b, hi⟩
  · exact .inr hi
  · exact absurd rfl hne

/-- Settles O52: the engine by OP, the host's turns by their kinds; a hardware reset keeps the list of bytes. -/
theorem memoryWriters : Obligations.MemoryWriters := by
  intro s t a h hne
  obtain ⟨hturn, -⟩ | ⟨hturn, hengine⟩ | ⟨-, rfl⟩ := step_cases s t h
  · refine .inr ⟨hturn, ?_⟩
    cases hostTurn_of_step hturn h with
    | quiet hstatus => exact absurd (hstatus.memRead a) hne
    | clear v _ ht => exact absurd (ht ▸ rfl) hne
    | config action _ _ hcfg => exact absurd (hcfg.memRead a) hne
    | memory addr b ha hop _ ht =>
      have haddr : a = addr := by
        by_contra hother
        rw [ht] at hne
        exact hne (s.actionTaken.memRead_memWrite_other addr a b hother)
      exact ⟨hop, .inl ⟨b, haddr ▸ ha⟩⟩
    | command i ha hx =>
      obtain ⟨hop, ⟨b, rfl⟩ | rfl⟩ := exec_writes_memory hx hne
      · exact ⟨hop, .inr (.inl ⟨b, ha⟩)⟩
      · exact ⟨hop, .inr (.inr ha)⟩
  · obtain rfl | ⟨hop, -⟩ | ⟨-, ht⟩ | ⟨hop, -⟩ := engineStep_writes hengine
    · exact absurd rfl hne
    · exact .inl ⟨hturn, .inl hop⟩
    · exact absurd (by rw [ht]; rfl) hne
    · exact .inl ⟨hturn, .inr hop⟩
  · exact absurd rfl hne

end Sys2Proof.Machine
end

section
/-! The Bit-Packer's pure functions (41_bitpacker.md R101 to R103, R111): the i-th visited pixel, the pixels visited,
the closed form of the packed plane, its inverse, and with these the obligations on them. -/

namespace Sys2Proof.Machine

/-! ### Lists of blocks of one length -/

/-- In a list of n blocks of m entries each, entry k is entry k mod m of block k div m. -/
theorem getElem?_flatMap_range {α : Type} (f : Nat → List α) {m : Nat} (hf : ∀ j, (f j).length = m) {n k : Nat}
    (hk : k < n * m) : ((List.range n).flatMap f)[k]? = (f (k / m))[k % m]? := by
  induction n with
  | zero => omega
  | succ n ih =>
    have hlen : ((List.range n).flatMap f).length = n * m := by simp [List.length_flatMap, hf]
    rw [List.range_succ, List.flatMap_append, List.flatMap_singleton]
    rcases Nat.lt_or_ge k (n * m) with hlt | hge
    · rw [List.getElem?_append_left (hlen ▸ hlt), ih hlt]
    · have hpos : 0 < m := by
        by_contra hzero
        obtain rfl : m = 0 := by omega
        omega
      have hsplit : k = m * n + (k - n * m) := by rw [Nat.mul_comm m n]; omega
      have hrest : k - n * m < m := by
        rw [Nat.succ_mul] at hk
        omega
      rw [List.getElem?_append_right (hlen ▸ hge), hlen]
      have hdiv : k / m = n := by
        rw [hsplit, Nat.mul_add_div hpos, Nat.div_eq_of_lt hrest, Nat.add_zero]
      have hmod : k % m = k - n * m := by
        conv_lhs => rw [hsplit]
        rw [Nat.mul_add_mod, Nat.mod_eq_of_lt hrest]
      rw [hdiv, hmod]

/-! ### The visit order (R101) -/

/-- The pixels of a tile row, right to left. -/
def tileRowPixels (tx ty r : Nat) : List (Nat × Nat) :=
  (List.range 8).map fun i => (8 * tx + 7 - i, 8 * ty + r)

/-- The pixels of a tile, row by row. -/
def tilePixels (tx ty : Nat) : List (Nat × Nat) := (List.range 8).flatMap fun r => tileRowPixels tx ty r

/-- The pixels of a row of a tiles. -/
def tilesPixels (a ty : Nat) : List (Nat × Nat) := (List.range a).flatMap fun tx => tilePixels tx ty

theorem visitOrder_eq_flatMap (w h : Nat) :
    visitOrder w h = (List.range (h / 8)).flatMap fun ty => tilesPixels (w / 8) ty := rfl

theorem length_tileRowPixels (tx ty r : Nat) : (tileRowPixels tx ty r).length = 8 := by simp [tileRowPixels]

theorem length_tilePixels (tx ty : Nat) : (tilePixels tx ty).length = 64 := by
  simp [tilePixels, List.length_flatMap, length_tileRowPixels]

theorem length_tilesPixels (a ty : Nat) : (tilesPixels a ty).length = a * 64 := by
  simp [tilesPixels, List.length_flatMap, length_tilePixels]

/-- For whole tiles, the pixels are the tiles' pixels. -/
theorem pixels_eq_tiles {w h : Nat} (hw : w % 8 = 0) (hh : h % 8 = 0) : w * h = h / 8 * (w / 8 * 64) := by
  obtain ⟨a, rfl⟩ := Nat.dvd_of_mod_eq_zero hw
  obtain ⟨b, rfl⟩ := Nat.dvd_of_mod_eq_zero hh
  rw [Nat.mul_div_cancel_left _ (by decide), Nat.mul_div_cancel_left _ (by decide)]
  ring

theorem length_visitOrder {w h : Nat} (hw : w % 8 = 0) (hh : h % 8 = 0) : (visitOrder w h).length = w * h := by
  rw [pixels_eq_tiles hw hh, visitOrder_eq_flatMap]
  simp [List.length_flatMap, length_tilesPixels]

theorem getElem?_tilePixels (tx ty : Nat) {i : Nat} (hi : i < 64) :
    (tilePixels tx ty)[i]? = some (8 * tx + 7 - i % 8, 8 * ty + i / 8) := by
  have hcol : i % 8 < 8 := Nat.mod_lt _ (by decide)
  rw [tilePixels, getElem?_flatMap_range _ (length_tileRowPixels tx ty) hi]
  simp [tileRowPixels, hcol]

/-- The i-th visited pixel: column 7 - i mod 8 of row (i div 8) mod 8 of tile i div 64. -/
theorem getElem?_visitOrder {w h i : Nat} (hw : w % 8 = 0) (hh : h % 8 = 0) (hi : i < w * h) :
    (visitOrder w h)[i]? =
      some (8 * (i / 64 % (w / 8)) + 7 - i % 8, 8 * (i / 64 / (w / 8)) + i / 8 % 8) := by
  rw [pixels_eq_tiles hw hh] at hi
  have hpos : 0 < w / 8 * 64 := by
    by_contra hzero
    rw [Nat.eq_zero_of_not_pos hzero] at hi
    omega
  have hin : i % (w / 8 * 64) < w / 8 * 64 := Nat.mod_lt _ hpos
  have hcol : i % (w / 8 * 64) % 64 % 8 = i % 8 := by
    rw [Nat.mod_mul_left_mod, Nat.mod_mod_of_dvd _ (by decide)]
  have hrow : i % (w / 8 * 64) % 64 / 8 = i / 8 % 8 := by
    rw [Nat.mod_mul_left_mod]
    omega
  have htx : i % (w / 8 * 64) / 64 = i / 64 % (w / 8) := Nat.mod_mul_left_div_self i 64 (w / 8)
  have hty : i / (w / 8 * 64) = i / 64 / (w / 8) := by rw [Nat.mul_comm, Nat.div_div_eq_div_mul]
  rw [visitOrder_eq_flatMap, getElem?_flatMap_range _ (length_tilesPixels (w / 8)) hi, tilesPixels,
    getElem?_flatMap_range _ (fun tx => length_tilePixels tx _) hin,
    getElem?_tilePixels _ _ (Nat.mod_lt _ (by decide)), hcol, hrow, htx, hty]

theorem mem_tileRowPixels (tx ty r x y : Nat) : (x, y) ∈ tileRowPixels tx ty r ↔ x / 8 = tx ∧ y = 8 * ty + r := by
  simp only [tileRowPixels, List.mem_map, List.mem_range, Prod.mk.injEq]
  constructor
  · rintro ⟨i, hi, hx, hy⟩
    omega
  · rintro ⟨hx, hy⟩
    exact ⟨7 - x % 8, by omega, by omega, hy.symm⟩

/-- The visited pixels are those of the plane. -/
theorem mem_visitOrder {w h : Nat} (hw : w % 8 = 0) (hh : h % 8 = 0) (x y : Nat) :
    (x, y) ∈ visitOrder w h ↔ x < w ∧ y < h := by
  simp only [visitOrder_eq_flatMap, tilesPixels, tilePixels, List.mem_flatMap, List.mem_range, mem_tileRowPixels]
  constructor
  · rintro ⟨ty, hty, tx, htx, r, hr, hx, hy⟩
    omega
  · rintro ⟨hx, hy⟩
    exact ⟨y / 8, by omega, x / 8, by omega, y % 8, by omega, rfl, by omega⟩

/-- A list of W·H entries that holds every pixel of the plane holds none twice. -/
theorem nodup_visitOrder {w h : Nat} (hw : w % 8 = 0) (hh : h % 8 = 0) : (visitOrder w h).Nodup := by
  have hset : (visitOrder w h).toFinset = Finset.range w ×ˢ Finset.range h := by
    ext ⟨x, y⟩
    simp [mem_visitOrder hw hh]
  have hcard : (visitOrder w h).toFinset.card = (visitOrder w h).length := by
    rw [hset, Finset.card_product, Finset.card_range, Finset.card_range, length_visitOrder hw hh]
  exact Multiset.coe_nodup.1 (Multiset.toFinset_card_eq_card_iff_nodup.1 hcard)

/-- Settles O34: length, positions and members of the list of tiles; a repeat would leave a pixel out. -/
theorem traversalVisitsEveryPixelOnce : Obligations.TraversalVisitsEveryPixelOnce := fun _ _ hw hh =>
  ⟨length_visitOrder hw hh, nodup_visitOrder hw hh, mem_visitOrder hw hh, fun _ hi => getElem?_visitOrder hw hh hi⟩

/-! ### The packed plane (R102, R103, R111) -/

/-- Byte k of the packed plane thresholds the k-th tile row. -/
theorem packPlane_eq_map_packedByte (p : Plane) {w h : Nat} (hw : w % 8 = 0) (hh : h % 8 = 0) :
    packPlane p w h = (List.range (w * h / 8)).map (packedByte p w) := by
  refine List.map_congr_left fun k hk => packBits_congr _ _ fun i hi => ?_
  have hlt : 8 * k + i < w * h := by
    have hk' := List.mem_range.1 hk
    omega
  have htile : (8 * k + i) / 64 = k / 8 := by omega
  have hcol : (8 * k + i) % 8 = i := by omega
  have hrow : (8 * k + i) / 8 % 8 = k % 8 := by omega
  rw [getElem?_visitOrder hw hh hlt, htile, hcol, hrow]

theorem getElem?_packPlane (p : Plane) {w h k : Nat} (hw : w % 8 = 0) (hh : h % 8 = 0) (hk : k < w * h / 8) :
    (packPlane p w h)[k]? = some (packedByte p w k) := by
  rw [packPlane_eq_map_packedByte p hw hh]
  simp [hk]

/-- Settles O35: each lane by the position of its pixel in the visit order. -/
theorem packedPlaneClosedForm : Obligations.PackedPlaneClosedForm := fun p _ _ hw hh =>
  packPlane_eq_map_packedByte p hw hh

/-- The tile row that holds a pixel, as the number of its packed byte (R111). -/
theorem packedByte_of_pixel (p : Plane) {w x : Nat} (hw : w % 8 = 0) (hx : x < w) (y : Nat) :
    (packedByte p w ((y / 8 * (w / 8) + x / 8) * 8 + y % 8)).getLsbD (7 - x % 8) = threshold (p x y) := by
  have hcol : x / 8 < w / 8 := by omega
  have htile : ((y / 8 * (w / 8) + x / 8) * 8 + y % 8) / 8 = w / 8 * (y / 8) + x / 8 := by
    rw [Nat.mul_comm (w / 8)]
    omega
  have hrow : ((y / 8 * (w / 8) + x / 8) * 8 + y % 8) % 8 = y % 8 := by omega
  have htx : (w / 8 * (y / 8) + x / 8) % (w / 8) = x / 8 := by
    rw [Nat.mul_add_mod, Nat.mod_eq_of_lt hcol]
  have hty : (w / 8 * (y / 8) + x / 8) / (w / 8) = y / 8 := by
    rw [Nat.mul_add_div (by omega), Nat.div_eq_of_lt hcol, Nat.add_zero]
  have hx' : 8 * (x / 8) + 7 - (7 - x % 8) = x := by omega
  have hy' : 8 * (y / 8) + y % 8 = y := by omega
  have hlane : 7 - x % 8 < 8 := by omega
  simp only [packedByte, packBits_getLsbD, htile, hrow, htx, hty, hx', hy', hlane, decide_true, Bool.true_and]

/-- Settles O36: the byte that Unpack looks up is the tile row of the pixel, and its bit the pixel's lane. -/
theorem unpackInvertsPack : Obligations.UnpackInvertsPack := by
  intro p w h x y hw hh hx hy
  have hrows : (y / 8 + 1) * (w / 8) ≤ h / 8 * (w / 8) := Nat.mul_le_mul_right _ (by omega)
  have hk : (y / 8 * (w / 8) + x / 8) * 8 + y % 8 < w * h / 8 := by
    rw [packedLen_eq_tiles hw hh]
    rw [Nat.succ_mul] at hrows
    omega
  simp only [unpack, List.getD_eq_getElem?_getD, getElem?_packPlane p hw hh hk, Option.getD_some]
  exact packedByte_of_pixel p hw hx y

end Sys2Proof.Machine
end

section
/-! The encoder's pure functions (42_b64encoder.md R134 to R141, R147): EncStep in arithmetic, the encoding group by
group, its length, its inverse, and with these the obligations on them. -/

namespace Sys2Proof.Machine

/-! ### EncStep in arithmetic (R134, R135) -/

/-- The high part of a byte, in place above a leftover of phase p. -/
theorem highPart_toNat (p : Fin 3) (b : Byte) :
    (((b &&& ~~~lowMask p) >>> 2).setWidth 6 : Index).toNat = 4 ^ p.val * (b.toNat / 4 ^ (p.val + 1)) := by
  revert p b
  decide

theorem lowPart_toNat (p : Fin 3) (b : Byte) : (lowPart p b).toNat = b.toNat % 4 ^ (p.val + 1) := by
  revert p b
  decide

/-- A leftover below 4^p and the byte's high part share no bit, so their OR is their sum (R135). -/
theorem headIndex_toNat {p : Fin 3} {lo : Index} (hlo : lo.toNat < 4 ^ p.val) (b : Byte) :
    (headIndex p lo b).toNat = b.toNat / 4 ^ (p.val + 1) * 4 ^ p.val + lo.toNat := by
  have hpow : 4 ^ p.val = 2 ^ (2 * p.val) := by rw [Nat.pow_mul]
  have hor : 4 ^ p.val * (b.toNat / 4 ^ (p.val + 1)) + lo.toNat =
      4 ^ p.val * (b.toNat / 4 ^ (p.val + 1)) ||| lo.toNat := by
    rw [hpow] at hlo ⊢
    exact Nat.two_pow_add_eq_or_of_lt hlo _
  rw [headIndex, BitVec.toNat_or, highPart_toNat, ← hor, Nat.mul_comm]

/-- Settles O38: the phase moves on, and the indices are head and low part, by phase. -/
theorem encStepArithmetic : Obligations.EncStepArithmetic := by
  intro p lo b hlo q r
  have hhead : (headIndex p lo b).toNat = q := headIndex_toNat hlo b
  have hlow : (lowPart p b).toNat = r := lowPart_toNat p b
  refine ⟨?_, fun hp => ?_, fun hp => ?_⟩
  · rw [encStep_phase, nextPhase_val]
  · have hne : p ≠ 2 := by
      rintro rfl
      exact absurd hp (by decide)
    simp [encStep, hne, hhead, hlow]
  · obtain rfl : p = 2 := Fin.ext hp
    rw [encStep_two, List.map_cons, List.map_cons, List.map_nil, hhead, hlow]
    exact ⟨rfl, rfl⟩

/-! ### The characters of a group as numbers (R139) -/

/-- Bits put above bits, as numbers. -/
theorem toNat_append_eq_add {m n : Nat} (x : BitVec m) (y : BitVec n) :
    (x ++ y).toNat = 2 ^ n * x.toNat + y.toNat := by
  rw [BitVec.toNat_append, ← Nat.shiftLeft_add_eq_or_of_lt y.isLt, Nat.shiftLeft_eq, Nat.mul_comm]

/-- Bits cut out of a byte, as a number. -/
theorem toNat_extract_byte (b : Byte) (start len : Nat) :
    (b.extractLsb' start len).toNat = b.toNat / 2 ^ start % 2 ^ len := by
  rw [BitVec.extractLsb'_toNat, Nat.shiftRight_eq_div_pow]

theorem firstChar_toNat (b : Byte) : (b.extractLsb' 2 6).toNat = b.toNat / 4 := by
  have hb := b.isLt
  rw [toNat_extract_byte]
  omega

theorem secondChar_toNat (b0 b1 : Byte) :
    (b1.extractLsb' 4 4 ++ b0.extractLsb' 0 2 : Index).toNat = b1.toNat / 16 * 4 + b0.toNat % 4 := by
  have hb := b1.isLt
  rw [toNat_append_eq_add, toNat_extract_byte, toNat_extract_byte]
  omega

theorem thirdChar_toNat (b1 b2 : Byte) :
    (b2.extractLsb' 6 2 ++ b1.extractLsb' 0 4 : Index).toNat = b2.toNat / 64 * 16 + b1.toNat % 16 := by
  have hb := b2.isLt
  rw [toNat_append_eq_add, toNat_extract_byte, toNat_extract_byte]
  omega

theorem fourthChar_toNat (b : Byte) : (b.extractLsb' 0 6).toNat = b.toNat % 64 := by
  rw [toNat_extract_byte]
  omega

/-- The tail character after one byte over a group. -/
theorem tailOfOne_toNat (b : Byte) : ((b.extractLsb' 0 2).setWidth 6).toNat = b.toNat % 4 := by
  rw [BitVec.toNat_setWidth, toNat_extract_byte]
  omega

/-- The tail character after two bytes over a group. -/
theorem tailOfTwo_toNat (b : Byte) : ((b.extractLsb' 0 4).setWidth 6).toNat = b.toNat % 16 := by
  rw [BitVec.toNat_setWidth, toNat_extract_byte]
  omega

/-! ### The encoding by groups (R139) -/

theorem headIndex_zero (b : Byte) : headIndex 0 0 b = b.extractLsb' 2 6 := by
  apply BitVec.eq_of_toNat_eq
  rw [headIndex_toNat (by decide), firstChar_toNat]
  simp

/-- The character that joins two bits of leftover with four of the next byte. -/
theorem headIndex_one (b0 b1 : Byte) :
    headIndex 1 (lowPart 0 b0) b1 = b1.extractLsb' 4 4 ++ b0.extractLsb' 0 2 := by
  apply BitVec.eq_of_toNat_eq
  rw [headIndex_toNat (lowPart_lt 0 b0), lowPart_toNat, secondChar_toNat]
  rfl

/-- The character that joins four bits of leftover with two of the next byte. -/
theorem headIndex_two (b1 b2 : Byte) :
    headIndex 2 (lowPart 1 b1) b2 = b2.extractLsb' 6 2 ++ b1.extractLsb' 0 4 := by
  apply BitVec.eq_of_toNat_eq
  rw [headIndex_toNat (lowPart_lt 1 b1), lowPart_toNat, thirdChar_toNat]
  rfl

theorem lowPart_zero (b : Byte) : lowPart 0 b = (b.extractLsb' 0 2).setWidth 6 := by
  apply BitVec.eq_of_toNat_eq
  rw [lowPart_toNat, tailOfOne_toNat]
  rfl

theorem lowPart_one (b : Byte) : lowPart 1 b = (b.extractLsb' 0 4).setWidth 6 := by
  apply BitVec.eq_of_toNat_eq
  rw [lowPart_toNat, tailOfTwo_toNat]
  rfl

theorem lowPart_two (b : Byte) : lowPart 2 b = b.extractLsb' 0 6 := by
  apply BitVec.eq_of_toNat_eq
  rw [lowPart_toNat, fourthChar_toNat]
  rfl

@[simp] theorem enc_nil : enc [] = [] := rfl

/-- A tail of one byte. -/
theorem enc_one (b0 : Byte) : enc [b0] = [b0.extractLsb' 2 6, (b0.extractLsb' 0 2).setWidth 6] := by
  rw [← headIndex_zero, ← lowPart_zero]
  rfl

/-- A tail of two bytes. -/
theorem enc_two (b0 b1 : Byte) : enc [b0, b1] =
    [b0.extractLsb' 2 6, b1.extractLsb' 4 4 ++ b0.extractLsb' 0 2, (b1.extractLsb' 0 4).setWidth 6] := by
  rw [← headIndex_zero, ← headIndex_one, ← lowPart_one]
  rfl

/-- A group of three bytes, after which the stream stands at PHASE 0 again. -/
theorem enc_group (b0 b1 b2 : Byte) (rest : List Byte) : enc (b0 :: b1 :: b2 :: rest) =
    b0.extractLsb' 2 6 :: (b1.extractLsb' 4 4 ++ b0.extractLsb' 0 2) :: (b2.extractLsb' 6 2 ++ b1.extractLsb' 0 4) ::
      b2.extractLsb' 0 6 :: enc rest := by
  rw [← headIndex_zero, ← headIndex_one, ← headIndex_two, ← lowPart_two]
  simp only [enc, encFrom_cons, encStep_zero, encStep_one, encStep_two, List.cons_append, List.nil_append]

/-- Settles O40: EncStep unrolled over a group and over the tails. -/
theorem encodingByGroups : Obligations.EncodingByGroups := ⟨enc_group, enc_one, enc_two, enc_nil⟩

/-! ### The length (R140) -/

theorem encLength_add_three (n : Nat) : encLength (n + 3) = encLength n + 4 := by
  simp only [encLength, Nat.add_mod_right, Nat.add_div_right n (show 0 < 3 by decide)]
  omega

/-- The length of an encoding, group by group. -/
theorem length_enc : ∀ bytes : List Byte, (enc bytes).length = encLength bytes.length
  | [] => rfl
  | [b0] => by simp [enc_one, encLength]
  | [b0, b1] => by simp [enc_two, encLength]
  | b0 :: b1 :: b2 :: rest => by
    rw [enc_group]
    simp only [List.length_cons, encLength_add_three, length_enc rest]

/-- Settles O39: by groups; f(N) is 4N/3 rounded up at each remainder of N by 3. -/
theorem encodedLength : Obligations.EncodedLength := by
  refine ⟨length_enc, fun n => ⟨rfl, ?_⟩⟩
  simp only [encLength]
  split_ifs <;> omega

/-! ### The inverse (R147, R141) -/

/-- A byte from its high part, shifted into place, and its low k bits. -/
theorem shiftLeft_or_eq {hi lo b : Byte} {k : Nat} (hhi : hi.toNat = b.toNat / 2 ^ k)
    (hlo : lo.toNat = b.toNat % 2 ^ k) : hi <<< k ||| lo = b := by
  have hlt : lo.toNat < 2 ^ k := hlo ▸ Nat.mod_lt _ (Nat.two_pow_pos k)
  have hhigh : (hi <<< k).toNat = 2 ^ k * (b.toNat / 2 ^ k) := by
    have hle : 2 ^ k * (b.toNat / 2 ^ k) < 2 ^ 8 := (Nat.mul_div_le _ _).trans_lt b.isLt
    rw [BitVec.toNat_shiftLeft, hhi, Nat.shiftLeft_eq, Nat.mul_comm, Nat.mod_eq_of_lt hle]
  apply BitVec.eq_of_toNat_eq
  rw [BitVec.toNat_or, hhigh, ← Nat.two_pow_add_eq_or_of_lt hlt, hlo, Nat.div_add_mod]

theorem toNat_setWidth_byte (c : Index) : (c.setWidth 8).toNat = c.toNat := BitVec.toNat_setWidth_of_le (by decide)

theorem toNat_and_three (c : Index) : (c &&& 3#6).toNat = c.toNat % 4 := Nat.and_two_pow_sub_one_eq_mod c.toNat 2

theorem toNat_and_fifteen (c : Index) : (c &&& 15#6).toNat = c.toNat % 16 := Nat.and_two_pow_sub_one_eq_mod c.toNat 4

theorem toNat_ushiftRight (c : Index) (k : Nat) : (c >>> k).toNat = c.toNat / 2 ^ k := by
  rw [BitVec.toNat_ushiftRight, Nat.shiftRight_eq_div_pow]

/-- The first byte of a group, from its first two characters. -/
theorem firstByte_eq {c0 c1 : Index} {b0 : Byte} (h0 : c0.toNat = b0.toNat / 4) (h1 : c1.toNat % 4 = b0.toNat % 4) :
    (c0.setWidth 8 <<< 2) ||| (c1 &&& 3#6).setWidth 8 = b0 := by
  apply shiftLeft_or_eq
  · rw [toNat_setWidth_byte, h0]
    rfl
  · rw [toNat_setWidth_byte, toNat_and_three, h1]
    rfl

/-- The second byte of a group, from its second and third characters. -/
theorem secondByte_eq {c1 lo : Index} {b1 : Byte} (h1 : c1.toNat / 4 = b1.toNat / 16)
    (h2 : lo.toNat = b1.toNat % 16) : ((c1 >>> 2).setWidth 8 <<< 4) ||| lo.setWidth 8 = b1 := by
  apply shiftLeft_or_eq
  · rw [toNat_setWidth_byte, toNat_ushiftRight]
    exact h1
  · rw [toNat_setWidth_byte, h2]
    rfl

/-- The third byte of a group, from its last two characters. -/
theorem thirdByte_eq {c2 c3 : Index} {b2 : Byte} (h2 : c2.toNat / 16 = b2.toNat / 64)
    (h3 : c3.toNat = b2.toNat % 64) : ((c2 >>> 4).setWidth 8 <<< 6) ||| c3.setWidth 8 = b2 := by
  apply shiftLeft_or_eq
  · rw [toNat_setWidth_byte, toNat_ushiftRight]
    exact h2
  · rw [toNat_setWidth_byte, h3]
    rfl

/-- Decoding gives back the bytes, group by group. -/
theorem dec_enc : ∀ bytes : List Byte, dec (enc bytes) = some bytes
  | [] => rfl
  | [b0] => by
    have hbyte : ((b0.extractLsb' 2 6).setWidth 8 <<< 2) ||| ((b0.extractLsb' 0 2).setWidth 6).setWidth 8 = b0 := by
      apply shiftLeft_or_eq
      · rw [toNat_setWidth_byte, firstChar_toNat]
        rfl
      · rw [toNat_setWidth_byte, tailOfOne_toNat]
        rfl
    rw [enc_one, dec, hbyte]
  | [b0, b1] => by
    rw [enc_two, dec, firstByte_eq (firstChar_toNat b0) (by rw [secondChar_toNat]; omega),
      secondByte_eq (by rw [secondChar_toNat]; omega) (tailOfTwo_toNat b1)]
  | b0 :: b1 :: b2 :: rest => by
    rw [enc_group, dec, dec_enc rest, Option.map_some,
      firstByte_eq (firstChar_toNat b0) (by rw [secondChar_toNat]; omega),
      secondByte_eq (b1 := b1) (by rw [secondChar_toNat]; omega) (by rw [toNat_and_fifteen, thirdChar_toNat]; omega),
      thirdByte_eq (by rw [thirdChar_toNat]; omega) (fourthChar_toNat b2)]

/-- Settles O41: by groups, each byte from the two characters it was cut into. -/
theorem decInvertsEnc : Obligations.DecInvertsEnc := dec_enc

theorem enc_injective : Function.Injective enc := fun b c h => by
  have hdec : some b = some c := by rw [← dec_enc b, ← dec_enc c, h]
  exact Option.some.inj hdec

/-- The tail character holds the two or four bits left over. -/
theorem lastChar_lt : ∀ (bytes : List Byte) (last : Index), (enc bytes).getLast? = some last →
    (bytes.length % 3 = 1 → last.toNat < 4) ∧ (bytes.length % 3 = 2 → last.toNat < 16)
  | [], _, h => by simp at h
  | [b0], last, h => by
    obtain rfl : (b0.extractLsb' 0 2).setWidth 6 = last := by simpa [enc_one] using h
    rw [tailOfOne_toNat]
    simp [Nat.mod_lt]
  | [b0, b1], last, h => by
    obtain rfl : (b1.extractLsb' 0 4).setWidth 6 = last := by simpa [enc_two] using h
    rw [tailOfTwo_toNat]
    simp [Nat.mod_lt]
  | b0 :: b1 :: b2 :: rest, last, h => by
    have hlen : (b0 :: b1 :: b2 :: rest).length % 3 = rest.length % 3 := Nat.add_mod_right rest.length 3
    rw [hlen]
    cases rest with
    | nil => simp
    | cons b rest' =>
      refine lastChar_lt (b :: rest') last ?_
      have hne : enc (b :: rest') ≠ [] := by simp [enc, encFrom_cons, encStep_zero]
      rw [enc_group] at h
      simpa [List.getLast?_cons, List.getLast?_eq_some_getLast hne] using h

/-- Settles O42: an encoding is decoded to one sequence only, and the tail character is the leftover. -/
theorem encodingInjectiveWithShortTail : Obligations.EncodingInjectiveWithShortTail :=
  ⟨fun _ _ _ h => enc_injective h, lastChar_lt⟩

end Sys2Proof.Machine
end

section
/-! PACK and ASCAN under every interleaving (00_scope.md R14; 41_bitpacker.md R105 to R108): what holds at the start of
the command and is kept by every step during it, and with it the obligations on the whole commands. -/

namespace Sys2Proof.Machine

/-! ### Steps during a command -/

/-- A step during a command that does not end it is the engine's, or changes only flags and the host's fields. -/
theorem step_during_command {u t : State} (hop : u.op ≠ .idle) (ht : t.op ≠ .idle) (h : step u = .next t) :
    u.StatusOnly t ∨ engineStep u.takeTurn = .next t := by
  obtain ⟨hturn, -⟩ | ⟨-, hengine⟩ | ⟨-, rfl⟩ := step_cases u t h
  · obtain ⟨-, rfl⟩ | hstatus := (hostTurn_of_step hturn h).of_busy hop
    · exact absurd rfl ht
    · exact .inl hstatus
  · exact .inr hengine
  · exact absurd rfl ht

theorem State.KeepsConfig.planeW {s t : State} (h : s.KeepsConfig t) : t.planeW = s.planeW := by
  obtain ⟨-, -, hwidth, -, -⟩ := h
  exact congrArg BitVec.toNat hwidth

theorem State.KeepsConfig.planeH {s t : State} (h : s.KeepsConfig t) : t.planeH = s.planeH := by
  obtain ⟨-, -, -, hheight, -⟩ := h
  exact congrArg BitVec.toNat hheight

theorem State.KeepsConfig.packedLen {s t : State} (h : s.KeepsConfig t) : t.packedLen = s.packedLen := by
  simp only [State.packedLen, h.planeW, h.planeH]

theorem State.KeepsConfig.pixelAddr {s t : State} (h : s.KeepsConfig t) (x y : Nat) :
    t.pixelAddr x y = s.pixelAddr x y := by
  have hw := h.planeW
  obtain ⟨hsrc, -⟩ := h
  simp only [State.pixelAddr, hsrc, hw]

theorem State.KeepsConfig.packedAddr {s t : State} (h : s.KeepsConfig t) (k : Nat) :
    t.packedAddr k = s.packedAddr k := by
  obtain ⟨-, hdst, -⟩ := h
  simp only [State.packedAddr, hdst]

theorem State.KeepsConfig.trans {s t u : State} (hst : s.KeepsConfig t) (htu : t.KeepsConfig u) :
    s.KeepsConfig u := by
  obtain ⟨h1, h2, h3, h4, h5⟩ := hst
  obtain ⟨k1, k2, k3, k4, k5⟩ := htu
  exact ⟨k1.trans h1, k2.trans h2, k3.trans h3, k4.trans h4, k5.trans h5⟩

/-! ### PACK: the byte of a tile row -/

/-- The tile and the row that PK_COUNT names are where the traverser stands. -/
theorem State.PackRunning.tile {s : State} (h : s.PackRunning) (hmore : s.pkCount.toNat < s.packedLen) :
    8 * (s.pkCount.toNat / 8 % (s.planeW / 8)) = s.tsx ∧ 8 * (s.pkCount.toNat / 8 / (s.planeW / 8)) = s.tsy ∧
      s.pkCount.toNat % 8 = s.tr := by
  obtain ⟨hxw, -⟩ := h.onTile hmore
  have hx := h.tileX
  have hy := h.tileY
  have hrow := h.row
  have hat := h.position
  have hcol : s.tsx / 8 < s.planeW / 8 := by omega
  have htile : s.pkCount.toNat / 8 = s.planeW / 8 * (s.tsy / 8) + s.tsx / 8 := by
    rw [Nat.mul_comm (s.planeW / 8)]
    omega
  rw [htile, Nat.mul_add_mod, Nat.mod_eq_of_lt hcol, Nat.mul_add_div (by omega), Nat.div_eq_of_lt hcol]
  omega

/-- The byte that a PACK micro-step stores is the packed byte PK_COUNT of the plane. -/
theorem State.PackRunning.tileRowByte {s : State} (h : s.PackRunning) (hmore : s.pkCount.toNat < s.packedLen) :
    s.tileRowByte = packedByte s.plane s.planeW s.pkCount.toNat := by
  obtain ⟨hx, hy, hr⟩ := h.tile hmore
  simp only [State.tileRowByte, packedByte, hx, hy, hr]

/-- A packed byte depends on the pixels of the plane only. -/
theorem packedByte_congr {p q : Plane} {w h k : Nat} (hw : w % 8 = 0) (hh : h % 8 = 0) (hk : k < w * h / 8)
    (hpq : ∀ x y, x < w → y < h → p x y = q x y) : packedByte p w k = packedByte q w k := by
  have hlen := packedLen_eq_tiles hw hh
  have hk8 : k / 8 < h / 8 * (w / 8) := by omega
  have hcol : k / 8 % (w / 8) < w / 8 := by
    refine Nat.mod_lt _ (Nat.pos_of_ne_zero fun hzero => ?_)
    rw [hzero] at hk8
    omega
  have hrow : k / 8 / (w / 8) < h / 8 := Nat.div_lt_of_lt_mul (by rwa [Nat.mul_comm])
  refine packBits_congr _ _ fun i hi => congrArg threshold (hpq _ _ ?_ ?_)
  · omega
  · have hr : k % 8 < 8 := Nat.mod_lt _ (by decide)
    omega

/-! ### PACK in progress -/

/-- What a PACK started from `s₀` has done in `u`: the first PK_COUNT packed bytes stand at DST and nothing else has
changed (R105, R106). -/
structure State.PackProgress (s₀ u : State) : Prop where
  running : u.PackRunning
  config : s₀.KeepsConfig u
  alphaPresent : u.alphaPresent = s₀.alphaPresent
  encCount : u.encCount = s₀.encCount
  phase : u.phase = s₀.phase
  leftover : u.leftover = s₀.leftover
  packed : ∀ k, k < u.pkCount.toNat → u.memRead (s₀.packedAddr k) = packedByte s₀.plane s₀.planeW k
  frame : ∀ a, a < s₀.packedAddr 0 ∨ s₀.packedAddr u.pkCount.toNat ≤ a → u.memRead a = s₀.memRead a

theorem State.PackProgress.of_statusOnly {s₀ u t : State} (h : s₀.PackProgress u) (hst : u.StatusOnly t) :
    s₀.PackProgress t := by
  obtain ⟨⟨hchecked, hrow, hx, hy, hin, hcounted, hat⟩, hconfig, halpha, hcount, hphase, hleft, hpacked, hframe⟩ := h
  rw [hst]
  exact ⟨⟨hchecked, hrow, hx, hy, hin, hcounted, hat⟩, hconfig, halpha, hcount, hphase, hleft, hpacked, hframe⟩

/-- An accepted PACK has passed its checks. -/
theorem exec_pack_started {s₀ s : State} (hop : s₀.op = .idle) (h : exec .pack s₀ = .next s) (hs : s.op = .pack) :
    s₀.planeCheck true = none ∧ s = (s₀.setDone false).startPack := by
  have hidle := s₀.not_busy_iff.2 hop
  cases hcheck : s₀.planeCheck true with
  | none => exact ⟨rfl, (Host.Outcome.next.inj ((exec_pack_accepted hidle hcheck).symm.trans h)).symm⟩
  | some e =>
    obtain rfl := Host.Outcome.next.inj ((exec_pack_rejected hidle hcheck).symm.trans h)
    rw [State.raise_op, hop] at hs
    cases hs

theorem State.packProgress_start {s₀ : State} (hcheck : s₀.planeCheck true = none) :
    s₀.PackProgress (s₀.setDone false).startPack :=
  ⟨State.packRunning_startPack hcheck, ⟨rfl, rfl, rfl, rfl, rfl⟩, rfl, rfl, rfl, rfl,
    fun _ hk => absurd hk (Nat.not_lt_zero _), fun _ _ => rfl⟩

/-- The plane at SRC does not change: no packed byte lies in it (R110). -/
theorem State.PackProgress.plane {s₀ u : State} (h : s₀.PackProgress u) (hmore : u.pkCount.toNat < u.packedLen)
    {x y : Nat} (hx : x < u.planeW) (hy : y < u.planeH) : u.plane x y = s₀.plane x y := by
  obtain ⟨-, -, -, -, hover⟩ := u.planeCheck_true_eq_none.1 h.running.checked
  have hpixel := pixelOffset_lt hx hy
  have hdst := h.config.packedAddr 0
  have hlen : u.packedLen = u.planeW * u.planeH / 8 := rfl
  have haddr := h.config.pixelAddr x y
  have hout : u.pixelAddr x y < s₀.packedAddr 0 ∨ s₀.packedAddr u.pkCount.toNat ≤ u.pixelAddr x y := by
    simp only [Overlap] at hover
    simp only [State.pixelAddr, State.packedAddr] at hdst ⊢
    omega
  exact (h.frame _ hout).trans (congrArg s₀.memRead haddr)

/-- A byte of a PACK. -/
theorem State.PackProgress.advance {s₀ u : State} (h : s₀.PackProgress u) (hmore : u.pkCount.toNat < u.packedLen) :
    s₀.PackProgress u.storeTileRow.advanceTile := by
  have hkeep := u.keepsInputs_storeTileRow.trans u.storeTileRow.keepsInputs_advanceTile
  have hcount : u.storeTileRow.advanceTile.pkCount.toNat = u.pkCount.toNat + 1 := by
    rw [State.advanceTile_pkCount, State.storeTileRow_pkCount_toNat hmore]
  obtain ⟨hw, hh, -⟩ := u.planeCheck_true_eq_none.1 h.running.checked
  have hbyte : u.tileRowByte = packedByte s₀.plane s₀.planeW u.pkCount.toNat := by
    rw [h.running.tileRowByte hmore, ← h.config.planeW]
    exact packedByte_congr hw hh hmore fun x y hx hy => h.plane hmore hx hy
  have haddr := h.config.packedAddr u.pkCount.toNat
  refine ⟨h.running.advance hmore, h.config.trans hkeep.keepsConfig, (State.advanceTile_alphaPresent _).trans
    h.alphaPresent, (State.advanceTile_encCount _).trans h.encCount, (State.advanceTile_phase _).trans h.phase,
    (State.advanceTile_leftover _).trans h.leftover, fun k hk => ?_, fun a ha => ?_⟩
  · rw [State.memRead_advanceTile]
    rw [hcount] at hk
    rcases Nat.lt_succ_iff_lt_or_eq.1 hk with hlt | rfl
    · rw [u.memRead_storeTileRow_other, h.packed k hlt]
      rw [haddr]
      simp only [State.packedAddr]
      omega
    · rw [← haddr, State.memRead_storeTileRow_same, hbyte]
  · rw [State.memRead_advanceTile]
    rw [hcount] at ha
    rw [u.memRead_storeTileRow_other, h.frame a]
    · simp only [State.packedAddr] at ha ⊢
      omega
    · rw [haddr]
      simp only [State.packedAddr] at ha ⊢
      omega

/-- A step during a PACK keeps its progress. -/
theorem State.PackProgress.step {s₀ u t : State} (h : s₀.PackProgress u) (hu : u.op = .pack) (ht : t.op = .pack)
    (hstep : step u = .next t) : s₀.PackProgress t := by
  obtain hstatus | hengine := step_during_command (by simp [hu]) (by simp [ht]) hstep
  · exact h.of_statusOnly hstatus
  · rw [engineStep_pack (s := u.takeTurn) hu] at hengine
    obtain ⟨hmore, rfl⟩ | ⟨-, rfl⟩ := packStep_next hengine
    · exact (h.of_statusOnly u.statusOnly_takeTurn).advance hmore
    · cases ht

/-- The progress of a PACK throughout its run. -/
theorem State.PackProgress.of_run {s₀ s u : State} {n : Nat} (hop : s₀.op = .idle) (hx : exec .pack s₀ = .next s)
    (hs : s.op = .pack) (hrun : RunsUnder .pack n s u) (hu : u.op = .pack) : s₀.PackProgress u := by
  obtain ⟨hcheck, rfl⟩ := exec_pack_started hop hx hs
  exact RunsUnder.induct .pack s₀.PackProgress _ (State.packProgress_start hcheck)
    (fun _ _ h hv ht hstep => h.step hv ht hstep) n u hrun hu

/-- The packed bytes of a PACK in progress, as entries of the packed plane. -/
theorem State.PackProgress.packPlane {s₀ u : State} (h : s₀.PackProgress u) {k : Nat} (hk : k < u.pkCount.toNat) :
    some (u.memRead (s₀.packedAddr k)) = (packPlane s₀.plane s₀.planeW s₀.planeH)[k]? := by
  obtain ⟨hw, hh, -⟩ := u.planeCheck_true_eq_none.1 h.running.checked
  rw [h.config.planeW] at hw
  rw [h.config.planeH] at hh
  have hcounted := h.running.counted
  rw [h.config.packedLen] at hcounted
  rw [h.packed k hk, getElem?_packPlane s₀.plane hw hh (hk.trans_le hcounted)]

/-- A PACK is complete when PK_COUNT is NB. -/
theorem State.PackProgress.complete {s₀ u t : State} (h : s₀.PackProgress u) (hu : u.op = .pack)
    (hstep : engineStep u = .next t) (ht : t.op = .idle) : u.pkCount.toNat = s₀.packedLen ∧ t = u.complete := by
  rw [engineStep_pack hu] at hstep
  obtain ⟨-, rfl⟩ | ⟨hend, rfl⟩ := packStep_next hstep
  · have hop : u.op = .idle := u.storeTileRow.advanceTile_op.symm.trans ht
    rw [hu] at hop
    cases hop
  · exact ⟨(Nat.le_antisymm h.running.counted hend).trans h.config.packedLen, rfl⟩

/-- Settles O53: the progress of the PACK before its last micro-step, where PK_COUNT is NB. -/
theorem packWritesThePackedPlane : Obligations.PackWritesThePackedPlane := by
  intro s₀ s u t n hop hx hs hrun hu hturn hstep ht w h nb
  rw [step_engine u hturn] at hstep
  have hprog := (State.PackProgress.of_run hop hx hs hrun hu).of_statusOnly u.statusOnly_takeTurn
  obtain ⟨hall, rfl⟩ := hprog.complete hu hstep ht
  obtain ⟨hsrc, hdst, hwidth, hheight, hlength⟩ := hprog.config
  refine ⟨rfl, hall, fun k hk => hprog.packPlane (hall.symm ▸ hk), fun a ha => hprog.frame a ?_, hsrc, hdst, hwidth,
    hheight, hlength, hprog.alphaPresent, hprog.encCount, hprog.phase, hprog.leftover⟩
  rw [hall]
  exact ha

/-! ### ASCAN in progress -/

/-- What an ASCAN started from `s₀` has done in `u`: ALPHA_PRESENT tells of the first AJ pixels, and nothing else has
changed (R107, R108). -/
structure State.AscanProgress (s₀ u : State) : Prop where
  running : u.AscanRunning
  config : s₀.KeepsConfig u
  pkCount : u.pkCount = s₀.pkCount
  encCount : u.encCount = s₀.encCount
  phase : u.phase = s₀.phase
  leftover : u.leftover = s₀.leftover
  memory : ∀ a, u.memRead a = s₀.memRead a
  seen : u.alphaPresent = true ↔ ∃ k, k < u.aj ∧ s₀.memRead (s₀.src.toNat + k) ≠ 0xFF#8

theorem State.AscanProgress.of_statusOnly {s₀ u t : State} (h : s₀.AscanProgress u) (hst : u.StatusOnly t) :
    s₀.AscanProgress t := by
  obtain ⟨⟨hchecked, hcounted⟩, hconfig, hpk, hcount, hphase, hleft, hmemory, hseen⟩ := h
  rw [hst]
  exact ⟨⟨hchecked, hcounted⟩, hconfig, hpk, hcount, hphase, hleft, hmemory, hseen⟩

/-- An accepted ASCAN has passed its checks. -/
theorem exec_ascan_started {s₀ s : State} (hop : s₀.op = .idle) (h : exec .ascan s₀ = .next s) (hs : s.op = .ascan) :
    s₀.planeCheck false = none ∧ s = (s₀.setDone false).startAscan := by
  have hidle := s₀.not_busy_iff.2 hop
  cases hcheck : s₀.planeCheck false with
  | none => exact ⟨rfl, (Host.Outcome.next.inj ((exec_ascan_accepted hidle hcheck).symm.trans h)).symm⟩
  | some e =>
    obtain rfl := Host.Outcome.next.inj ((exec_ascan_rejected hidle hcheck).symm.trans h)
    rw [State.raise_op, hop] at hs
    cases hs

theorem State.ascanProgress_start {s₀ : State} (hcheck : s₀.planeCheck false = none) :
    s₀.AscanProgress (s₀.setDone false).startAscan :=
  ⟨State.ascanRunning_startAscan hcheck, ⟨rfl, rfl, rfl, rfl, rfl⟩, rfl, rfl, rfl, rfl, fun _ => rfl, by simp⟩

/-- The state after the pixel of an ASCAN micro-step (R108). -/
def State.scanPixel (s : State) : State :=
  { s with
    alphaPresent := s.alphaPresent || decide (s.memRead (s.src.toNat + s.aj) ≠ 0xFF#8)
    aj := s.aj + 1 }

/-- What an ASCAN micro-step can do, with the pixel named. -/
theorem ascanStep_next {s t : State} (h : ascanStep s = .next t) :
    (s.aj < s.planeW * s.planeH ∧ t = s.scanPixel) ∨ (s.planeW * s.planeH ≤ s.aj ∧ t = s.complete) := by
  obtain ⟨hmore, -, ht⟩ | ⟨hend, ht⟩ := ascanStep_cases s t h
  · exact .inl ⟨hmore, ht⟩
  · exact .inr ⟨Nat.not_lt.1 hend, ht⟩

/-- A pixel of an ASCAN. -/
theorem State.AscanProgress.advance {s₀ u : State} (h : s₀.AscanProgress u) (hmore : u.aj < u.planeW * u.planeH) :
    s₀.AscanProgress u.scanPixel := by
  obtain ⟨⟨hchecked, -⟩, hconfig, hpk, hcount, hphase, hleft, hmemory, hseen⟩ := h
  refine ⟨⟨hchecked, hmore⟩, hconfig, hpk, hcount, hphase, hleft, hmemory, ?_⟩
  have hpixel : u.memRead (u.src.toNat + u.aj) = s₀.memRead (s₀.src.toNat + u.aj) := by
    obtain ⟨hsrc, -⟩ := hconfig
    rw [hmemory, hsrc]
  have hnow : u.scanPixel.alphaPresent = true ↔
      u.alphaPresent = true ∨ s₀.memRead (s₀.src.toNat + u.aj) ≠ 0xFF#8 := by
    simp [State.scanPixel, hpixel]
  rw [hnow, hseen]
  constructor
  · rintro (⟨k, hk, hne⟩ | hne)
    · exact ⟨k, Nat.lt_succ_of_lt hk, hne⟩
    · exact ⟨u.aj, Nat.lt_succ_self _, hne⟩
  · rintro ⟨k, hk, hne⟩
    rcases Nat.lt_succ_iff_lt_or_eq.1 hk with hlt | rfl
    · exact .inl ⟨k, hlt, hne⟩
    · exact .inr hne

/-- A step during an ASCAN keeps its progress. -/
theorem State.AscanProgress.step {s₀ u t : State} (h : s₀.AscanProgress u) (hu : u.op = .ascan) (ht : t.op = .ascan)
    (hstep : step u = .next t) : s₀.AscanProgress t := by
  obtain hstatus | hengine := step_during_command (by simp [hu]) (by simp [ht]) hstep
  · exact h.of_statusOnly hstatus
  · rw [engineStep_ascan (s := u.takeTurn) hu] at hengine
    obtain ⟨hmore, rfl⟩ | ⟨-, rfl⟩ := ascanStep_next hengine
    · exact (h.of_statusOnly u.statusOnly_takeTurn).advance hmore
    · cases ht

/-- The progress of an ASCAN throughout its run. -/
theorem State.AscanProgress.of_run {s₀ s u : State} {n : Nat} (hop : s₀.op = .idle)
    (hx : exec .ascan s₀ = .next s) (hs : s.op = .ascan) (hrun : RunsUnder .ascan n s u) (hu : u.op = .ascan) :
    s₀.AscanProgress u := by
  obtain ⟨hcheck, rfl⟩ := exec_ascan_started hop hx hs
  exact RunsUnder.induct .ascan s₀.AscanProgress _ (State.ascanProgress_start hcheck)
    (fun _ _ h hv ht hstep => h.step hv ht hstep) n u hrun hu

/-- An ASCAN is complete when AJ is W·H. -/
theorem State.AscanProgress.complete {s₀ u t : State} (h : s₀.AscanProgress u) (hu : u.op = .ascan)
    (hstep : engineStep u = .next t) (ht : t.op = .idle) :
    u.aj = s₀.planeW * s₀.planeH ∧ t = u.complete := by
  rw [engineStep_ascan hu] at hstep
  obtain ⟨-, rfl⟩ | ⟨hend, rfl⟩ := ascanStep_next hstep
  · have hop : u.op = .idle := ht
    rw [hu] at hop
    cases hop
  · refine ⟨?_, rfl⟩
    rw [← h.config.planeW, ← h.config.planeH]
    exact Nat.le_antisymm h.running.counted hend

/-- The offsets of the plane's pixels are the numbers below W·H. -/
theorem exists_offset_iff_exists_pixel (P : Nat → Prop) (w h : Nat) :
    (∃ k, k < w * h ∧ P k) ↔ ∃ x y, x < w ∧ y < h ∧ P (y * w + x) := by
  constructor
  · rintro ⟨k, hk, hP⟩
    have hpos : 0 < w := Nat.pos_of_ne_zero fun hzero => by
      rw [hzero, Nat.zero_mul] at hk
      omega
    exact ⟨k % w, k / w, Nat.mod_lt _ hpos, Nat.div_lt_of_lt_mul hk, by rwa [Nat.div_add_mod']⟩
  · rintro ⟨x, y, hx, hy, hP⟩
    exact ⟨y * w + x, pixelOffset_lt hx hy, hP⟩

/-- Settles O54: the progress of the ASCAN before its last micro-step, where AJ is W·H. -/
theorem ascanFindsANonOpaquePixel : Obligations.AscanFindsANonOpaquePixel := by
  intro s₀ s u t n hop hx hs hrun hu hturn hstep ht w
  rw [step_engine u hturn] at hstep
  have hprog := (State.AscanProgress.of_run hop hx hs hrun hu).of_statusOnly u.statusOnly_takeTurn
  obtain ⟨hall, rfl⟩ := hprog.complete hu hstep ht
  refine ⟨?_, rfl, hprog.memory, hprog.pkCount, hprog.encCount, hprog.phase, hprog.leftover⟩
  refine hprog.seen.trans ?_
  rw [hall]
  simp only [Nat.add_assoc]
  exact exists_offset_iff_exists_pixel (fun k => s₀.memRead (s₀.src.toNat + k) ≠ 0xFF#8) s₀.planeW s₀.planeH

end Sys2Proof.Machine
end

section
/-! The encoder's streams (42_b64encoder.md R131, R138, R143 to R146; 90_conflicts.md C9): characters that stand in the
memory, ENCODE under every interleaving, a stream of EBYTE and EFLUSH, and with these the obligations on both. -/

namespace Sys2Proof.Machine

/-! ### Characters in the memory -/

/-- The codes of the characters `out` stand from `base` on. -/
def State.CharsAt (s : State) (base : Nat) (out : List Index) : Prop :=
  ∀ j c, out[j]? = some c → s.memRead (base + j) = charCode c

/-- Characters emitted where the ones before them end stand after them. -/
theorem State.CharsAt.emitAll {s : State} {base : Nat} {out : List Index} (h : s.CharsAt base out)
    (haddr : s.charAddr = base + out.length) {new : List Index} (hw : s.encCount.toNat + new.length < 2 ^ 32) :
    (s.emitAll new).CharsAt base (out ++ new) := by
  intro j c hj
  rcases Nat.lt_or_ge j out.length with hlt | hge
  · rw [List.getElem?_append_left hlt] at hj
    rw [s.emitAll_memRead_outside new hw (base + j) (.inl (by omega))]
    exact h j c hj
  · rw [List.getElem?_append_right hge] at hj
    have hat := s.emitAll_memRead_at new hw (j - out.length) c hj
    rwa [haddr, Nat.add_assoc, Nat.add_sub_cancel' hge] at hat

/-- Characters after characters. -/
theorem State.CharsAt.append {s : State} {base : Nat} {out new : List Index} (hout : s.CharsAt base out)
    (hnew : s.CharsAt (base + out.length) new) : s.CharsAt base (out ++ new) := by
  intro j c hj
  rcases Nat.lt_or_ge j out.length with hlt | hge
  · rw [List.getElem?_append_left hlt] at hj
    exact hout j c hj
  · rw [List.getElem?_append_right hge] at hj
    have hat := hnew (j - out.length) c hj
    rwa [Nat.add_assoc, Nat.add_sub_cancel' hge] at hat

/-- A tail that fits leaves ENC_COUNT below 2^32: MEM_BYTES is (00_scope.md R9). -/
theorem State.encCount_add_encTail_length_lt {s : State} (hsize : Config.MemBytesOk s.memBytes)
    (hfit : s.InRange s.charAddr s.eflushOut) :
    s.encCount.toNat + (encTail s.phase s.leftover).length < 2 ^ 32 := by
  obtain ⟨-, hmax⟩ := hsize
  rw [State.encTail_length]
  simp only [State.InRange, State.charAddr] at hfit
  omega

/-! ### ENCODE in progress -/

/-- What an ENCODE started from `s₀` has done in `u`: the characters written stand at DST, the rest of the encoding
follows from PHASE, LEFTOVER and the bytes not yet consumed, and nothing else has changed (R145, R146). -/
structure State.EncodeProgress (s₀ u : State) : Prop where
  running : u.EncodeRunning
  memSize : Config.MemBytesOk u.memBytes
  config : s₀.KeepsConfig u
  pkCount : u.pkCount = s₀.pkCount
  alphaPresent : u.alphaPresent = s₀.alphaPresent
  written : ∃ out, enc s₀.inputBytes = out ++ encFrom u.phase u.leftover (s₀.inputBytes.drop u.ek.toNat) ∧
    out.length = u.encCount.toNat ∧ u.CharsAt s₀.dst.toNat out
  frame : ∀ a, a < s₀.dst.toNat ∨ s₀.dst.toNat + u.encCount.toNat ≤ a → u.memRead a = s₀.memRead a

theorem State.EncodeProgress.of_statusOnly {s₀ u t : State} (h : s₀.EncodeProgress u) (hst : u.StatusOnly t) :
    s₀.EncodeProgress t := by
  obtain ⟨⟨hchecked, hcounted, hphase, hcount⟩, hsize, hconfig, hpk, halpha, hwritten, hframe⟩ := h
  rw [hst]
  exact ⟨⟨hchecked, hcounted, hphase, hcount⟩, hsize, hconfig, hpk, halpha, hwritten, hframe⟩

/-- An accepted ENCODE has passed its checks. -/
theorem exec_encode_started {s₀ s : State} (hop : s₀.op = .idle) (h : exec .encode s₀ = .next s)
    (hs : s.op = .encode) : s₀.encodeCheck = none ∧ s = (s₀.setDone false).startEncode := by
  have hidle := s₀.not_busy_iff.2 hop
  cases hcheck : s₀.encodeCheck with
  | none => exact ⟨rfl, (Host.Outcome.next.inj ((exec_encode_accepted hidle hcheck).symm.trans h)).symm⟩
  | some e =>
    obtain rfl := Host.Outcome.next.inj ((exec_encode_rejected hidle hcheck).symm.trans h)
    rw [State.raise_op, hop] at hs
    cases hs

theorem State.encodeProgress_start {s₀ : State} (hsize : Config.MemBytesOk s₀.memBytes)
    (hcheck : s₀.encodeCheck = none) : s₀.EncodeProgress (s₀.setDone false).startEncode :=
  ⟨State.encodeRunning_startEncode hcheck, hsize, ⟨rfl, rfl, rfl, rfl, rfl⟩, rfl, rfl,
    ⟨[], rfl, rfl, fun _ _ hj => by simp at hj⟩, fun _ _ => rfl⟩

theorem length_inputBytes (s : State) : s.inputBytes.length = s.inputLen := by simp [State.inputBytes]

theorem State.KeepsConfig.inputLen {s t : State} (h : s.KeepsConfig t) : t.inputLen = s.inputLen := by
  obtain ⟨-, -, -, -, hlength⟩ := h
  exact congrArg BitVec.toNat hlength

/-- The bytes not yet consumed begin with the one at SRC + EK, which no character has overwritten (R145). -/
theorem State.EncodeProgress.drop_inputBytes {s₀ u : State} (h : s₀.EncodeProgress u)
    (hmore : u.ek.toNat < u.inputLen) : s₀.inputBytes.drop u.ek.toNat =
      u.memRead (u.inputAddr u.ek.toNat) :: s₀.inputBytes.drop (u.ek.toNat + 1) := by
  obtain ⟨-, -, hover⟩ := u.encodeCheck_eq_none.1 h.running.checked
  obtain ⟨hsrc, hdst, -⟩ := h.config
  have hlen := h.config.inputLen
  have hcount := h.running.written
  have hnext : u.ek.toNat + 1 + (u.ek.toNat + 1) / 3 ≤ encLength u.inputLen :=
    (Nat.le_add_right _ _).trans (encLength_mono hmore)
  have hbyte : u.memRead (u.inputAddr u.ek.toNat) = s₀.memRead (s₀.inputAddr u.ek.toNat) := by
    rw [h.frame]
    · simp only [State.inputAddr, hsrc]
    · rw [← hdst]
      simp only [Overlap] at hover
      simp only [State.inputAddr]
      omega
  have hin : u.ek.toNat < s₀.inputBytes.length := by
    rw [length_inputBytes, ← hlen]
    exact hmore
  rw [List.drop_eq_getElem_cons hin, hbyte]
  simp [State.inputBytes]

/-- A byte of an ENCODE. -/
theorem State.EncodeProgress.advance {s₀ u : State} (h : s₀.EncodeProgress u) (hmore : u.ek.toNat < u.inputLen) :
    s₀.EncodeProgress u.encodeByte := by
  obtain ⟨-, hfit⟩ := h.running.accessOk hmore
  obtain ⟨out, hsplit, hlen, hchars⟩ := h.written
  obtain ⟨-, hdst, -⟩ := h.config
  have hkeep := u.keepsInputs_encodeByte
  have hwrap := State.encCount_add_encStep_length_lt h.memSize hfit (u.memRead (u.inputAddr u.ek.toNat))
  have hcount : u.encodeByte.encCount.toNat = u.encCount.toNat + u.ebyteOut :=
    State.feedByte_encCount_toNat h.memSize hfit _
  have haddr : u.charAddr = s₀.dst.toNat + out.length := by rw [hlen, State.charAddr, hdst]
  have honly := u.streamOnly_encodeByte
  refine ⟨h.running.advance h.memSize hmore, hkeep.memBytes ▸ h.memSize, h.config.trans hkeep.keepsConfig, ?_, ?_,
    ⟨out ++ (encStep u.phase u.leftover (u.memRead (u.inputAddr u.ek.toNat))).1, ?_, ?_, hchars.emitAll haddr hwrap⟩,
    fun a ha => ?_⟩
  · rw [honly]
    exact h.pkCount
  · rw [honly]
    exact h.alphaPresent
  · rw [hsplit, h.drop_inputBytes hmore, encFrom_cons, ← List.append_assoc, State.encodeByte_ek_toNat hmore]
    rfl
  · rw [List.length_append, hlen, hcount, u.encStep_length]
  · rw [hcount] at ha
    have hout : u.encodeByte.memRead a = u.memRead a := by
      refine State.memRead_feedByte_outside h.memSize hfit _ a ?_
      rw [haddr, hlen]
      omega
    rw [hout]
    exact h.frame a (by omega)

/-- A step during an ENCODE keeps its progress. -/
theorem State.EncodeProgress.step {s₀ u t : State} (h : s₀.EncodeProgress u) (hu : u.op = .encode)
    (ht : t.op = .encode) (hstep : step u = .next t) : s₀.EncodeProgress t := by
  obtain hstatus | hengine := step_during_command (by simp [hu]) (by simp [ht]) hstep
  · exact h.of_statusOnly hstatus
  · rw [engineStep_encode (s := u.takeTurn) hu] at hengine
    obtain ⟨hmore, rfl⟩ | ⟨-, -, rfl⟩ := encodeStep_next hengine
    · exact (h.of_statusOnly u.statusOnly_takeTurn).advance hmore
    · cases ht

/-- The progress of an ENCODE throughout its run. -/
theorem State.EncodeProgress.of_run {s₀ s u : State} {n : Nat} (hsize : Config.MemBytesOk s₀.memBytes)
    (hop : s₀.op = .idle) (hx : exec .encode s₀ = .next s) (hs : s.op = .encode) (hrun : RunsUnder .encode n s u)
    (hu : u.op = .encode) : s₀.EncodeProgress u := by
  obtain ⟨hcheck, rfl⟩ := exec_encode_started hop hx hs
  exact RunsUnder.induct .encode s₀.EncodeProgress _ (State.encodeProgress_start hsize hcheck)
    (fun _ _ h hv ht hstep => h.step hv ht hstep) n u hrun hu

/-- After the last byte, the flush completes the encoding at DST. -/
theorem State.EncodeProgress.flush {s₀ u : State} (h : s₀.EncodeProgress u) (hend : u.inputLen ≤ u.ek.toNat) :
    u.flushStream.encCount.toNat = encLength s₀.inputLen ∧
      u.flushStream.CharsAt s₀.dst.toNat (enc s₀.inputBytes) ∧
      ∀ a, a < s₀.dst.toNat ∨ s₀.dst.toNat + encLength s₀.inputLen ≤ a → u.flushStream.memRead a = s₀.memRead a := by
  obtain ⟨out, hsplit, hlen, hchars⟩ := h.written
  obtain ⟨-, hdst, -⟩ := h.config
  have hwrap := State.encCount_add_encTail_length_lt h.memSize (h.running.flushOk hend)
  have haddr : u.charAddr = s₀.dst.toNat + out.length := by rw [hlen, State.charAddr, hdst]
  have hdone : s₀.inputBytes.drop u.ek.toNat = [] := by
    refine List.drop_eq_nil_of_le ?_
    rw [length_inputBytes, ← h.config.inputLen]
    exact hend
  rw [hdone, encFrom_nil] at hsplit
  have htotal : out.length + (encTail u.phase u.leftover).length = encLength s₀.inputLen := by
    rw [← length_inputBytes, ← length_enc, hsplit, List.length_append]
  refine ⟨?_, ?_, fun a ha => ?_⟩
  · rw [← htotal, hlen]
    exact State.emitAll_encCount_toNat hwrap
  · rw [hsplit]
    exact hchars.emitAll haddr hwrap
  · rw [State.memRead_flushStream, u.emitAll_memRead_outside _ hwrap a (by omega)]
    exact h.frame a (by omega)

/-- Settles O55: the progress of the ENCODE before its last micro-step, then the flush. -/
theorem encodeWritesTheEncoding : Obligations.EncodeWritesTheEncoding := by
  intro s₀ s u t n hsize hop hx hs hrun hu hturn hstep ht l bytes
  rw [step_engine u hturn, engineStep_encode (s := u.takeTurn) hu] at hstep
  have hprog := (State.EncodeProgress.of_run hsize hop hx hs hrun hu).of_statusOnly u.statusOnly_takeTurn
  obtain ⟨-, rfl⟩ | ⟨hend, -, rfl⟩ := encodeStep_next hstep
  · have hidle : u.op = .idle := (State.feedByte_op u.takeTurn _).symm.trans ht
    rw [hu] at hidle
    cases hidle
  · obtain ⟨hcount, hchars, hframe⟩ := hprog.flush hend
    have honly := u.takeTurn.streamOnly_flushStream
    refine ⟨hcount, rfl, rfl, rfl, hchars, hframe, ?_, ?_⟩
    · rw [honly]
      exact hprog.pkCount
    · rw [honly]
      exact hprog.alphaPresent

/-! ### EBYTE and EFLUSH as steps of an idle block -/

/-- With no turn fixed, an idle block's host runs the next command of its program. -/
theorem step_idle_command {s : State} (hop : s.op = .idle) (hsched : s.schedule = []) {i : Instr}
    {rest : List HostAction} (hprog : s.program = cmd i :: rest) : step s = exec i { s with program := rest } := by
  have hturn := State.turn_of_idle hsched (s.not_busy_iff.2 hop)
  rw [step_command hturn hprog (decode_encode i), State.takeTurn_of_schedule_nil hsched]

/-- An EBYTE whose characters fit. -/
theorem step_ebyte {s : State} (hop : s.op = .idle) (hsched : s.schedule = [])
    (hsize : Config.MemBytesOk s.memBytes) {b : Byte} {rest : List HostAction}
    (hprog : s.program = cmd (.ebyte b) :: rest) (hfit : s.InRange s.charAddr s.ebyteOut) :
    ∃ u, step s = .next u ∧
      u = { s with
        mem := u.mem, done := true, encCount := s.encCount + BitVec.ofNat 32 s.ebyteOut,
        phase := (encStep s.phase s.leftover b).2.1, leftover := (encStep s.phase s.leftover b).2.2,
        program := rest } ∧
      u.charAddr = s.charAddr + s.ebyteOut ∧ u.CharsAt s.charAddr (encStep s.phase s.leftover b).1 ∧
      ∀ a, a < s.charAddr ∨ s.charAddr + s.ebyteOut ≤ a → u.memRead a = s.memRead a := by
  have hidle : State.busy { s with program := rest } = false := s.not_busy_iff.2 hop
  have hcount : (State.feedByte { s with program := rest } b).encCount.toNat = s.encCount.toNat + s.ebyteOut :=
    State.feedByte_encCount_toNat (s := { s with program := rest }) hsize hfit b
  have hkeep := State.keepsInputs_feedByte { s with program := rest } b
  refine ⟨(State.feedByte { s with program := rest } b).setDone true, ?_, ?_, ?_, ?_, ?_⟩
  · rw [step_idle_command hop hsched hprog, exec_ebyte_fits hidle hfit]
  · exact congrArg (State.setDone · true) (State.feedByte_eq_ebyteOut { s with program := rest } b)
  · show (State.feedByte { s with program := rest } b).dst.toNat +
      (State.feedByte { s with program := rest } b).encCount.toNat = s.dst.toNat + s.encCount.toNat + s.ebyteOut
    rw [hkeep.dst, hcount, Nat.add_assoc]
  · exact State.memRead_feedByte_at (s := { s with program := rest }) hsize hfit b
  · exact State.memRead_feedByte_outside (s := { s with program := rest }) hsize hfit b

/-- An EFLUSH whose tail fits. -/
theorem step_eflush {s : State} (hop : s.op = .idle) (hsched : s.schedule = [])
    (hsize : Config.MemBytesOk s.memBytes) {rest : List HostAction} (hprog : s.program = cmd .eflush :: rest)
    (hfit : s.InRange s.charAddr s.eflushOut) :
    ∃ u, step s = .next u ∧
      u = { s with
        mem := u.mem, done := true, encCount := s.encCount + BitVec.ofNat 32 s.eflushOut, phase := 0, leftover := 0,
        program := rest } ∧
      u.CharsAt s.charAddr (encTail s.phase s.leftover) ∧
      ∀ a, a < s.charAddr ∨ s.charAddr + s.eflushOut ≤ a → u.memRead a = s.memRead a := by
  have hidle : State.busy { s with program := rest } = false := s.not_busy_iff.2 hop
  have hwrap := State.encCount_add_encTail_length_lt hsize hfit
  have hin : ¬State.TailOutOfRange { s with program := rest } := fun ⟨hdue, hout⟩ => by
    have hdue' : 0 < s.eflushOut := hdue
    have hout' : ¬s.charAddr + 1 ≤ s.memBytes := hout
    simp only [State.InRange] at hfit
    omega
  refine ⟨(State.flushStream { s with program := rest }).setDone true, ?_, ?_, ?_, fun a ha => ?_⟩
  · rw [step_idle_command hop hsched hprog, exec_eflush_fits hidle hin]
  · rw [← s.encTail_length]
    exact congrArg (State.setDone · true) (State.flushStream_eq { s with program := rest })
  · exact State.emitAll_memRead_at { s with program := rest } _ hwrap
  · rw [← s.encTail_length] at ha
    exact State.emitAll_memRead_outside { s with program := rest } _ hwrap a ha

/-! ### A stream of EBYTE and EFLUSH -/

/-- A stream of bytes from any PHASE and LEFTOVER on, then EFLUSH: the host's turns write the rest of the encoding. -/
theorem run_byteStream (bytes : List Byte) {s : State} {rest : List HostAction} (hop : s.op = .idle)
    (hsched : s.schedule = []) (hsize : Config.MemBytesOk s.memBytes)
    (hprog : s.program = bytes.map (fun b => cmd (.ebyte b)) ++ cmd .eflush :: rest)
    (hroom : s.charAddr + (encFrom s.phase s.leftover bytes).length ≤ s.memBytes) :
    ∃ t, Sys2Proof.core.run (bytes.length + 1) s = .next t ∧
      t = { s with
        mem := t.mem, done := true,
        encCount := s.encCount + BitVec.ofNat 32 (encFrom s.phase s.leftover bytes).length, phase := 0,
        leftover := 0, program := rest } ∧
      t.CharsAt s.charAddr (encFrom s.phase s.leftover bytes) ∧
      ∀ a, a < s.charAddr ∨ s.charAddr + (encFrom s.phase s.leftover bytes).length ≤ a →
        t.memRead a = s.memRead a := by
  induction bytes generalizing s with
  | nil =>
    rw [encFrom_nil, s.encTail_length] at hroom ⊢
    obtain ⟨t, hstep, ht, hchars, hframe⟩ := step_eflush hop hsched hsize hprog hroom
    exact ⟨t, run_next 0 s t hstep, ht, hchars, hframe⟩
  | cons b bytes ih =>
    have hlen : (encFrom s.phase s.leftover (b :: bytes)).length = s.ebyteOut +
        (encFrom (encStep s.phase s.leftover b).2.1 (encStep s.phase s.leftover b).2.2 bytes).length := by
      rw [encFrom_cons, List.length_append, s.encStep_length]
    rw [hlen] at hroom ⊢
    have hfit : s.InRange s.charAddr s.ebyteOut := by
      simp only [State.InRange]
      omega
    obtain ⟨u, hstep, hu, haddr, hchars, hframe⟩ := step_ebyte hop hsched hsize hprog hfit
    have hphase : u.phase = (encStep s.phase s.leftover b).2.1 := by rw [hu]
    have hleft : u.leftover = (encStep s.phase s.leftover b).2.2 := by rw [hu]
    have hbytes : u.memBytes = s.memBytes := by rw [hu]
    obtain ⟨t, hrun, ht, htchars, htframe⟩ := ih (s := u) (by rw [hu]; exact hop) (by rw [hu]; exact hsched)
      (hbytes ▸ hsize) (by rw [hu]; rfl) (by rw [hphase, hleft, haddr, hbytes]; omega)
    rw [hphase, hleft] at ht htchars htframe
    refine ⟨t, (run_next _ s u hstep).trans hrun, ?_, ?_, fun a ha => ?_⟩
    · have hcount : u.encCount = s.encCount + BitVec.ofNat 32 s.ebyteOut := by rw [hu]
      rw [BitVec.ofNat_add, ← BitVec.add_assoc, ← hcount]
      refine ht.trans ?_
      rw [hu]
    · rw [encFrom_cons]
      refine State.CharsAt.append (fun j c hj => ?_) ?_
      · have hj' : j < (encStep s.phase s.leftover b).1.length := (List.getElem?_eq_some_iff.1 hj).1
        rw [s.encStep_length] at hj'
        rw [htframe _ (.inl (by omega))]
        exact hchars j c hj
      · rw [s.encStep_length, ← haddr]
        exact htchars
    · rw [htframe a (by omega), hframe a (by omega)]

/-- Settles O56: a stream from PHASE 0 with no leftover is the whole encoding. -/
theorem byteStreamWritesTheEncoding : Obligations.ByteStreamWritesTheEncoding := by
  intro s bytes rest hop hsched hphase hleft hsize hprog hroom
  have henc : encFrom s.phase s.leftover bytes = enc bytes := by rw [hphase, hleft]; rfl
  have hrun := run_byteStream bytes hop hsched hsize hprog (by rw [henc, length_enc]; exact hroom)
  rw [henc, length_enc, ← hphase, ← hleft] at hrun
  exact hrun

end Sys2Proof.Machine
end

section
/-! Micro-steps counted (70_reset_and_hazards.md R208, R210): a command given the engine's turns alone, the number of
micro-steps of each command, what an SRST leaves of a PACK, and with these the obligations on both. -/

namespace Sys2Proof.Machine

/-! ### Turns of the engine alone -/

/-- A command whose i-th micro-step leads from `P i` to `P (i + 1)` stands at `P n` after n turns of the engine. -/
theorem RunsUnder.engineTurns {o : Op} {n : Nat} (P : Nat → State → Prop)
    (hturn : ∀ {i u}, P i u → P i u.takeTurn)
    (hmicro : ∀ {i u}, i < n → P i u → u.op = o → ∃ t, engineStep u = .next t ∧ t.op = o ∧ P (i + 1) t)
    {s : State} {rest : List Turn} (hs : s.op = o) (h0 : P 0 s)
    (hsched : s.schedule = List.replicate n .engine ++ rest) :
    ∃ u, RunsUnder o n s u ∧ u.op = o ∧ P n u ∧ u.schedule = rest := by
  have hpart : ∀ m, m ≤ n → ∃ u, RunsUnder o m s u ∧ u.op = o ∧ P m u ∧
      u.schedule = List.replicate (n - m) .engine ++ rest := by
    intro m
    induction m with
    | zero => exact fun _ => ⟨s, (RunsUnder.zero_iff o s s).2 rfl, hs, h0, hsched⟩
    | succ m ih =>
      intro hm
      obtain ⟨u, hrun, hu, hP, hleft⟩ := ih (Nat.le_of_succ_le hm)
      have hcount : n - m = (n - (m + 1)) + 1 := by omega
      rw [hcount, List.replicate_succ, List.cons_append] at hleft
      obtain ⟨t, hstep, ht, hP'⟩ := hmicro (u := u.takeTurn) hm (hturn hP) hu
      refine ⟨t, hrun.snoc o m s u t hu ?_, ht, hP', ?_⟩
      · rw [step_engine u (State.turn_of_schedule_cons hleft), hstep]
      · rw [(engineStep_keepsInputs hstep).schedule, State.takeTurn_schedule, hleft, List.tail_cons]
  obtain ⟨u, hrun, hu, hP, hleft⟩ := hpart n (Nat.le_refl n)
  exact ⟨u, hrun, hu, hP, by simpa using hleft⟩

/-- Where the micro-step from `P n` completes the command, it takes n + 1 micro-steps. -/
theorem RunsUnder.engineTurns_complete {o : Op} {n : Nat} (P : Nat → State → Prop)
    (hturn : ∀ {i u}, P i u → P i u.takeTurn)
    (hmicro : ∀ {i u}, i < n → P i u → u.op = o → ∃ t, engineStep u = .next t ∧ t.op = o ∧ P (i + 1) t)
    (hlast : ∀ {u}, P n u → u.op = o → ∃ t, engineStep u = .next t ∧ t.op = .idle ∧ t.done = true)
    {s : State} {rest : List Turn} (hs : s.op = o) (h0 : P 0 s)
    (hsched : s.schedule = List.replicate (n + 1) .engine ++ rest) :
    ∃ t, RunsUnder o (n + 1) s t ∧ t.op = .idle ∧ t.done = true := by
  rw [List.replicate_succ', List.append_assoc] at hsched
  obtain ⟨u, hrun, hu, hP, hleft⟩ := RunsUnder.engineTurns P hturn hmicro hs h0 hsched
  obtain ⟨t, hstep, hidle, hdone⟩ := hlast (u := u.takeTurn) (hturn hP) hu
  refine ⟨t, hrun.snoc o n s u t hu ?_, hidle, hdone⟩
  rw [step_engine u (State.turn_of_schedule_cons hleft), hstep]

/-! ### The commands' micro-steps -/

/-- A PACK from `s₀` that has packed i bytes. -/
def State.PackedUpTo (s₀ : State) (i : Nat) (u : State) : Prop := s₀.PackProgress u ∧ u.pkCount.toNat = i

theorem State.PackedUpTo.takeTurn {s₀ u : State} {i : Nat} (h : s₀.PackedUpTo i u) : s₀.PackedUpTo i u.takeTurn := by
  obtain ⟨hprog, hcount⟩ := h
  exact ⟨hprog.of_statusOnly u.statusOnly_takeTurn, hcount⟩

theorem State.PackedUpTo.microStep {s₀ u : State} {i : Nat} (hi : i < s₀.packedLen) (h : s₀.PackedUpTo i u)
    (hu : u.op = .pack) : ∃ t, engineStep u = .next t ∧ t.op = .pack ∧ s₀.PackedUpTo (i + 1) t := by
  obtain ⟨hprog, rfl⟩ := h
  rw [← hprog.config.packedLen] at hi
  refine ⟨u.storeTileRow.advanceTile, ?_, (State.advanceTile_op _).trans hu, hprog.advance hi, ?_⟩
  · rw [engineStep_pack hu, packStep_row hi (hprog.running.accessOk hi)]
  · rw [State.advanceTile_pkCount, State.storeTileRow_pkCount_toNat hi]

theorem State.PackedUpTo.lastStep {s₀ u : State} (h : s₀.PackedUpTo s₀.packedLen u) (hu : u.op = .pack) :
    ∃ t, engineStep u = .next t ∧ t.op = .idle ∧ t.done = true := by
  obtain ⟨hprog, hcount⟩ := h
  refine ⟨u.complete, ?_, rfl, rfl⟩
  rw [engineStep_pack hu, packStep_complete]
  rw [hprog.config.packedLen, hcount]

/-- An ASCAN from `s₀` that has scanned i pixels. -/
def State.ScannedUpTo (s₀ : State) (i : Nat) (u : State) : Prop := s₀.AscanProgress u ∧ u.aj = i

theorem State.ScannedUpTo.takeTurn {s₀ u : State} {i : Nat} (h : s₀.ScannedUpTo i u) :
    s₀.ScannedUpTo i u.takeTurn := by
  obtain ⟨hprog, hcount⟩ := h
  exact ⟨hprog.of_statusOnly u.statusOnly_takeTurn, hcount⟩

theorem State.ScannedUpTo.microStep {s₀ u : State} {i : Nat} (hi : i < s₀.planeW * s₀.planeH)
    (h : s₀.ScannedUpTo i u) (hu : u.op = .ascan) :
    ∃ t, engineStep u = .next t ∧ t.op = .ascan ∧ s₀.ScannedUpTo (i + 1) t := by
  obtain ⟨hprog, rfl⟩ := h
  rw [← hprog.config.planeW, ← hprog.config.planeH] at hi
  refine ⟨u.scanPixel, ?_, hu, hprog.advance hi, rfl⟩
  rw [engineStep_ascan hu, ascanStep_pixel hi (hprog.running.accessOk hi)]
  rfl

theorem State.ScannedUpTo.lastStep {s₀ u : State} (h : s₀.ScannedUpTo (s₀.planeW * s₀.planeH) u)
    (hu : u.op = .ascan) : ∃ t, engineStep u = .next t ∧ t.op = .idle ∧ t.done = true := by
  obtain ⟨hprog, hcount⟩ := h
  refine ⟨u.complete, ?_, rfl, rfl⟩
  rw [engineStep_ascan hu, ascanStep_complete]
  rw [hprog.config.planeW, hprog.config.planeH, hcount]

/-- An ENCODE from `s₀` that has consumed i bytes. -/
def State.EncodedUpTo (s₀ : State) (i : Nat) (u : State) : Prop := s₀.EncodeProgress u ∧ u.ek.toNat = i

theorem State.EncodedUpTo.takeTurn {s₀ u : State} {i : Nat} (h : s₀.EncodedUpTo i u) :
    s₀.EncodedUpTo i u.takeTurn := by
  obtain ⟨hprog, hcount⟩ := h
  exact ⟨hprog.of_statusOnly u.statusOnly_takeTurn, hcount⟩

theorem State.EncodedUpTo.microStep {s₀ u : State} {i : Nat} (hi : i < s₀.inputLen) (h : s₀.EncodedUpTo i u)
    (hu : u.op = .encode) : ∃ t, engineStep u = .next t ∧ t.op = .encode ∧ s₀.EncodedUpTo (i + 1) t := by
  obtain ⟨hprog, rfl⟩ := h
  rw [← hprog.config.inputLen] at hi
  obtain ⟨hin, hfit⟩ := hprog.running.accessOk hi
  refine ⟨u.encodeByte, ?_, (State.feedByte_op _ _).trans hu, hprog.advance hi, State.encodeByte_ek_toNat hi⟩
  rw [engineStep_encode hu, encodeStep_byte hi hin hfit]
  rfl

theorem State.EncodedUpTo.lastStep {s₀ u : State} (h : s₀.EncodedUpTo s₀.inputLen u) (hu : u.op = .encode) :
    ∃ t, engineStep u = .next t ∧ t.op = .idle ∧ t.done = true := by
  obtain ⟨hprog, hcount⟩ := h
  have hend : u.inputLen ≤ u.ek.toNat := by rw [hprog.config.inputLen, hcount]
  refine ⟨u.flushStream.complete, ?_, rfl, rfl⟩
  rw [engineStep_encode hu, encodeStep_flush hend (.inr (hprog.running.flushOk hend))]

/-- Settles O57: one micro-step for each byte or pixel, and one that completes. -/
theorem microStepCounts : Obligations.MicroStepCounts := by
  refine fun s₀ s rest hop => ⟨fun hx hs hsched => ?pack, fun hx hs hsched => ?ascan,
    fun hx hs hsize hsched => ?encode⟩
  case pack =>
    obtain ⟨hcheck, rfl⟩ := exec_pack_started hop hx hs
    exact RunsUnder.engineTurns_complete s₀.PackedUpTo State.PackedUpTo.takeTurn State.PackedUpTo.microStep
      State.PackedUpTo.lastStep hs ⟨State.packProgress_start hcheck, rfl⟩ hsched
  case ascan =>
    obtain ⟨hcheck, rfl⟩ := exec_ascan_started hop hx hs
    exact RunsUnder.engineTurns_complete s₀.ScannedUpTo State.ScannedUpTo.takeTurn State.ScannedUpTo.microStep
      State.ScannedUpTo.lastStep hs ⟨State.ascanProgress_start hcheck, rfl⟩ hsched
  case encode =>
    obtain ⟨hcheck, rfl⟩ := exec_encode_started hop hx hs
    exact RunsUnder.engineTurns_complete s₀.EncodedUpTo State.EncodedUpTo.takeTurn State.EncodedUpTo.microStep
      State.EncodedUpTo.lastStep hs ⟨State.encodeProgress_start hsize hcheck, rfl⟩ hsched

/-! ### An aborted PACK -/

/-- Settles O58: SRST keeps the bytes that the progress of the PACK gives; k turns of the engine pack k bytes. -/
theorem abortedPackLeavesAPrefix : Obligations.AbortedPackLeavesAPrefix := by
  intro s₀ s hop hx hs w h nb
  refine ⟨fun u n hrun hu => ?_, fun k hk => ?_⟩
  · have hprog := State.PackProgress.of_run hop hx hs hrun hu
    have hcounted : u.pkCount.toNat ≤ s₀.packedLen := hprog.config.packedLen ▸ hprog.running.counted
    refine ⟨u.pkCount.toNat, u.softReset, hcounted, rfl, rfl, rfl, rfl, fun j hj => ?_, fun a ha => ?_⟩
    · rw [State.memRead_softReset]
      exact hprog.packPlane hj
    · rw [State.memRead_softReset]
      exact hprog.frame a ha
  · obtain ⟨hcheck, rfl⟩ := exec_pack_started hop hx hs
    obtain ⟨u, hrun, hu, ⟨-, hcount⟩, -⟩ := RunsUnder.engineTurns (n := k) (rest := []) s₀.PackedUpTo
      State.PackedUpTo.takeTurn (fun hi => State.PackedUpTo.microStep (hi.trans_le hk))
      (s := { (s₀.setDone false).startPack with schedule := List.replicate k .engine }) rfl
      ⟨(State.packProgress_start hcheck).of_statusOnly rfl, rfl⟩ (List.append_nil _).symm
    exact ⟨List.replicate k .engine, u, hrun, hu, hcount⟩

end Sys2Proof.Machine
end
